-- ==== Sys2Proof/Word.lean ====
section
/-! DEFINITION. Word types of the block (00_scope.md rule R7): bytes, command words and register widths. -/

namespace Sys2Proof

/-- A byte, bits 7 (most significant) down to 0 (R7). -/
abbrev Byte := BitVec 8

/-- One command word: OP in bits 15..8, D in bits 7..0 (30_encoding.md R70). -/
abbrev Command := BitVec 16

/-- A 16-bit CRC remainder (40_crc.md R111). -/
abbrev Crc := BitVec 16

/-- A 32-bit length, counter, info word or RDREG result (10_state.md R30, R32, R34). -/
abbrev Word32 := BitVec 32

/-- The 64-bit content accumulator (10_state.md R30). -/
abbrev Word64 := BitVec 64

end Sys2Proof
end

