-- ==== Sys2Proof/Syntax.lean ====
section
/-! DEFINITION. The commands of the block, one constructor per row of spec/opcode_table.json (30_encoding.md R71), and
the abstract syntax of the spec's assembler (R75, R76). -/

namespace Sys2Proof

/-- The twelve commands of R71. A command that ignores its D field carries no operand (R72). -/
inductive Instr where
  /-- NOP, OP 0x00 (R230). -/
  | nop
  /-- RDREG n, OP 0x01 (R231). -/
  | rdreg (n : Byte)
  /-- CRC.CLR, OP 0x10 (R113). -/
  | crcClr
  /-- CRC.UPD d, OP 0x11 (R114). -/
  | crcUpd (d : Byte)
  /-- TX.SOF, OP 0x20 (R132). -/
  | txSof
  /-- TX.DATA d, OP 0x21 (R133). -/
  | txData (d : Byte)
  /-- TX.EOF, OP 0x22 (R134). -/
  | txEof
  /-- RX.BYTE x, OP 0x30 (R151). -/
  | rxByte (x : Byte)
  /-- RX.TMO, OP 0x31 (R157). -/
  | rxTmo
  /-- P.START, OP 0x40 (R180). -/
  | pStart
  /-- P.BYTE b, OP 0x41 (R181). -/
  | pByte (b : Byte)
  /-- P.END, OP 0x42 (R194). -/
  | pEnd
deriving DecidableEq, Repr

/-- The mnemonics of R71, the first word of an assembler line (R75). -/
inductive Mnemonic where
  | nop | rdreg | crcClr | crcUpd | txSof | txData | txEof | rxByte | rxTmo | pStart | pByte | pEnd
deriving DecidableEq, Repr

/-- One operand of the assembler, by the form it is written in (R75). Which values a form admits is
`AsmOperand.wf` (WellFormed.lean). -/
inductive AsmOperand where
  /-- Hexadecimal, `0x00` to `0xFF`. -/
  | hex (n : Nat)
  /-- Decimal, `0` to `255`. -/
  | dec (n : Nat)
  /-- A character literal, for a 7-bit ASCII character. -/
  | chr (c : Char)
deriving DecidableEq, Repr

/-- One assembler line: a mnemonic, then at most one operand (R75). -/
structure AsmLine where
  mnemonic : Mnemonic
  operand : Option AsmOperand
deriving DecidableEq, Repr

/-- One item of a byte list: a byte operand or a double-quoted string, here as its characters (R76). -/
inductive ByteItem where
  | operand (o : AsmOperand)
  | str (chars : List Char)
deriving DecidableEq, Repr

/-- The pseudo-instructions of R76, each with its byte list. -/
inductive Pseudo where
  /-- `CRC.OF list` -/
  | crcOf (list : List ByteItem)
  /-- `TX.FRAME list` -/
  | txFrame (list : List ByteItem)
  /-- `RX.FEED list` -/
  | rxFeed (list : List ByteItem)
  /-- `P.PARSE list` -/
  | pParse (list : List ByteItem)
deriving DecidableEq, Repr

end Sys2Proof
end

