-- ==== Sys2Proof/Config.lean ====
section
/-! DEFINITION. The parameters of 00_scope.md rule R6: the two open ones (a structure the state carries) and the fixed
constants. -/

namespace Sys2Proof

/-- The open parameters of R6. Their widths give the upper bounds of R6 (2^32 - 1 and 255); the lower bounds are
`Config.wf` (WellFormed.lean). No command changes them (10_state.md R38); RDREG 0x08 and 0x09 report them. -/
structure Config where
  /-- RX_MAX: capacity of the accumulation buffer in unescaped bytes (D12). -/
  rxMax : Word32
  /-- MAX_DEPTH: the most non-empty containers open at once (D21). -/
  maxDepth : Byte
deriving DecidableEq, Repr

/-- DESIGN CHOICE, unsafe, log entry 4: the spec leaves both parameters open. `State.reset` carries the values that
95_test_vectors.md uses unless it says otherwise. -/
def Config.atReset : Config := ⟨4096, 8⟩

/-- CRC_POLY, the low 16 coefficients of the generator (R6). -/
def Config.crcPoly : Crc := 0x1021

/-- CRC_INIT (R6). -/
def Config.crcInit : Crc := 0x0000

/-- ESC, the escape byte (R6). -/
def Config.escByte : Byte := 0x7D

/-- FLAG, the delimiter byte (R6). -/
def Config.flagByte : Byte := 0x7E

/-- ESC_MASK_TX, the AND mask of the transmitter (R6). -/
def Config.escMaskTx : Byte := 0xDF

/-- ESC_MASK_RX, the OR mask of the receiver (R6). -/
def Config.escMaskRx : Byte := 0x20

end Sys2Proof
end

