-- ==== Sys2Proof/WellFormed.lean ====
section
/-! DEFINITION. Which parameters, assembler operands and assembler lines are well formed. Every `Instr` is: its
operand, where it has one, is a byte, and a command takes every byte (R72, R114, R231). -/

namespace Sys2Proof

/-- The ranges of R6: 2 <= RX_MAX <= 2^32 - 1 and 1 <= MAX_DEPTH <= 255 (the upper bounds are the widths'). -/
def Config.wf (c : Config) : Bool :=
  decide (2 ≤ c.rxMax.toNat) && decide (1 ≤ c.maxDepth.toNat)

/-- The mnemonics that take an operand (R75, R72). -/
def Mnemonic.takesOperand : Mnemonic → Bool
  | .rdreg | .crcUpd | .txData | .rxByte | .pByte => true
  | .nop | .crcClr | .txSof | .txEof | .rxTmo | .pStart | .pEnd => false

/-- The values R75 admits for each form of operand. -/
def AsmOperand.wf : AsmOperand → Bool
  | .hex n => decide (n ≤ 0xFF)
  | .dec n => decide (n ≤ 255)
  | .chr c => decide (c.toNat ≤ 0x7F)

/-- "Operands are allowed only on CRC.UPD, TX.DATA, RX.BYTE, P.BYTE and RDREG; on the others the assembler rejects
one" (R75). -/
def AsmLine.wf (l : AsmLine) : Bool :=
  match l.operand with
  | none => true
  | some o => l.mnemonic.takesOperand && o.wf

/-- A byte list is well formed when its operands are (R76). -/
def ByteItem.wf : ByteItem → Bool
  | .operand o => o.wf
  | .str _ => true

/-- The byte list of a pseudo-instruction (R76). -/
def Pseudo.items : Pseudo → List ByteItem
  | .crcOf l | .txFrame l | .rxFeed l | .pParse l => l

/-- A pseudo-instruction is well formed when its byte list is (R76). -/
def Pseudo.wf (p : Pseudo) : Bool := p.items.all ByteItem.wf

end Sys2Proof
end

