-- ==== Sys2Proof/Decode.lean ====
section
/-! DEFINITION. Decoding a command word (30_encoding.md R70 to R74), the encoder written from the same table, and the
spec's assembler over abstract lines (R75, R76). -/

namespace Sys2Proof

/-- The OP field, bits 15..8 (R70). -/
def opField (w : Command) : Byte := w.extractLsb' 8 8

/-- The D field, bits 7..0 (R70). -/
def dField (w : Command) : Byte := w.extractLsb' 0 8

/-- The word `OP << 8 | D` (R70, R75). -/
def commandWord (op d : Byte) : Command := op ++ d

/-- Why the decoder rejects a word: its OP value is not in the opcode map (R73). -/
inductive DecodeReject where
  | illegalOpcode (op : Byte)
deriving DecidableEq, Repr

/-- The opcode map of R71, with the operand assembly of R72: D is the operand of a data-carrying command and of RDREG,
and is ignored by the others. Every OP value the map does not list is illegal (R73). -/
def decode (w : Command) : Except DecodeReject Instr :=
  match opField w with
  | 0x00#8 => .ok .nop
  | 0x01#8 => .ok (.rdreg (dField w))
  | 0x10#8 => .ok .crcClr
  | 0x11#8 => .ok (.crcUpd (dField w))
  | 0x20#8 => .ok .txSof
  | 0x21#8 => .ok (.txData (dField w))
  | 0x22#8 => .ok .txEof
  | 0x30#8 => .ok (.rxByte (dField w))
  | 0x31#8 => .ok .rxTmo
  | 0x40#8 => .ok .pStart
  | 0x41#8 => .ok (.pByte (dField w))
  | 0x42#8 => .ok .pEnd
  | op => .error (.illegalOpcode op)

/-- The opcode of a mnemonic (R71). -/
def Mnemonic.opcode : Mnemonic → Byte
  | .nop => 0x00
  | .rdreg => 0x01
  | .crcClr => 0x10
  | .crcUpd => 0x11
  | .txSof => 0x20
  | .txData => 0x21
  | .txEof => 0x22
  | .rxByte => 0x30
  | .rxTmo => 0x31
  | .pStart => 0x40
  | .pByte => 0x41
  | .pEnd => 0x42

/-- The mnemonic of a command (R71). -/
def Instr.mnemonic : Instr → Mnemonic
  | .nop => .nop
  | .rdreg _ => .rdreg
  | .crcClr => .crcClr
  | .crcUpd _ => .crcUpd
  | .txSof => .txSof
  | .txData _ => .txData
  | .txEof => .txEof
  | .rxByte _ => .rxByte
  | .rxTmo => .rxTmo
  | .pStart => .pStart
  | .pByte _ => .pByte
  | .pEnd => .pEnd

/-- The units of R71: "OP[7:4] names the unit (0 control, 1 CRC, 2 FTX, 3 FRX, 4 TLVP)". -/
inductive BlockUnit where
  | control | crc | ftx | frx | tlvp
deriving DecidableEq, Repr

/-- The unit that performs a command (R71). -/
def Instr.unit : Instr → BlockUnit
  | .nop | .rdreg _ => .control
  | .crcClr | .crcUpd _ => .crc
  | .txSof | .txData _ | .txEof => .ftx
  | .rxByte _ | .rxTmo => .frx
  | .pStart | .pByte _ | .pEnd => .tlvp

/-- The operand of a command that has one (R72). -/
def Instr.operand? : Instr → Option Byte
  | .rdreg n => some n
  | .crcUpd d | .txData d => some d
  | .rxByte x => some x
  | .pByte b => some b
  | .nop | .crcClr | .txSof | .txEof | .rxTmo | .pStart | .pEnd => none

/-- The word of a command. A command without an operand is written with D = 0 (R72 "The host should write D = 0", R75). -/
def encode (i : Instr) : Command :=
  commandWord i.mnemonic.opcode (i.operand?.getD 0)

/-- The host's row-by-row question: the instruction the decoder reads from a table row's bits. A command is one 16-bit
word given whole (R70, R74), so no byte order enters; a row longer than one word is no command. Log entry 15. -/
def decodeTableWord (nbits w : Nat) : Option Instr :=
  if nbits ≤ 16 then (decode (BitVec.ofNat 16 (w % 2 ^ nbits))).toOption else none

/-- The byte an operand stands for (R75). -/
def AsmOperand.toByte : AsmOperand → Byte
  | .hex n => BitVec.ofNat 8 n
  | .dec n => BitVec.ofNat 8 n
  | .chr c => BitVec.ofNat 8 c.toNat

/-- "A command assembles to the word `OP << 8 | D`", D = 0 without an operand; the assembler rejects an ill-formed
line (R75). -/
def assemble (l : AsmLine) : Option Command :=
  if l.wf then some (commandWord l.mnemonic.opcode ((l.operand.map AsmOperand.toByte).getD 0)) else none

/-- The bytes of one list item: a string stands for its UTF-8 bytes in order (R76). -/
def ByteItem.bytes : ByteItem → List Byte
  | .operand o => [o.toByte]
  | .str chars => (chars.flatMap String.utf8EncodeChar).map UInt8.toBitVec

/-- The bytes of a byte list (R76). -/
def listBytes (items : List ByteItem) : List Byte := items.flatMap ByteItem.bytes

/-- The commands of `CRC.OF` over a byte list (R76). -/
def crcOfCommands (bs : List Byte) : List Instr := .crcClr :: bs.map .crcUpd

/-- The commands of `TX.FRAME` over a byte list (R76). -/
def txFrameCommands (bs : List Byte) : List Instr := .txSof :: (bs.map .txData ++ [.txEof])

/-- The commands of `RX.FEED` over a byte list (R76). -/
def rxFeedCommands (bs : List Byte) : List Instr := bs.map .rxByte

/-- The commands of `P.PARSE` over a byte list (R76). -/
def pParseCommands (bs : List Byte) : List Instr := .pStart :: (bs.map .pByte ++ [.pEnd])

/-- The expansion table of R76. -/
def Pseudo.expand : Pseudo → List Instr
  | .crcOf l => crcOfCommands (listBytes l)
  | .txFrame l => txFrameCommands (listBytes l)
  | .rxFeed l => rxFeedCommands (listBytes l)
  | .pParse l => pParseCommands (listBytes l)

/-- The words of a pseudo-instruction; the assembler rejects an ill-formed byte list (R75, R76). -/
def Pseudo.assemble (p : Pseudo) : Option (List Command) :=
  if p.wf then some (p.expand.map encode) else none

end Sys2Proof
end

