-- ==== Sys2Proof/Machine/State.lean ====
section
/-! DEFINITION. The state of the block (10_state.md), its output events (30_encoding.md R85 to R87), the reasons a step
could stop, and the state after power-on (R37, R280). Plain data throughout. -/

namespace Sys2Proof.Machine

/-- P_MODE (R28). Codes 5 to 7 are never held, so they are not values of the type (log entry 7). -/
inductive PMode where
  /-- 0: the next byte is a tag byte. -/
  | tag
  /-- 1: inside a 16-bit size extension. -/
  | len16
  /-- 2: inside a 32-bit size extension. -/
  | len32
  /-- 3: inside the content of a scalar, String or Bytes record. -/
  | content
  /-- 4: a decoding error was reported; bytes are ignored. -/
  | error
deriving DecidableEq, Repr

/-- The eight families of R80, tag bits [7:5]. -/
inductive Family where
  | none | boolean | integer | real | string | bytes | list | map
deriving DecidableEq, Repr

/-- The kind of an open container (R32): bit 0 List, bit 1 Map. -/
inductive ContainerKind where
  | list | map
deriving DecidableEq, Repr

/-- P_UTF, the UTF-8 validator state (R31). -/
structure Utf8 where
  /-- continuation bytes still required -/
  need : BitVec 2
  /-- least value of the next byte when `need > 0` -/
  lo : Byte
  /-- greatest value of the next byte when `need > 0` -/
  hi : Byte
deriving DecidableEq, Repr

/-- One entry of P_STACK (R32). -/
structure StackEntry where
  kind : ContainerKind
  /-- content bytes not yet consumed or claimed by a sub-record -/
  rem : Word32
  /-- parity of the number of complete sub-records so far -/
  odd : Bool
deriving DecidableEq, Repr

/-- The codes of RXERR (60_exceptions.md R251). -/
inductive RxErr where
  | integrity | timeout | short | overflow
deriving DecidableEq, Repr

/-- The codes of PERR (60_exceptions.md R252). -/
inductive PErr where
  | width | container | mapOdd | trunc | utf8 | depth
deriving DecidableEq, Repr

/-- RX_OUT events, abstract tuples (R85). -/
inductive RxEvent where
  /-- FRAME(payload) -/
  | frame (payload : List Byte)
  /-- RXERR(code, a, b) -/
  | rxerr (code : RxErr) (a b : Word32)
deriving DecidableEq, Repr

/-- P_OUT events, abstract tuples (R86). -/
inductive PEvent where
  /-- HDR(fam, len, depth) -/
  | hdr (fam : Family) (len : Word32) (depth : Byte)
  /-- BYTE(b) -/
  | byte (b : Byte)
  /-- NIL -/
  | nil
  /-- BOOL(v) -/
  | bool (v : Bool)
  /-- INT(v), two's complement -/
  | int (v : Word64)
  /-- REAL(w, bits), w in 0, 4, 8 -/
  | real (w : Word32) (bits : Word64)
  /-- CLOSE(depth) -/
  | close (depth : Byte)
  /-- TOP(n) -/
  | top (n : Word32)
  /-- END(n) -/
  | endBuffer (n : Word32)
  /-- PERR(code) -/
  | perr (code : PErr)
deriving DecidableEq, Repr

/-- REG_OUT events REG(n, v) (R87). -/
structure RegEvent where
  n : Byte
  v : Word32
deriving DecidableEq, Repr

/-- The registers of the frame encoder (R23, R24). -/
structure Ftx where
  /-- TX_INFRAME -/
  inFrame : Bool
  /-- TX_CRC -/
  crc : Crc
deriving DecidableEq, Repr

/-- The registers of the frame decoder (R25 to R27). -/
structure Frx where
  /-- RX_BUF -/
  buf : List Byte
  /-- RX_ESC -/
  esc : Bool
  /-- RX_DISCARD -/
  discard : Bool
deriving DecidableEq, Repr

/-- The registers of the record parser (R28 to R32). -/
structure Tlvp where
  /-- P_MODE -/
  mode : PMode
  /-- P_K -/
  k : BitVec 2
  /-- P_FAM -/
  fam : Family
  /-- P_LEN -/
  len : Word32
  /-- P_CNT -/
  cnt : Word32
  /-- P_ACC -/
  acc : Word64
  /-- P_UTF -/
  utf : Utf8
  /-- P_STACK, the innermost container FIRST (log entry 6) -/
  stack : List StackEntry
  /-- P_NTOP -/
  ntop : Word32
deriving DecidableEq, Repr

/-- What the host gives the block (R20, R233): a command word, or the reset input between two commands (R280). -/
inductive HostInput where
  | command (w : Command)
  | reset
deriving DecidableEq, Repr

/-- The whole state: the registers of 10_state.md, the four output ports (R36), the parameters (R6), and the host's
list of what it has still to give (R21, R58; the model's own field, log entry 1). -/
structure State where
  /-- RX_MAX and MAX_DEPTH (R38), fixed while the block runs -/
  cfg : Config
  /-- CRC_VAL (R22) -/
  crcVal : Crc
  /-- FTX (R23, R24) -/
  tx : Ftx
  /-- FRX (R25 to R27) -/
  rx : Frx
  /-- TLVP (R28 to R32) -/
  tlv : Tlvp
  /-- ERR (R33): bit 0 ILLOP, bit 1 TXSEQ, bit 2 BADREG -/
  err : BitVec 3
  /-- port LINE_TX, oldest byte first (R36) -/
  lineTx : List Byte
  /-- port RX_OUT, oldest event first (R36) -/
  rxOut : List RxEvent
  /-- port P_OUT, oldest event first (R36) -/
  pOut : List PEvent
  /-- port REG_OUT, oldest event first (R36) -/
  regOut : List RegEvent
  /-- what the host has still to give, next first (R21, R58) -/
  inputs : List HostInput
deriving DecidableEq, Repr

/-- The reasons the machine stops with a fault: there are none. "The block has no traps" (60_exceptions.md R250); every
error is an event or a sticky bit and the block goes on. Safe: no step can end in a fault (log entry 11). -/
inductive Fault where
deriving DecidableEq, Repr

/-- The reasons a step has no meaning. -/
inductive Refusal where
  /-- Raised by an arm of `exec` for a command that has no meaning in the model yet; no arm raises it now. Safe. -/
  | notModelled (mnemonic : String)
deriving DecidableEq, Repr

/-- P_UTF between characters: need 0, lo 0x80, hi 0xBF (R37, R180). -/
def Utf8.start : Utf8 := ⟨0, 0x80, 0xBF⟩

/-- FTX after reset (R37). -/
def Ftx.reset : Ftx := ⟨false, 0x0000⟩

/-- FRX after reset (R37). -/
def Frx.reset : Frx := ⟨[], false, false⟩

/-- TLVP after reset (R37), which is also what P.START and P.END leave (R180, R194). -/
def Tlvp.reset : Tlvp :=
  { mode := .tag, k := 0, fam := .none, len := 0, cnt := 0, acc := 0, utf := .start, stack := [], ntop := 0 }

/-- Power-on with given parameters: every register at its value of R37, all ports empty (R280), and nothing yet from
the host. -/
def State.powerOn (c : Config) : State :=
  { cfg := c, crcVal := Config.crcInit, tx := .reset, rx := .reset, tlv := .reset, err := 0,
    lineTx := [], rxOut := [], pOut := [], regOut := [], inputs := [] }

/-- The machine right after reset: power-on with RX_MAX = 4096 and MAX_DEPTH = 8 (log entries 4 and 5). -/
def State.reset : State := .powerOn .atReset

end Sys2Proof.Machine
end

