-- ==== Sys2Proof/Machine/Flags.lean ====
section
/-! DEFINITION. The status flags (10_state.md R39): the sticky ERR register (R33). The block has no condition codes. -/

namespace Sys2Proof.Machine

/-- The bits of ERR (R33). -/
inductive ErrBit where
  | illop | txseq | badreg
deriving DecidableEq, Repr

/-- The mask of an ERR bit: bit 0 ILLOP, bit 1 TXSEQ, bit 2 BADREG (R33). -/
def ErrBit.mask : ErrBit → BitVec 3
  | .illop => 0b001
  | .txseq => 0b010
  | .badreg => 0b100

/-- `seterr NAME` means `ERR[bit of NAME] <- 1` (R33). -/
def State.setErr (b : ErrBit) (s : State) : State := { s with err := s.err ||| b.mask }

end Sys2Proof.Machine
end

