-- ==== Sys2Proof/Machine/Operands.lean ====
section
/-! DEFINITION. The operand forms of the spec's pseudocode: bit fields, byte order, sign extension (00_scope.md R7, R8),
numeric codes (R28, R80, R251, R252) and the escape mapping (30_encoding.md R78). -/

namespace Sys2Proof.Machine

/-- `zext_32(v)` of a byte (R7). -/
def zext32 (v : Byte) : Word32 := v.setWidth 32

/-- `zext_64(v)` of a byte (R7). -/
def zext64 (v : Byte) : Word64 := v.setWidth 64

/-- `be16(hi, lo) = hi * 256 + lo` (R8), as a 16-bit value. -/
def be16 (hi lo : Byte) : BitVec 16 := hi ++ lo

/-- Bits [15:8] of a 16-bit value. -/
def hiByte (c : BitVec 16) : Byte := c.extractLsb' 8 8

/-- Bits [7:0] of a 16-bit value. -/
def loByte (c : BitVec 16) : Byte := c.extractLsb' 0 8

/-- The P_LEN update `((P_LEN << 8) | zext_32(b))[31:0]` of R184 and R185: big-endian assembly. -/
def shiftInLen (len : Word32) (b : Byte) : Word32 := (len <<< 8) ||| zext32 b

/-- The P_ACC update `((P_ACC << 8) | zext_64(b))[63:0]` of R191: big-endian accumulation. -/
def shiftInAcc (acc : Word64) (b : Byte) : Word64 := (acc <<< 8) ||| zext64 b

/-- `sext_64(P_ACC[8n-1:0])` of R192, for a width of `n` bytes. The accumulator holds no more than 8 bytes, so a
greater `n` takes all of it (log entry 9). -/
def sextBytes (n : Nat) (acc : Word64) : Word64 := (acc.setWidth (8 * min n 8)).signExtend 64

/-- The code of a mode, what P_STAT shows (R28, R34). -/
def PMode.code : PMode → BitVec 3
  | .tag => 0
  | .len16 => 1
  | .len32 => 2
  | .content => 3
  | .error => 4

/-- The code of a family (R80). -/
def Family.code : Family → BitVec 3
  | .none => 0
  | .boolean => 1
  | .integer => 2
  | .real => 3
  | .string => 4
  | .bytes => 5
  | .list => 6
  | .map => 7

/-- The family of a code: "All 8 codes are assigned" (R80). -/
def Family.ofCode (c : BitVec 3) : Family :=
  match c with
  | 0#3 => .none
  | 1#3 => .boolean
  | 2#3 => .integer
  | 3#3 => .real
  | 4#3 => .string
  | 5#3 => .bytes
  | 6#3 => .list
  | 7#3 => .map

/-- The numeric code of an FRX error (R251). -/
def RxErr.code : RxErr → Byte
  | .integrity => 0x01
  | .timeout => 0x02
  | .short => 0x03
  | .overflow => 0x04

/-- The numeric code of a TLVP error (R252). -/
def PErr.code : PErr → Byte
  | .width => 0x10
  | .container => 0x11
  | .mapOdd => 0x12
  | .trunc => 0x13
  | .utf8 => 0x14
  | .depth => 0x15

/-- The family of a tag byte, bits [7:5] (R79). -/
def tagFamily (t : Byte) : Family := Family.ofCode (t.extractLsb' 5 3)

/-- The size class of a tag byte, bits [4:0] (R79). -/
def tagSize (t : Byte) : BitVec 5 := t.extractLsb' 0 5

/-- List and Map are the containers (R80). -/
def Family.isContainer : Family → Bool
  | .list | .map => true
  | .none | .boolean | .integer | .real | .string | .bytes => false

/-- The kind a pushed entry takes: `1 if P_FAM = Map else 0` (R187). -/
def Family.kind (f : Family) : ContainerKind := if f = .map then .map else .list

/-- `legal_width(fam, L)` (R188). -/
def legalWidth (fam : Family) (len : Word32) : Bool :=
  match fam with
  | .none => len == 0
  | .boolean => len == 0 || len == 1
  | .integer => len == 0 || len == 1 || len == 2 || len == 4 || len == 8
  | .real => len == 0 || len == 4 || len == 8
  | .string | .bytes | .list | .map => true

/-- `esc(b)` (R78). -/
def escByte (b : Byte) : List Byte :=
  if b = Config.flagByte ∨ b = Config.escByte then [Config.escByte, b &&& Config.escMaskTx] else [b]

/-- `escaped(s)`: the concatenation of `esc(b)` over the bytes (R77). -/
def escaped (bs : List Byte) : List Byte := bs.flatMap escByte

/-- The receiver's unescaping of the byte after 0x7D: `x | 0x20` (R78, R158). -/
def unescByte (x : Byte) : Byte := x ||| Config.escMaskRx

end Sys2Proof.Machine
end

