-- ==== Sys2Proof/Machine/Ops.lean ====
section
/-! DEFINITION. The shared operations over the state: emitting on a port (00_scope.md R9), giving a unit the result of
its procedure, the reset input (70_reset_and_hazards.md R280) and taking the host's next input (10_state.md R21).
The block takes no exceptions (60_exceptions.md R250, R257, R258), so there is no entry or return operation. -/

namespace Sys2Proof.Machine

/-- `emit LINE_TX` of some bytes, in order (R9, R36). -/
def State.emitLine (bs : List Byte) (s : State) : State := { s with lineTx := s.lineTx ++ bs }

/-- `emit REG_OUT` of one event (R9, R36). -/
def State.emitReg (e : RegEvent) (s : State) : State := { s with regOut := s.regOut ++ [e] }

/-- FRX's registers after a procedure, and the events it emitted on RX_OUT, in order (R36). -/
def State.applyFrx (r : Frx × List RxEvent) (s : State) : State := { s with rx := r.1, rxOut := s.rxOut ++ r.2 }

/-- TLVP's registers after a procedure, and the events it emitted on P_OUT, in order (R36). -/
def State.applyTlvp (r : Tlvp × List PEvent) (s : State) : State := { s with tlv := r.1, pOut := s.pOut ++ r.2 }

/-- The reset input: "it sets every register of 10_state.md to the reset value of 10_state.md rule R37 ... It emits
nothing and leaves the contents of the four output ports as they were" (R280). Parameters do not change (R6), and what
the host has still to give is the host's (R21). -/
def State.applyReset (s : State) : State :=
  { s with crcVal := Config.crcInit, tx := .reset, rx := .reset, tlv := .reset, err := 0 }

/-- The host's next input and the state without it; none when the host's list has been performed (R21, R287). -/
def State.takeInput (s : State) : Option (HostInput × State) :=
  match s.inputs with
  | [] => none
  | x :: rest => some (x, { s with inputs := rest })

/-- The state whose next input is the command word `w`, before everything the host has still to give. -/
def State.giveCommand (w : Command) (s : State) : State := { s with inputs := .command w :: s.inputs }

end Sys2Proof.Machine
end

