-- ==== Sys2Proof/Machine/Tlv.lean ====
section
/-! DEFINITION. The record parser TLVP: P.START, P.BYTE, P.END and their procedures (43_tlv_parser.md R180 to R196).
A procedure answers the registers it leaves and the events it emits, in order. -/

namespace Sys2Proof.Machine

/-- `depth = len(P_STACK)` (R32). -/
def Tlvp.depth (p : Tlvp) : Nat := p.stack.length

/-- A depth as an event or P_STAT carries it: 8 bits (R34, R86); every depth up to MAX_DEPTH fits (log entry 10). -/
def depthByte (d : Nat) : Byte := BitVec.ofNat 8 d

/-- `perr(code)`: report a decoding error and enter ERROR mode; every other register keeps its value (R186). -/
def Tlvp.perr (code : PErr) (p : Tlvp) : Tlvp × List PEvent := ({ p with mode := .error }, [.perr code])

/-- Events emitted before a procedure that ends the step. -/
def emitBefore (evs : List PEvent) (r : Tlvp × List PEvent) : Tlvp × List PEvent := (r.1, evs ++ r.2)

/-- `top.rem <- top.rem - n`, when a container is open (R183, R187). -/
def Tlvp.takeFromTop (n : Word32) (p : Tlvp) : Tlvp :=
  match p.stack with
  | [] => p
  | top :: below => { p with stack := { top with rem := top.rem - n } :: below }

/-- `hdr_consume()`: a header byte inside a container counts against its content (R183). -/
def Tlvp.hdrConsume (p : Tlvp) : Tlvp := p.takeFromTop 1

/-- `split_check()`: the enclosing container's content ends inside a header (R183). -/
def Tlvp.splitCheck (p : Tlvp) : Tlvp × List PEvent :=
  match p.stack with
  | [] => (p, [])
  | top :: _ => if top.rem = 0 then p.perr .container else (p, [])

/-- The events of `finish_scalar()`; L is P_LEN (R192). Containers never reach it. -/
def Tlvp.finishScalar (p : Tlvp) : List PEvent :=
  match p.fam with
  | .none => [.nil]
  | .boolean => [.bool (p.acc != 0)]
  | .integer => if p.len = 0 then [.int 0] else [.int (sextBytes p.len.toNat p.acc)]
  | .real => [.real p.len p.acc]
  | .string | .bytes | .list | .map => []

/-- The loop of `complete()` over the open containers, innermost first (R193). -/
def Tlvp.completeIn (p : Tlvp) : List StackEntry → Tlvp × List PEvent
  | [] => ({ p with stack := [], ntop := p.ntop + 1, mode := .tag }, [.top (p.ntop + 1)])
  | e :: below =>
    let top : StackEntry := { e with odd := !e.odd }
    if top.rem ≠ 0 then ({ p with stack := top :: below, mode := .tag }, [])
    else if top.kind = .map ∧ top.odd then Tlvp.perr .mapOdd { p with stack := top :: below }
    else emitBefore [.close (depthByte below.length)] (p.completeIn below)

/-- `complete()`: the record just read is complete; count it, and close every container it completes (R193). -/
def Tlvp.complete (p : Tlvp) : Tlvp × List PEvent := p.completeIn p.stack

/-- `L > top.rem`, when a container is open (R189). -/
def Tlvp.overruns (len : Word32) (p : Tlvp) : Bool :=
  match p.stack with
  | [] => false
  | top :: _ => decide (top.rem < len)

/-- The rest of `header_done(L)` once its three checks have passed: claim the content, emit HDR, and open a container,
complete an empty record, or begin the content (R187). -/
def Tlvp.acceptHeader (len : Word32) (p : Tlvp) : Tlvp × List PEvent :=
  let d := depthByte p.depth
  let q := p.takeFromTop len
  emitBefore [.hdr p.fam len d]
    (if p.fam.isContainer then
      if len = 0 then emitBefore [.close d] q.complete
      else ({ q with stack := ⟨p.fam.kind, len, false⟩ :: q.stack, mode := .tag }, [])
    else if len = 0 then
      let q0 := { q with acc := 0 }
      emitBefore q0.finishScalar q0.complete
    else ({ q with mode := .content, cnt := len, acc := 0, utf := .start }, []))

/-- `header_done(L)`: the checks WIDTH, CONTAINER, DEPTH in that order, the first that fails reported (R187 to R190). -/
def Tlvp.headerDone (maxDepth : Byte) (len : Word32) (p₀ : Tlvp) : Tlvp × List PEvent :=
  let p := { p₀ with len := len }
  if ¬ legalWidth p.fam len then p.perr .width
  else if p.overruns len then p.perr .container
  else if p.fam.isContainer ∧ len ≠ 0 ∧ p.depth = maxDepth.toNat then p.perr .depth
  else p.acceptHeader len

/-- `tag_byte(b)` (R182): an inline length, or 31 for a 16-bit extension (R81). -/
def Tlvp.tagByte (maxDepth : Byte) (b : Byte) (p₀ : Tlvp) : Tlvp × List PEvent :=
  let p := { p₀.hdrConsume with fam := tagFamily b }
  if tagSize b ≤ 30 then p.headerDone maxDepth ((tagSize b).setWidth 32)
  else Tlvp.splitCheck { p with mode := .len16, k := 0, len := 0 }

/-- `len16_byte(b)` (R184): 0xFFFF is the extended-32 marker (R81). -/
def Tlvp.len16Byte (maxDepth : Byte) (b : Byte) (p₀ : Tlvp) : Tlvp × List PEvent :=
  let p := { p₀.hdrConsume with len := shiftInLen p₀.len b }
  if p.k = 0 then Tlvp.splitCheck { p with k := 1 }
  else if p.len ≠ 0xFFFF then p.headerDone maxDepth p.len
  else Tlvp.splitCheck { p with mode := .len32, k := 0, len := 0 }

/-- `len32_byte(b)` (R185). -/
def Tlvp.len32Byte (maxDepth : Byte) (b : Byte) (p₀ : Tlvp) : Tlvp × List PEvent :=
  let p := { p₀.hdrConsume with len := shiftInLen p₀.len b }
  if p.k < 3 then Tlvp.splitCheck { p with k := p.k + 1 }
  else p.headerDone maxDepth p.len

/-- `utf8_step(u, b)` (R196); `none` is REJECT. -/
def utf8Step (u : Utf8) (b : Byte) : Option Utf8 :=
  if u.need = 0 then
    if b ≤ 0x7F then some ⟨0, 0x80, 0xBF⟩
    else if 0xC2 ≤ b ∧ b ≤ 0xDF then some ⟨1, 0x80, 0xBF⟩
    else if b = 0xE0 then some ⟨2, 0xA0, 0xBF⟩
    else if (0xE1 ≤ b ∧ b ≤ 0xEC) ∨ (0xEE ≤ b ∧ b ≤ 0xEF) then some ⟨2, 0x80, 0xBF⟩
    else if b = 0xED then some ⟨2, 0x80, 0x9F⟩
    else if b = 0xF0 then some ⟨3, 0x90, 0xBF⟩
    else if 0xF1 ≤ b ∧ b ≤ 0xF3 then some ⟨3, 0x80, 0xBF⟩
    else if b = 0xF4 then some ⟨3, 0x80, 0x8F⟩
    else none
  else if u.lo ≤ b ∧ b ≤ u.hi then some ⟨u.need - 1, 0x80, 0xBF⟩
  else none

/-- `utf8_step` over a byte sequence; `none` as soon as a step rejects (R196). -/
def utf8Run : Utf8 → List Byte → Option Utf8
  | u, [] => some u
  | u, b :: bs => (utf8Step u b).bind fun v => utf8Run v bs

/-- "A String's content is valid when every step succeeds and need = 0 after the last byte" (R196). -/
def utf8Valid (bs : List Byte) : Bool :=
  match utf8Run .start bs with
  | some u => u.need == 0
  | none => false

/-- The last lines of `content_byte`: after the last content byte the record's value is emitted and the record is
complete (R191). -/
def Tlvp.contentEnd (p : Tlvp) : Tlvp × List PEvent :=
  if p.cnt = 0 then emitBefore p.finishScalar p.complete else (p, [])

/-- `content_byte(b)` (R191). -/
def Tlvp.contentByte (b : Byte) (p₀ : Tlvp) : Tlvp × List PEvent :=
  let p := { p₀ with cnt := p₀.cnt - 1, acc := shiftInAcc p₀.acc b }
  match p.fam with
  | .string =>
    match utf8Step p.utf b with
    | none => p.perr .utf8
    | some u =>
      if p.cnt = 0 ∧ u.need ≠ 0 then p.perr .utf8
      else emitBefore [.byte b] (Tlvp.contentEnd { p with utf := u })
  | .bytes => emitBefore [.byte b] p.contentEnd
  | .none | .boolean | .integer | .real | .list | .map => p.contentEnd

/-- P.BYTE b (R181): by P_MODE; in ERROR mode the byte is ignored (R195). -/
def Tlvp.byte (maxDepth : Byte) (b : Byte) (p : Tlvp) : Tlvp × List PEvent :=
  match p.mode with
  | .error => (p, [])
  | .tag => p.tagByte maxDepth b
  | .len16 => p.len16Byte maxDepth b
  | .len32 => p.len32Byte maxDepth b
  | .content => p.contentByte b

/-- What P.END reports before it resets the parser (R194). -/
def Tlvp.endEvents (p : Tlvp) : List PEvent :=
  if p.mode = .error then []
  else if p.mode = .tag ∧ p.depth = 0 then [.endBuffer p.ntop]
  else [.perr .trunc]

/-- P.START: `p_reset()`, nothing emitted (R180). -/
def execPStart (s : State) : Host.Outcome State Fault Refusal := .next (s.applyTlvp (.reset, []))

/-- P.BYTE b (R181). -/
def execPByte (b : Byte) (s : State) : Host.Outcome State Fault Refusal :=
  .next (s.applyTlvp (s.tlv.byte s.cfg.maxDepth b))

/-- P.END: report, then `p_reset()` (R194). -/
def execPEnd (s : State) : Host.Outcome State Fault Refusal := .next (s.applyTlvp (.reset, s.tlv.endEvents))

end Sys2Proof.Machine
end

