-- ==== Sys2Proof/Machine/Control.lean ====
section
/-! DEFINITION. The control commands NOP and RDREG, and the illegal command (44_control.md R230 to R232), with the
register map (10_state.md R34). -/

namespace Sys2Proof.Machine

/-- A flag as bit 0 of a register. -/
def flagBit (b : Bool) : Word32 := if b then 1 else 0

/-- `regval(n)` by the register map of R34, unnamed bits 0; none for the undefined numbers 0x0A to 0xFF. -/
def State.regVal (s : State) (n : Byte) : Option Word32 :=
  match n with
  | 0x00#8 => some (s.crcVal.setWidth 32)
  | 0x01#8 => some (flagBit s.tx.inFrame)
  | 0x02#8 => some (s.tx.crc.setWidth 32)
  | 0x03#8 => some (flagBit s.rx.esc ||| flagBit s.rx.discard <<< 1)
  | 0x04#8 => some (BitVec.ofNat 32 s.rx.buf.length)
  | 0x05#8 => some (s.tlv.mode.code.setWidth 32 ||| (depthByte s.tlv.depth).setWidth 32 <<< 8)
  | 0x06#8 => some s.tlv.ntop
  | 0x07#8 => some (s.err.setWidth 32)
  | 0x08#8 => some s.cfg.rxMax
  | 0x09#8 => some (s.cfg.maxDepth.setWidth 32)
  | _ => none

/-- NOP: nothing (R230). -/
def execNop (s : State) : Host.Outcome State Fault Refusal := .next s

/-- RDREG n: one REG event for a defined number, else ERR.BADREG (R231). -/
def execRdreg (n : Byte) (s : State) : Host.Outcome State Fault Refusal :=
  match s.regVal n with
  | some v => .next (s.emitReg ⟨n, v⟩)
  | none => .next (s.setErr .badreg)

/-- The illegal command: `seterr ILLOP` and nothing else (R232). -/
def execIllegal (s : State) : Host.Outcome State Fault Refusal := .next (s.setErr .illop)

end Sys2Proof.Machine
end

