-- ==== Sys2Proof/Machine/Crc.lean ====
section
/-! DEFINITION. The CRC-16 generator: the CRC function (40_crc.md R110 to R112) and CRC.CLR, CRC.UPD (R113, R114). -/

namespace Sys2Proof.Machine

/-- One turn of the loop of `step8`: shift left, and subtract the generator when bit 15 was set (R112). -/
def crcShift (c : Crc) : Crc := if c.msb then (c <<< 1) ^^^ Config.crcPoly else c <<< 1

/-- `repeat n times` (R112). -/
def crcShiftTimes : Nat → Crc → Crc
  | 0, c => c
  | n + 1, c => crcShiftTimes n (crcShift c)

/-- `step8(c, d)`: the byte enters at bits [15:8], then eight shifts, most-significant bit first (R112). -/
def step8 (c : Crc) (d : Byte) : Crc := crcShiftTimes 8 (c ^^^ (d.setWidth 16 <<< 8))

/-- The loop of `CRC16` from a remainder `c` (R111). -/
def crcFold (c : Crc) (bs : List Byte) : Crc := bs.foldl step8 c

/-- `CRC16(p)`, from CRC_INIT, with no final XOR (R111). -/
def crc16 (p : List Byte) : Crc := crcFold Config.crcInit p

/-- `crc16be(p) = [CRC16(p)[15:8], CRC16(p)[7:0]]` (R77). -/
def crc16be (p : List Byte) : List Byte := [hiByte (crc16 p), loByte (crc16 p)]

/-- CRC.CLR: `CRC_VAL <- 0x0000` (R113). -/
def execCrcClr (s : State) : Host.Outcome State Fault Refusal := .next { s with crcVal := 0x0000 }

/-- CRC.UPD d: `CRC_VAL <- step8(CRC_VAL, d)` (R114). -/
def execCrcUpd (d : Byte) (s : State) : Host.Outcome State Fault Refusal :=
  .next { s with crcVal := step8 s.crcVal d }

end Sys2Proof.Machine
end

