-- ==== Sys2Proof/Machine/FrameRx.lean ====
section
/-! DEFINITION. The frame decoder FRX: RX.BYTE, RX.TMO and their procedures (42_framer_rx.md R151 to R158). A procedure
answers the registers it leaves and the events it emits, in order. -/

namespace Sys2Proof.Machine

/-- `rx_append(v)`: dropped in discard mode; a full buffer overflows and enters discard mode; else appended (R153). -/
def Frx.append (rxMax : Word32) (v : Byte) (r : Frx) : Frx × List RxEvent :=
  if r.discard then (r, [])
  else if r.buf.length = rxMax.toNat then
    ({ r with buf := [], discard := true }, [.rxerr .overflow rxMax 0])
  else ({ r with buf := r.buf ++ [v] }, [])

/-- What a closing delimiter reports of the buffered bytes: SHORT below two bytes, else FRAME or INTEGRITY by the
trailing big-endian CRC (R155, R156). -/
def frameVerdict (buf : List Byte) : RxEvent :=
  let n := buf.length
  if n < 2 then .rxerr .short (BitVec.ofNat 32 n) 0
  else
    let p := buf.take (n - 2)
    let rc := be16 (buf.getD (n - 2) 0) (buf.getD (n - 1) 0)
    let cc := crc16 p
    if cc ≠ rc then .rxerr .integrity (cc.setWidth 32) (rc.setWidth 32) else .frame p

/-- `end_frame()`: one event, and the buffer is emptied in every case (R155). -/
def Frx.endFrame (r : Frx) : Frx × List RxEvent := ({ r with buf := [] }, [frameVerdict r.buf])

/-- RX.BYTE x (R151): the byte after an escape is always data (R158); 0x7D is an escape; 0x7E resynchronises, is idle,
or ends a frame (R152, R154, R155); any other byte is appended. -/
def Frx.byte (rxMax : Word32) (x : Byte) (r : Frx) : Frx × List RxEvent :=
  if r.esc then Frx.append rxMax (unescByte x) { r with esc := false }
  else if x = Config.escByte then ({ r with esc := true }, [])
  else if x = Config.flagByte then
    if r.discard then ({ r with discard := false }, [])
    else if r.buf.length = 0 then (r, [])
    else r.endFrame
  else r.append rxMax x

/-- RX.TMO: always reports TIMEOUT with the number of bytes discarded, and returns FRX to its start state (R157). -/
def Frx.timeout (r : Frx) : Frx × List RxEvent :=
  (⟨[], false, false⟩, [.rxerr .timeout (BitVec.ofNat 32 r.buf.length) 0])

/-- RX.BYTE x (R151). -/
def execRxByte (x : Byte) (s : State) : Host.Outcome State Fault Refusal :=
  .next (s.applyFrx (s.rx.byte s.cfg.rxMax x))

/-- RX.TMO (R157). -/
def execRxTmo (s : State) : Host.Outcome State Fault Refusal := .next (s.applyFrx s.rx.timeout)

end Sys2Proof.Machine
end

