-- ==== Sys2Proof/Machine/FrameTx.lean ====
section
/-! DEFINITION. The frame encoder FTX: TX.SOF, TX.DATA, TX.EOF (41_framer_tx.md R131 to R134), and the wire frame they
build (30_encoding.md R77). -/

namespace Sys2Proof.Machine

/-- The wire frame of a payload: `0x7E ++ escaped(payload ++ crc16be(payload)) ++ 0x7E` (R77). -/
def wireFrame (p : List Byte) : List Byte :=
  [Config.flagByte] ++ escaped (p ++ crc16be p) ++ [Config.flagByte]

/-- TX.SOF: start a frame; inside a frame it sets ERR.TXSEQ and changes nothing else (R132). -/
def execTxSof (s : State) : Host.Outcome State Fault Refusal :=
  if s.tx.inFrame then .next (s.setErr .txseq)
  else .next { s.emitLine [Config.flagByte] with tx := ⟨true, 0x0000⟩ }

/-- TX.DATA d: the CRC is taken over the unescaped byte, the line gets `esc(d)`; outside a frame it sets ERR.TXSEQ and
changes nothing else (R133). -/
def execTxData (d : Byte) (s : State) : Host.Outcome State Fault Refusal :=
  if s.tx.inFrame then .next { s.emitLine (escByte d) with tx := ⟨true, step8 s.tx.crc d⟩ }
  else .next (s.setErr .txseq)

/-- TX.EOF: the CRC, high byte first and escaped, then the delimiter; TX_CRC keeps its value. Outside a frame it sets
ERR.TXSEQ and changes nothing else (R134). -/
def execTxEof (s : State) : Host.Outcome State Fault Refusal :=
  if s.tx.inFrame then
    .next { s.emitLine (escByte (hiByte s.tx.crc) ++ escByte (loByte s.tx.crc) ++ [Config.flagByte]) with
      tx := ⟨false, s.tx.crc⟩ }
  else .next (s.setErr .txseq)

end Sys2Proof.Machine
end

