-- ==== Sys2Proof/Machine/Dispatch.lean ====
section
/-! DEFINITION. One arm per command of 30_encoding.md R71, each one call of its meaning. -/

namespace Sys2Proof.Machine

def exec (i : Instr) (s : State) : Host.Outcome State Fault Refusal :=
  match i with
  | .nop => Sys2Proof.Machine.execNop s
  | .rdreg n => Sys2Proof.Machine.execRdreg n s
  | .crcClr => Sys2Proof.Machine.execCrcClr s
  | .crcUpd d => Sys2Proof.Machine.execCrcUpd d s
  | .txSof => Sys2Proof.Machine.execTxSof s
  | .txData d => Sys2Proof.Machine.execTxData d s
  | .txEof => Sys2Proof.Machine.execTxEof s
  | .rxByte x => Sys2Proof.Machine.execRxByte x s
  | .rxTmo => Sys2Proof.Machine.execRxTmo s
  | .pStart => Sys2Proof.Machine.execPStart s
  | .pByte b => Sys2Proof.Machine.execPByte b s
  | .pEnd => Sys2Proof.Machine.execPEnd s

end Sys2Proof.Machine
end

