-- ==== Sys2Proof/Machine/Step.lean ====
section
/-! DEFINITION. One step: the host's next input, performed whole (20_memory.md R54, R60). -/

namespace Sys2Proof.Machine

/-- One atomic step (R54). A command word is decoded and performed; a word outside the opcode map is the illegal command
(R232); a reset lands between two commands (R280). With nothing from the host the block holds its state: "no amount of
idle time changes it" (60_exceptions.md R265; log entry 2). -/
def step (s : State) : Host.Outcome State Fault Refusal :=
  match s.takeInput with
  | none => .next s
  | some (.reset, s') => .next s'.applyReset
  | some (.command w, s') =>
    match decode w with
    | .ok i => exec i s'
    | .error _ => execIllegal s'

/-- The host gives the command word `w` (of `nbits` bits) next; nothing else changes (log entry 15). -/
def State.withFetchWord (s : State) (nbits w : Nat) : State :=
  s.giveCommand (BitVec.ofNat 16 (w % 2 ^ nbits))

end Sys2Proof.Machine
end

