-- ==== Sys2Proof/Machine/Records.lean ====
section
/-! DEFINITION. The record format of 30_encoding.md R79 to R82 as trees, apart from the parser: the bytes of a record, which
trees are records, and the events `ev(r, d)` of 43_tlv_parser.md R198. Claims about the parser are stated against these. -/

namespace Sys2Proof.Machine

/-- The three size tiers of R81. -/
inductive SizeTier where
  | inline | ext16 | ext32
deriving DecidableEq, Repr

/-- A record: a tag's family, the tier its length is written in, and its content. The content of a container is its
sub-records in order (R79, R82). -/
inductive Rec where
  | leaf (fam : Family) (tier : SizeTier) (content : List Byte)
  | node (kind : ContainerKind) (tier : SizeTier) (subs : List Rec)
deriving Repr

/-- The lengths a tier can carry (R81). -/
def SizeTier.fits (t : SizeTier) (len : Nat) : Bool :=
  match t with
  | .inline => decide (len ≤ 30)
  | .ext16 => decide (len ≤ 0xFFFE)
  | .ext32 => decide (len ≤ 0xFFFFFFFF)

/-- The `k`-byte big-endian form of a number (R8). -/
def beBytes : Nat → Nat → List Byte
  | 0, _ => []
  | k + 1, n => BitVec.ofNat 8 (n / 256 ^ k) :: beBytes k n

/-- The number a big-endian byte sequence denotes (R8). -/
def beNat (bs : List Byte) : Nat := bs.foldl (fun n b => n * 256 + b.toNat) 0

/-- The two's-complement value of a big-endian byte sequence; the empty one is 0 (R82). -/
def beInt (bs : List Byte) : Int :=
  if 2 * beNat bs < 256 ^ bs.length then (beNat bs : Int) else (beNat bs : Int) - (256 ^ bs.length : Nat)

/-- The tag byte of a family and a size class (R79). -/
def tagOf (fam : Family) (s : Nat) : Byte := fam.code ++ BitVec.ofNat 5 s

/-- The header: tag byte and size extension (R79, R81). -/
def headerBytes (fam : Family) (tier : SizeTier) (len : Nat) : List Byte :=
  match tier with
  | .inline => [tagOf fam len]
  | .ext16 => tagOf fam 31 :: beBytes 2 len
  | .ext32 => tagOf fam 31 :: 0xFF :: 0xFF :: beBytes 4 len

/-- The family of a container kind (R32, R80). -/
def ContainerKind.family : ContainerKind → Family
  | .list => .list
  | .map => .map

mutual
/-- The bytes of a record (R79). -/
def Rec.bytes : Rec → List Byte
  | .leaf fam tier content => headerBytes fam tier content.length ++ content
  | .node kind tier subs => headerBytes kind.family tier (Rec.bytesAll subs).length ++ Rec.bytesAll subs
/-- The bytes of records one after another (R201). -/
def Rec.bytesAll : List Rec → List Byte
  | [] => []
  | r :: rs => r.bytes ++ Rec.bytesAll rs
end

mutual
/-- Whether a tree is a record: its length fits its tier (R81), a leaf's family is no container, its width is legal
(R188) and a String's content is UTF-8 (R196), a Map holds keys and values in turn (R82), and sub-records are records. -/
def Rec.valid : Rec → Bool
  | .leaf fam tier content =>
    !fam.isContainer && tier.fits content.length && legalWidth fam (BitVec.ofNat 32 content.length) &&
      (fam != .string || utf8Valid content)
  | .node kind tier subs =>
    tier.fits (Rec.bytesAll subs).length && (kind != .map || subs.length % 2 == 0) && Rec.validAll subs
/-- Every one is a record. -/
def Rec.validAll : List Rec → Bool
  | [] => true
  | r :: rs => r.valid && Rec.validAll rs
end

mutual
/-- How many non-empty containers are open at once inside a record, itself included (R32, R190). -/
def Rec.nesting : Rec → Nat
  | .leaf _ _ _ => 0
  | .node _ _ [] => 0
  | .node _ _ (r :: rs) => 1 + max r.nesting (Rec.nestingAll rs)
/-- The greatest nesting of some records. -/
def Rec.nestingAll : List Rec → Nat
  | [] => 0
  | r :: rs => max r.nesting (Rec.nestingAll rs)
end

/-- The events between HDR and the end of a leaf, from its content (R198, with the values of R82). -/
def leafEvents (fam : Family) (content : List Byte) : List PEvent :=
  match fam with
  | .none => [.nil]
  | .boolean => [.bool (decide (beNat content ≠ 0))]
  | .integer => [.int (BitVec.ofInt 64 (beInt content))]
  | .real => [.real (BitVec.ofNat 32 content.length) (BitVec.ofNat 64 (beNat content))]
  | .string | .bytes => content.map .byte
  | .list | .map => []

mutual
/-- `ev(r, d)` (R198). -/
def Rec.events : Rec → Nat → List PEvent
  | .leaf fam _ content, d =>
    .hdr fam (BitVec.ofNat 32 content.length) (depthByte d) :: leafEvents fam content
  | .node kind _ subs, d =>
    .hdr kind.family (BitVec.ofNat 32 (Rec.bytesAll subs).length) (depthByte d) ::
      (Rec.eventsAll subs (d + 1) ++ [.close (depthByte d)])
/-- The events of sub-records in order. -/
def Rec.eventsAll : List Rec → Nat → List PEvent
  | [], _ => []
  | r :: rs, d => r.events d ++ Rec.eventsAll rs d
end

/-- `ev(r1, 0) ++ [TOP(k+1)] ++ ...`: the events of top-level records when `k` were complete before (R198). -/
def topLevelEvents : List Rec → Nat → List PEvent
  | [], _ => []
  | r :: rs, k => r.events 0 ++ .top (BitVec.ofNat 32 (k + 1)) :: topLevelEvents rs (k + 1)

/-- The events of a whole buffer: the records' and END(k) (R198). -/
def bufferEvents (rs : List Rec) : List PEvent :=
  topLevelEvents rs 0 ++ [.endBuffer (BitVec.ofNat 32 rs.length)]

/-- The UTF-8 bytes of a text, by Lean's own encoder of Unicode scalar values. -/
def utf8Bytes (cs : List Char) : List Byte := (cs.flatMap String.utf8EncodeChar).map UInt8.toBitVec

end Sys2Proof.Machine
end

