-- ==== Sys2Proof/Safety.lean ====
section
/-! DEFINITION. The terms claims are stated in: runs of several steps, the host about to give some commands, the invariants
of 10_state.md R35, and the premises of 70_reset_and_hazards.md R287. -/

namespace Sys2Proof.Machine

/-- `k` steps, stopping at a fault or a refusal. -/
def runSteps : Nat → State → Host.Outcome State Fault Refusal
  | 0, s => .next s
  | k + 1, s =>
    match step s with
    | .next t => runSteps k t
    | .fault r => .fault r
    | .refused r => .refused r

/-- The host is about to give the commands `cs`, then everything it had still to give (R21). -/
def State.giving (cs : List Instr) (s : State) : State :=
  { s with inputs := cs.map (fun i => .command (encode i)) ++ s.inputs }

/-- The block performs the commands `cs`, one a step (R54, R60). -/
def State.performs (cs : List Instr) (s : State) : Host.Outcome State Fault Refusal :=
  runSteps cs.length (s.giving cs)

/-- The content each open container has still to come, innermost first, when the record being read has claimed `claimed`
bytes that have not come yet: its rem, "not yet consumed or claimed by a sub-record" (R32), and what the sub-record in
progress inside it still waits for. -/
def stackToCome (claimed : Nat) : List StackEntry → List Nat
  | [] => []
  | e :: below => (e.rem.toNat + claimed) :: stackToCome (e.rem.toNat + claimed) below

/-- The content each open container has still to come, innermost first: in CONTENT the record being read waits for P_CNT
bytes (R31), in the other modes for none of its content. -/
def Tlvp.contentToCome (p : Tlvp) : List Nat := stackToCome (if p.mode = .content then p.cnt.toNat else 0) p.stack

/-- The invariants of R35, over the state. Item 7 (P_MODE is never 5, 6 or 7) holds by the type of P_MODE. Item 5 reads
"every entry of P_STACK has rem >= 1" outside ERROR mode, but R187 claims a sub-record's content from top.rem at its
header, so rem alone may be 0 while that sub-record is read; no model of R187 keeps those words (log entry 17). It is stated here as the rules keep it: of
EVERY entry, that it has content still to come (`containersUnfinished`), and of the TOP entry, word for word, wherever a
header byte may come (`headerRoom`), which is what R183 takes from it. -/
structure State.Inv (s : State) : Prop where
  /-- R6: the parameters are in range -/
  parameters : s.cfg.wf = true
  /-- item 1 -/
  discardEmpty : s.rx.discard = true → s.rx.buf = []
  /-- item 2 -/
  bufferFits : s.rx.buf.length ≤ s.cfg.rxMax.toNat
  /-- item 3 -/
  contentLeft : s.tlv.mode = .content → 1 ≤ s.tlv.cnt.toNat
  /-- item 4, its first half; the second, P_K <= 3 in LEN32, holds by the width of P_K -/
  len16Bytes : s.tlv.mode = .len16 → s.tlv.k.toNat ≤ 1
  /-- item 5, of the top container where a header byte may come -/
  headerRoom : s.tlv.mode = .tag ∨ s.tlv.mode = .len16 ∨ s.tlv.mode = .len32 →
    ∀ top below, s.tlv.stack = top :: below → 1 ≤ top.rem.toNat
  /-- item 5, of every container: one with nothing still to come has been closed in that same step (R193) -/
  containersUnfinished : s.tlv.mode ≠ .error → ∀ n ∈ s.tlv.contentToCome, 1 ≤ n
  /-- item 6 -/
  depthFits : s.tlv.stack.length ≤ s.cfg.maxDepth.toNat

/-- Item 5 of R35 word for word: "When P_MODE is not ERROR, every entry of P_STACK has rem >= 1". -/
def State.EveryContainerHasRoom (s : State) : Prop :=
  s.tlv.mode ≠ .error → ∀ e ∈ s.tlv.stack, 1 ≤ e.rem.toNat

/-! ### The parser's outcomes, read off the rules apart from the machine's procedures -/

/-- The content lengths R188 allows, family by family. -/
def WidthAllowed (f : Family) (n : Nat) : Prop :=
  match f with
  | .none => n = 0
  | .boolean => n = 0 ∨ n = 1
  | .integer => n = 0 ∨ n = 1 ∨ n = 2 ∨ n = 4 ∨ n = 8
  | .real => n = 0 ∨ n = 4 ∨ n = 8
  | .string | .bytes | .list | .map => True

/-- P_STACK with `n` bytes counted against its innermost container, if one is open (R183, R187). -/
def taken (n : Nat) : List StackEntry → List StackEntry
  | [] => []
  | top :: below => { top with rem := BitVec.ofNat 32 (top.rem.toNat - n) } :: below

/-- The header byte and `n` content bytes fit what the innermost container has left, if one is open (R189). -/
def FitsContainer (n : Nat) (stack : List StackEntry) : Prop :=
  ∀ top below, stack = top :: below → 1 + n ≤ top.rem.toNat

/-- R190: a non-empty container that would need an entry beyond the last. -/
def NestsTooDeep (maxDepth : Byte) (f : Family) (n : Nat) (stack : List StackEntry) : Prop :=
  (f = .list ∨ f = .map) ∧ n ≠ 0 ∧ stack.length = maxDepth.toNat

/-- These containers are used up, each with its Map keys and values paired, so that a record completed inside the first
completes them all (R193; `odd` is before that record is counted). -/
def AllClose (closed : List StackEntry) : Prop := ∀ e ∈ closed, e.rem = 0 ∧ (e.kind = .map → e.odd = true)

/-- A Map used up by a key without its value (R193; `odd` is before that key is counted). -/
def LacksValue (e : StackEntry) : Prop := e.rem = 0 ∧ e.kind = .map ∧ e.odd = false

/-- R193 as a relation: a record is complete with the registers `p`; the containers it completes close, innermost first,
and then it is a top-level record (TOP), or goes into a container with content left, or is a Map's key without its
value (MAP_ODD). `q` are the registers and `evs` the events. -/
def Completion (p q : Tlvp) (evs : List PEvent) : Prop :=
  ∃ closed rest : List StackEntry, p.stack = closed ++ rest ∧ AllClose closed ∧
    let closes : List PEvent := (List.range closed.length).map fun i => .close (BitVec.ofNat 8 (p.stack.length - 1 - i))
    match rest with
    | [] => q = { p with mode := .tag, stack := [], ntop := p.ntop + 1 } ∧ evs = closes ++ [.top (p.ntop + 1)]
    | e :: below =>
      (e.rem ≠ 0 ∧ q = { p with mode := .tag, stack := { e with odd := !e.odd } :: below } ∧ evs = closes) ∨
      (LacksValue e ∧ q = { p with mode := .error, stack := { e with odd := true } :: below } ∧
        evs = closes ++ [.perr .mapOdd])

/-- The events of an empty record after its HDR and before its completion, at depth `d` (R187, R192). -/
def emptyRecordEvents (f : Family) (d : Byte) : List PEvent :=
  match f with
  | .none => [.nil]
  | .boolean => [.bool false]
  | .integer => [.int 0]
  | .real => [.real 0 0]
  | .string | .bytes => []
  | .list | .map => [.close d]

/-- R187 to R190 as a relation: a byte completes the header of a record of family `f` and content length `n`, from `s`
before the byte to `t` after it. WIDTH, CONTAINER and DEPTH are reported in that order, each leaving every other register
as the header bytes left it (R186); an accepted header claims its content from the innermost container. -/
def HeaderOutcome (s : State) (f : Family) (n : Nat) (t : State) : Prop :=
  let len : Word32 := BitVec.ofNat 32 n
  let d : Byte := BitVec.ofNat 8 s.tlv.stack.length
  let read : Tlvp := { s.tlv with fam := f, len := len, stack := taken 1 s.tlv.stack }
  let claimed : Tlvp := { read with stack := taken (1 + n) s.tlv.stack }
  let reports := fun c : PErr => t = { s with tlv := { read with mode := .error }, pOut := s.pOut ++ [.perr c] }
  (¬ WidthAllowed f n → reports .width) ∧
  (WidthAllowed f n → ¬ FitsContainer n s.tlv.stack → reports .container) ∧
  (WidthAllowed f n → FitsContainer n s.tlv.stack → NestsTooDeep s.cfg.maxDepth f n s.tlv.stack → reports .depth) ∧
  (WidthAllowed f n → FitsContainer n s.tlv.stack → ¬ NestsTooDeep s.cfg.maxDepth f n s.tlv.stack →
    (n = 0 → ∃ (q : Tlvp) (evs : List PEvent),
      Completion { claimed with acc := if f = .list ∨ f = .map then s.tlv.acc else 0 } q evs ∧
      t = { s with tlv := q, pOut := s.pOut ++ (.hdr f 0 d :: (emptyRecordEvents f d ++ evs)) }) ∧
    (n ≠ 0 → f = .list ∨ f = .map → t = { s with
      tlv := { claimed with mode := .tag, stack := ⟨if f = .map then .map else .list, len, false⟩ :: claimed.stack },
      pOut := s.pOut ++ [.hdr f len d] }) ∧
    (n ≠ 0 → ¬ (f = .list ∨ f = .map) → t = { s with
      tlv := { claimed with mode := .content, cnt := len, acc := 0, utf := ⟨0, 0x80, 0xBF⟩ },
      pOut := s.pOut ++ [.hdr f len d] }))

/-- R183 as a relation: a byte leaves a header incomplete with the registers `p`, but for the byte's count against the
innermost container; CONTAINER is reported at the byte that uses the container up. -/
def SplitOutcome (s : State) (p : Tlvp) (t : State) : Prop :=
  let read : Tlvp := { p with stack := taken 1 s.tlv.stack }
  ((∃ top below, s.tlv.stack = top :: below ∧ top.rem = 1) →
    t = { s with tlv := { read with mode := .error }, pOut := s.pOut ++ [.perr .container] }) ∧
  ((∀ top below, s.tlv.stack = top :: below → top.rem ≠ 1) → t = { s with tlv := read })

/-- The family and content length of the header that a byte completes, if it completes one (R182, R184, R185). -/
def headerCompletedBy (p : Tlvp) (b : Byte) : Option (Family × Nat) :=
  let n := (p.len.toNat * 256 + b.toNat) % 2 ^ 32
  match p.mode with
  | .tag => if b.toNat % 32 = 31 then none else some (tagFamily b, b.toNat % 32)
  | .len16 => if p.k = 0 ∨ n = 0xFFFF then none else some (p.fam, n)
  | .len32 => if p.k = 3 then some (p.fam, n) else none
  | .content | .error => none

/-- R191: the content byte makes the text of a String invalid, or ends it inside a character. -/
def SpoilsText (p : Tlvp) (b : Byte) : Prop :=
  p.mode = .content ∧ p.fam = .string ∧
    (utf8Step p.utf b = none ∨ p.cnt = 1 ∧ ∃ u, utf8Step p.utf b = some u ∧ u.need ≠ 0)

/-- The byte completes a record, and `stack` is P_STACK at that moment: it is the last header byte of an empty record, or
the last content byte of a record whose text it does not spoil (R187, R191). -/
def CompletesRecord (p : Tlvp) (b : Byte) (stack : List StackEntry) : Prop :=
  ((∃ f, headerCompletedBy p b = some (f, 0)) ∧ stack = taken 1 p.stack) ∨
  (p.mode = .content ∧ p.cnt = 1 ∧ ¬ SpoilsText p b ∧ stack = p.stack)

/-- The 'raised by' column of R252 for P.BYTE: when the byte `b` raises which error, in order of R187's checks. TRUNC is
P.END's. -/
def Raises (maxDepth : Byte) (p : Tlvp) (b : Byte) : PErr → Prop
  | .width => ∃ f n, headerCompletedBy p b = some (f, n) ∧ ¬ WidthAllowed f n
  | .container =>
    (∃ f n, headerCompletedBy p b = some (f, n) ∧ WidthAllowed f n ∧ ¬ FitsContainer n p.stack) ∨
    (headerCompletedBy p b = none ∧ (p.mode = .tag ∨ p.mode = .len16 ∨ p.mode = .len32) ∧
      ∃ top below, p.stack = top :: below ∧ top.rem = 1)
  | .depth => ∃ f n, headerCompletedBy p b = some (f, n) ∧ WidthAllowed f n ∧ FitsContainer n p.stack ∧
      NestsTooDeep maxDepth f n p.stack
  | .utf8 => SpoilsText p b
  | .mapOdd => ∃ closed e below, CompletesRecord p b (closed ++ e :: below) ∧ AllClose closed ∧ LacksValue e
  | .trunc => False

/-- The UTF-8 bytes of a code point, as numbers, by its range (the encoding form of the Unicode Standard). -/
def utf8OfCodePoint (n : Nat) : List Nat :=
  if n < 0x80 then [n]
  else if n < 0x800 then [0xC0 + n / 64, 0x80 + n % 64]
  else if n < 0x10000 then [0xE0 + n / 4096, 0x80 + n / 64 % 64, 0x80 + n % 64]
  else [0xF0 + n / 262144, 0x80 + n / 4096 % 64, 0x80 + n / 64 % 64, 0x80 + n % 64]

/-- The premises R287 gives for a claim about finished work: "TX_INFRAME = 0, RX_BUF = [] and P_MODE = TAG with depth 0 at
the end". -/
def State.WorkFinished (s : State) : Prop :=
  s.tx.inFrame = false ∧ s.rx.buf = [] ∧ s.tlv.mode = .tag ∧ s.tlv.depth = 0

/-- A safe run, in this block, is one the host drove without command errors: "a claim takes 'ERR = 0' as its premise"
(92_eei_decisions.md D3). -/
def State.NoCommandError (s : State) : Prop := s.err = 0

/-- Whether a host input concerns a unit: a command of that unit, or reset, which concerns every unit (R71, R280, R284). -/
def HostInput.concerns (u : BlockUnit) : HostInput → Bool
  | .reset => true
  | .command w =>
    match decode w with
    | .ok i => i.unit == u
    | .error _ => false

/-- An RX_OUT event is an error report (R250). -/
def RxEvent.isError : RxEvent → Bool
  | .frame _ => false
  | .rxerr _ _ _ => true

/-- A P_OUT event is an error report (R250). -/
def PEvent.isError : PEvent → Bool
  | .perr _ => true
  | .hdr _ _ _ | .byte _ | .nil | .bool _ | .int _ | .real _ _ | .close _ | .top _ | .endBuffer _ => false

/-- A P_OUT event is END (R86). -/
def PEvent.isEnd : PEvent → Bool
  | .endBuffer _ => true
  | .hdr _ _ _ | .byte _ | .nil | .bool _ | .int _ | .real _ _ | .close _ | .top _ | .perr _ => false

end Sys2Proof.Machine
end

