-- ==== Sys2Proof/Certificates/Slice0/Obligations.lean ====
section
/-! DEFINITION. The statements for the provers, from the numbered rules of spec/. Each docstring names the rule it
formalises. -/

open Sys2Proof Sys2Proof.Machine

/-! ### Encoding and the assembler -/

/-- R72, with the opcodes of R71: a data-carrying command takes D as its byte, RDREG takes it as its register number, and
for every other command "every value of D selects the same command". -/
def Obligations.EveryDataFieldSelectsTheTableCommand : Prop :=
  ∀ d : Byte,
    decode (commandWord 0x00 d) = .ok .nop ∧ decode (commandWord 0x01 d) = .ok (.rdreg d) ∧
    decode (commandWord 0x10 d) = .ok .crcClr ∧ decode (commandWord 0x11 d) = .ok (.crcUpd d) ∧
    decode (commandWord 0x20 d) = .ok .txSof ∧ decode (commandWord 0x21 d) = .ok (.txData d) ∧
    decode (commandWord 0x22 d) = .ok .txEof ∧ decode (commandWord 0x30 d) = .ok (.rxByte d) ∧
    decode (commandWord 0x31 d) = .ok .rxTmo ∧ decode (commandWord 0x40 d) = .ok .pStart ∧
    decode (commandWord 0x41 d) = .ok (.pByte d) ∧ decode (commandWord 0x42 d) = .ok .pEnd

/-- Words written out from the encodings of R70 and R71, as the programs P1 to P6 of 95_test_vectors.md spell them. -/
def Obligations.ProgramWordsDecode : Prop :=
  decode 0b0000000011111111#16 = .ok .nop ∧ decode 0b0000000100001000#16 = .ok (.rdreg 0x08) ∧
  decode 0b0001000100110001#16 = .ok (.crcUpd 0x31) ∧ decode 0b0010001000000000#16 = .ok .txEof ∧
  decode 0b0011000001111110#16 = .ok (.rxByte 0x7E) ∧ decode 0b0100000111000011#16 = .ok (.pByte 0xC3) ∧
  decode 0b1111111100000000#16 = .error (.illegalOpcode 0xFF)

/-- R70 to R72: decoding an encoded command gives it back, and encoding a decoded word gives the word back but for the D
field of a command that ignores it, which is written as 0. -/
def Obligations.DecodeAndEncodeAgree : Prop :=
  (∀ i : Instr, decode (encode i) = .ok i) ∧
  (∀ (w : Command) (i : Instr), decode w = .ok i →
    encode i = if i.operand?.isSome then w else commandWord (opField w) 0x00)

/-- R73 and R232: the illegal words are exactly those whose OP lies in the ranges the rules list, and such a word sets
ERR.ILLOP (bit 0) and changes nothing else. -/
def Obligations.IllegalWordsOnlySetIllop : Prop :=
  (∀ w : Command, decode w = .error (.illegalOpcode (opField w)) ↔
    (0x02 ≤ (opField w).toNat ∧ (opField w).toNat ≤ 0x0F) ∨ (0x12 ≤ (opField w).toNat ∧ (opField w).toNat ≤ 0x1F) ∨
    (0x23 ≤ (opField w).toNat ∧ (opField w).toNat ≤ 0x2F) ∨ (0x32 ≤ (opField w).toNat ∧ (opField w).toNat ≤ 0x3F) ∨
    (0x43 ≤ (opField w).toNat ∧ (opField w).toNat ≤ 0xFF)) ∧
  (∀ (s : State) (w : Command) (rest : List HostInput),
    decode w = .error (.illegalOpcode (opField w)) → s.inputs = .command w :: rest →
    step s = .next { s with inputs := rest, err := s.err ||| 0b001 })

/-- R75 and R76 over abstract lines (log entry 13). A line with an operand assembles exactly when its mnemonic is one of
R75's five and the operand is in R75's range for its form, to the word of that command with the operand's value; a line
without one assembles to its command with D = 0. A pseudo-instruction assembles exactly when the operands of its byte
list are in range, to the words of R76's table over its bytes, a string standing for its UTF-8 bytes. -/
def Obligations.AssembledWordsDecode : Prop :=
  let inRange : AsmOperand → Prop := fun o => match o with
    | .hex n => n ≤ 0xFF
    | .dec n => n ≤ 255
    | .chr c => c.toNat ≤ 127
  let value : AsmOperand → Nat := fun o => match o with
    | .hex n => n
    | .dec n => n
    | .chr c => c.toNat
  let bytes : List ByteItem → List Nat := fun items => items.flatMap fun item => match item with
    | .operand o => [value o]
    | .str chars => chars.flatMap fun c => utf8OfCodePoint c.toNat
  (∀ (m : Mnemonic) (o : AsmOperand),
    let mayTake := m = .crcUpd ∨ m = .txData ∨ m = .rxByte ∨ m = .pByte ∨ m = .rdreg
    (¬ (mayTake ∧ inRange o) → assemble ⟨m, some o⟩ = none) ∧
    (mayTake ∧ inRange o → ∃ (w : Command) (i : Instr), assemble ⟨m, some o⟩ = some w ∧ decode w = .ok i ∧
      i.mnemonic = m ∧ ∃ b : Byte, i.operand? = some b ∧ b.toNat = value o ∧ w.toNat % 256 = value o)) ∧
  (∀ m : Mnemonic, ∃ (w : Command) (i : Instr), assemble ⟨m, none⟩ = some w ∧ decode w = .ok i ∧ i.mnemonic = m ∧
    w.toNat % 256 = 0) ∧
  (∀ l : List ByteItem,
    ((∃ o, .operand o ∈ l ∧ ¬ inRange o) →
      (Pseudo.crcOf l).assemble = none ∧ (Pseudo.txFrame l).assemble = none ∧ (Pseudo.rxFeed l).assemble = none ∧
      (Pseudo.pParse l).assemble = none) ∧
    ((∀ o, .operand o ∈ l → inRange o) → ∃ crc tx rx p : List Command,
      (Pseudo.crcOf l).assemble = some crc ∧ crc.map BitVec.toNat = 0x1000 :: (bytes l).map (0x1100 + ·) ∧
      (Pseudo.txFrame l).assemble = some tx ∧
      tx.map BitVec.toNat = 0x2000 :: ((bytes l).map (0x2100 + ·) ++ [0x2200]) ∧
      (Pseudo.rxFeed l).assemble = some rx ∧ rx.map BitVec.toNat = (bytes l).map (0x3000 + ·) ∧
      (Pseudo.pParse l).assemble = some p ∧ p.map BitVec.toNat = 0x4000 :: ((bytes l).map (0x4100 + ·) ++ [0x4200])))

/-! ### The step -/

/-- R54, R60: when the host's next command word decodes to `i`, the step is `exec i` at the state without that word. -/
def Obligations.StepRunsTheDecodedCommand : Prop :=
  ∀ (s : State) (w : Command) (rest : List HostInput) (i : Instr),
    s.inputs = .command w :: rest → decode w = .ok i → step s = exec i { s with inputs := rest }

/-- R37: what every register holds after reset, and at power-on (R280: "Power-on is a reset with all ports empty"); the
ports are unchanged by reset and empty at power-on. That `inputs`, the model's own field, is empty at power-on is the
model's DESIGN CHOICE (log entry 5), no line of R37. -/
def Obligations.PowerOnHoldsTheResetValues : Prop :=
  ∀ c : Config,
    State.powerOn c =
      { cfg := c, crcVal := 0x0000, tx := ⟨false, 0x0000⟩, rx := ⟨[], false, false⟩,
        tlv := { mode := .tag, k := 0, fam := .none, len := 0, cnt := 0, acc := 0, utf := ⟨0, 0x80, 0xBF⟩,
                 stack := [], ntop := 0 },
        err := 0b000, lineTx := [], rxOut := [], pOut := [], regOut := [], inputs := [] } ∧
    PMode.tag.code = 0 ∧ Family.none.code = 0 ∧
    ∀ s : State, s.cfg = c →
      s.applyReset = { State.powerOn c with
        lineTx := s.lineTx, rxOut := s.rxOut, pOut := s.pOut, regOut := s.regOut, inputs := s.inputs }

/-- R280: the reset input sets every register to its value of R37, emits nothing, leaves the ports and the parameters,
and applied twice equals applied once. -/
def Obligations.ResetInputRestoresEveryRegister : Prop :=
  (∀ (s : State) (rest : List HostInput), s.inputs = .reset :: rest →
    step s = .next { State.powerOn s.cfg with
      lineTx := s.lineTx, rxOut := s.rxOut, pOut := s.pOut, regOut := s.regOut, inputs := rest }) ∧
  (∀ (s : State) (rest : List HostInput), s.inputs = .reset :: .reset :: rest →
    runSteps 2 s = step { s with inputs := .reset :: rest })

/-- The model's reading of R265 and R287 (log entry 2): with nothing from the host a step changes nothing. -/
def Obligations.IdleStepChangesNothing : Prop :=
  ∀ s : State, s.inputs = [] → step s = .next s

/-- R250, R257, R260: no error stops the block, whatever the state and the host's next input. -/
def Obligations.EveryStepGoesOn : Prop :=
  ∀ (k : Nat) (s : State), ∃ t : State, runSteps k s = .next t ∧ t.inputs = s.inputs.drop k

/-! ### Invariants and whole-machine rules -/

/-- R35 and R37: the invariants hold at power-on, for every legal choice of the parameters (R6). -/
def Obligations.InvariantsHoldAtPowerOn : Prop :=
  ∀ c : Config, c.wf = true → (State.powerOn c).Inv

/-- R35: every step keeps the invariants (item 5 in the form the rules keep: every open container has content still to
come, and the top one rem >= 1 where a header byte may come; log entry 17). -/
def Obligations.EveryStepKeepsTheInvariants : Prop :=
  ∀ s t : State, s.Inv → step s = .next t → t.Inv

/-- R35 item 5 as it is WRITTEN, which R187 breaks: expected to fail (log entry 17). -/
def Obligations.EveryContainerKeepsRoomAsWritten : Prop :=
  ∀ s t : State, s.Inv → s.EveryContainerHasRoom → step s = .next t → t.EveryContainerHasRoom

/-- R33: exactly which commands set which bit of ERR (bit 0 ILLOP, bit 1 TXSEQ, bit 2 BADREG); a bit once set stays set
until reset, and no command clears one. -/
def Obligations.ErrorBitsAreSetExactlyByTheirCommands : Prop :=
  (∀ (s t : State) (w : Command) (rest : List HostInput), s.inputs = .command w :: rest → step s = .next t →
    t.err = s.err |||
      (match decode w with
       | .error _ => 0b001
       | .ok .txSof => if s.tx.inFrame then 0b010 else 0
       | .ok (.txData _) => if s.tx.inFrame then 0 else 0b010
       | .ok .txEof => if s.tx.inFrame then 0 else 0b010
       | .ok (.rdreg n) => if n.toNat ≤ 0x09 then 0 else 0b100
       | .ok _ => 0)) ∧
  (∀ s t : State, s.inputs = [] → step s = .next t → t.err = s.err) ∧
  (∀ (s t : State) (rest : List HostInput), s.inputs = .reset :: rest → step s = .next t → t.err = 0b000)

/-- R6, R38: no step changes the parameters. -/
def Obligations.ParametersNeverChange : Prop :=
  ∀ (k : Nat) (s t : State), runSteps k s = .next t → t.cfg = s.cfg

/-- R36, R60: a port only grows, at its end, and one step emits on at most one port. -/
def Obligations.PortsOnlyGrowOneAtATime : Prop :=
  ∀ s t : State, step s = .next t →
    ∃ (l : List Byte) (r : List RxEvent) (p : List PEvent) (g : List RegEvent),
      t.lineTx = s.lineTx ++ l ∧ t.rxOut = s.rxOut ++ r ∧ t.pOut = s.pOut ++ p ∧ t.regOut = s.regOut ++ g ∧
      ((r = [] ∧ p = [] ∧ g = []) ∨ (l = [] ∧ p = [] ∧ g = []) ∨ (l = [] ∧ r = [] ∧ g = []) ∨ (l = [] ∧ r = [] ∧ p = []))

/-- The frame of every command, by unit (R22 to R33, R113 to R134, R151, R157, R180, R181, R194, R230, R231): what a command
may write, everything else being unchanged. A control command writes only ERR and REG_OUT. -/
def Obligations.CommandsWriteOnlyTheirUnit : Prop :=
  ∀ (i : Instr) (s t : State), exec i s = .next t →
    match i.unit with
    | .control => t = { s with err := t.err, regOut := t.regOut }
    | .crc => t = { s with crcVal := t.crcVal }
    | .ftx => t = { s with tx := t.tx, lineTx := t.lineTx, err := t.err }
    | .frx => t = { s with rx := t.rx, rxOut := t.rxOut }
    | .tlvp => t = { s with tlv := t.tlv, pOut := t.pOut }

/-- R284: after any inputs, each unit's registers and port are what they would be had the host given only that unit's
commands (and the resets). -/
def Obligations.UnitsAreIndependent : Prop :=
  ∀ (s t u : State) (unit : BlockUnit) (xs : List HostInput),
    runSteps xs.length { s with inputs := xs } = .next t →
    runSteps (xs.filter (HostInput.concerns unit)).length { s with inputs := xs.filter (HostInput.concerns unit) } =
      .next u →
    match unit with
    | .control => True
    | .crc => t.crcVal = u.crcVal
    | .ftx => t.tx = u.tx ∧ t.lineTx = u.lineTx
    | .frx => t.rx = u.rx ∧ t.rxOut = u.rxOut
    | .tlvp => t.tlv = u.tlv ∧ t.pOut = u.pOut

/-- R255: one command reports at most one error, counting RXERR events, PERR events and a newly set bit of ERR. -/
def Obligations.OneCommandReportsAtMostOneError : Prop :=
  ∀ (i : Instr) (s t : State), exec i s = .next t →
    ∃ (r : List RxEvent) (p : List PEvent),
      t.rxOut = s.rxOut ++ r ∧ t.pOut = s.pOut ++ p ∧
      r.countP RxEvent.isError + p.countP PEvent.isError + (if t.err = s.err then 0 else 1) ≤ 1 ∧
      (p.countP PEvent.isError = 1 → ∃ (q : List PEvent) (c : PErr), p = q ++ [.perr c])

/-- R57: RDREG of a defined number only appends one REG event, of an undefined one only sets ERR.BADREG; NOP changes
nothing; every other command, whatever its operand, has an effect in some state of the invariants, and in some such state
does not equal itself given twice, but for CRC.CLR and P.START, whose own rules (R113, R180) make them idempotent (log
entry 18). In every state two RX.BYTE 0x7D differ from one, as do two RX.TMO and two P.END; two CRC.UPD of one non-zero
byte differ from one after CRC.CLR. -/
def Obligations.CommandsHaveEffectsAndRepeat : Prop :=
  (∀ (s : State) (n : Byte), (n.toNat ≤ 0x09 → ∃ v : Word32,
      exec (.rdreg n) s = .next { s with regOut := s.regOut ++ [⟨n, v⟩] }) ∧
    (0x0A ≤ n.toNat → exec (.rdreg n) s = .next { s with err := s.err ||| 0b100 }) ∧ exec .nop s = .next s) ∧
  (∀ i : Instr, i ≠ .nop → (∀ n, i ≠ .rdreg n) → ∃ s t : State, s.Inv ∧ exec i s = .next t ∧ t ≠ s) ∧
  (∀ i : Instr, i ≠ .nop → (∀ n, i ≠ .rdreg n) → i ≠ .crcClr → i ≠ .pStart →
    ∃ s t u : State, s.Inv ∧ exec i s = .next t ∧ exec i t = .next u ∧ u ≠ t) ∧
  (∀ (s : State) (i : Instr), i = .rxByte 0x7D ∨ i = .rxTmo ∨ i = .pEnd ∨
      (s.crcVal = 0x0000 ∧ ∃ d : Byte, d ≠ 0x00 ∧ i = .crcUpd d) →
    ∃ t u : State, exec i s = .next t ∧ exec i t = .next u ∧ u ≠ t) ∧
  (∀ (s : State) (i : Instr), i = .crcClr ∨ i = .pStart → ∃ t : State, exec i s = .next t ∧ exec i t = .next t)

/-- R57's words that no command but RDREG and NOP is idempotent, in their weakest reading (in some state, the command given
twice is not the command given once), which R113 and R180 break: expected to fail (log entry 18). -/
def Obligations.NoOtherCommandIsIdempotentAsWritten : Prop :=
  ∀ i : Instr, i ≠ .nop → (∀ n, i ≠ .rdreg n) →
    ∃ s t u : State, exec i s = .next t ∧ exec i t = .next u ∧ u ≠ t

/-! ### Control commands -/

/-- R230: NOP, by whichever of its words, changes no state. -/
def Obligations.NopChangesNothing : Prop :=
  ∀ (s : State) (d : Byte), decode (commandWord 0x00 d) = .ok .nop ∧ exec .nop s = .next s

/-- R231 with the register map of R34: the value of every defined register, every bit the map does not name being 0, and
ERR.BADREG (bit 2) with nothing else for the numbers from 0x0A on. The two counts fit their fields by R35. -/
def Obligations.RdregReadsTheRegisterMap : Prop :=
  ∀ (s : State) (n : Byte),
    decode (commandWord 0x01 n) = .ok (.rdreg n) ∧
    (n.toNat ≤ 0x09 → ∃ v : Word32, exec (.rdreg n) s = .next { s with regOut := s.regOut ++ [⟨n, v⟩] } ∧
      (n = 0x00 → v.toNat = s.crcVal.toNat) ∧
      (n = 0x01 → v.toNat = s.tx.inFrame.toNat) ∧
      (n = 0x02 → v.toNat = s.tx.crc.toNat) ∧
      (n = 0x03 → v.toNat = s.rx.esc.toNat + 2 * s.rx.discard.toNat) ∧
      (n = 0x04 → s.rx.buf.length < 2 ^ 32 → v.toNat = s.rx.buf.length) ∧
      (n = 0x05 → s.tlv.stack.length < 256 → v.toNat = s.tlv.mode.code.toNat + 256 * s.tlv.stack.length) ∧
      (n = 0x06 → v = s.tlv.ntop) ∧
      (n = 0x07 → v.toNat = s.err.toNat) ∧
      (n = 0x08 → v = s.cfg.rxMax) ∧
      (n = 0x09 → v.toNat = s.cfg.maxDepth.toNat)) ∧
    (0x0A ≤ n.toNat → exec (.rdreg n) s = .next { s with err := s.err ||| 0b100 })

/-! ### CRC -/

/-- R113 and R114: CRC.CLR and CRC.UPD, with their encodings, write CRC_VAL and nothing else; the step is the loop of
R112. -/
def Obligations.CrcCommandsWriteCrcVal : Prop :=
  ∀ (s : State) (d : Byte),
    decode (commandWord 0x10 d) = .ok .crcClr ∧ exec .crcClr s = .next { s with crcVal := 0x0000 } ∧
    decode (commandWord 0x11 d) = .ok (.crcUpd d) ∧ exec (.crcUpd d) s = .next { s with crcVal := step8 s.crcVal d }

/-- The generator G(x) = x^16 + x^12 + x^5 + 1 of R112, over the field of two elements. -/
noncomputable def Sys2Proof.Machine.crcGenerator : Polynomial (ZMod 2) :=
  Polynomial.X ^ 16 + Polynomial.X ^ 12 + Polynomial.X ^ 5 + 1

/-- A 16-bit value as the polynomial whose coefficient of x^i is its bit i. -/
noncomputable def Sys2Proof.Machine.crcPolynomial (c : Crc) : Polynomial (ZMod 2) :=
  ∑ i ∈ Finset.range 16, if c.getLsbD i then Polynomial.X ^ i else 0

/-- A message as the polynomial of its bits, the first byte's most significant bit leading. -/
noncomputable def Sys2Proof.Machine.messagePolynomial (p : List Byte) : Polynomial (ZMod 2) :=
  p.foldl (fun m b => m * Polynomial.X ^ 8 + ∑ i ∈ Finset.range 8, if b.getLsbD i then Polynomial.X ^ i else 0) 0

/-- R110 to R112: CRC16 is "the bitwise division by the generator": it is the remainder of the message, shifted by x^16,
modulo G (a remainder of degree below 16 by its 16 bits; adding equals subtracting over two elements). -/
def Obligations.CrcIsTheRemainderByTheGenerator : Prop :=
  ∀ p : List Byte, crcGenerator ∣ messagePolynomial p * Polynomial.X ^ 16 + crcPolynomial (crc16 p)

/-- R115: leading zero bytes do not change the CRC. -/
def Obligations.LeadingZerosDoNotChangeTheCrc : Prop :=
  ∀ (k : Nat) (p : List Byte), crc16 (List.replicate k 0x00 ++ p) = crc16 p

/-- R116: the residue. -/
def Obligations.CrcResidueIsZero : Prop :=
  ∀ p : List Byte, crc16 (p ++ crc16be p) = 0x0000

/-- R76 with R111, R113, R114: the commands of `CRC.OF` over a byte list leave its CRC16 in CRC_VAL and change nothing
else. -/
def Obligations.CrcOfLeavesTheCrcOfItsBytes : Prop :=
  ∀ (s : State) (p : List Byte), s.performs (crcOfCommands p) = .next { s with crcVal := crc16 p }

/-! ### Frame encoder -/

/-- R132 to R134: each FTX command, with its encoding, in and out of sequence: the line bytes, TX_CRC and TX_INFRAME it
writes, or ERR.TXSEQ (bit 1) and nothing else. -/
def Obligations.TxCommandsDoAsTheirRules : Prop :=
  ∀ (s : State) (d : Byte),
    decode (commandWord 0x20 d) = .ok .txSof ∧ decode (commandWord 0x21 d) = .ok (.txData d) ∧
    decode (commandWord 0x22 d) = .ok .txEof ∧
    (s.tx.inFrame = false →
      exec .txSof s = .next { s with lineTx := s.lineTx ++ [0x7E], tx := ⟨true, 0x0000⟩ } ∧
      exec (.txData d) s = .next { s with err := s.err ||| 0b010 } ∧
      exec .txEof s = .next { s with err := s.err ||| 0b010 }) ∧
    (s.tx.inFrame = true →
      exec .txSof s = .next { s with err := s.err ||| 0b010 } ∧
      exec (.txData d) s = .next { s with
        lineTx := s.lineTx ++ (if d = 0x7E then [0x7D, 0x5E] else if d = 0x7D then [0x7D, 0x5D] else [d]),
        tx := ⟨true, step8 s.tx.crc d⟩ } ∧
      exec .txEof s = .next { s with
        lineTx := s.lineTx ++ escaped [s.tx.crc.extractLsb' 8 8, s.tx.crc.extractLsb' 0 8] ++ [0x7E],
        tx := ⟨false, s.tx.crc⟩ })

/-- R136: the commands of `TX.FRAME p`, started outside a frame, append exactly the wire frame of `p` to LINE_TX and leave
TX_INFRAME = 0, TX_CRC = CRC16(p) and everything else, ERR included, unchanged. -/
def Obligations.TxFrameSendsTheWireFrame : Prop :=
  ∀ (s : State) (p : List Byte), s.tx.inFrame = false →
    s.performs (.txSof :: (p.map .txData ++ [.txEof])) =
      .next { s with lineTx := s.lineTx ++ ([0x7E] ++ escaped (p ++ crc16be p) ++ [0x7E]), tx := ⟨false, crc16 p⟩ }

/-- R135: between the delimiters of a frame FTX sends there is no 0x7E, every 0x7D is followed by 0x5E or 0x5D, and the
frame is n + k + 2 + j + 2 bytes long. -/
def Obligations.SentFrameHasNoInnerDelimiter : Prop :=
  ∀ (s t : State) (p : List Byte), s.tx.inFrame = false → s.performs (txFrameCommands p) = .next t →
    ∃ body : List Byte, t.lineTx = s.lineTx ++ ([0x7E] ++ body ++ [0x7E]) ∧
      (0x7E : Byte) ∉ body ∧
      (∀ i : Nat, body[i]? = some 0x7D → body[i + 1]? = some 0x5E ∨ body[i + 1]? = some 0x5D) ∧
      ([0x7E] ++ body ++ [0x7E] : List Byte).length =
        p.length + p.countP (fun b => b = 0x7E || b = 0x7D) + 2 +
          (crc16be p).countP (fun b => b = 0x7E || b = 0x7D) + 2

/-! ### Frame decoder -/

/-- R153 and R158: a data byte (the byte after an escape, ORed with 0x20, or any byte but 0x7D and 0x7E) is dropped in
discard mode, overflows a full buffer, and is appended otherwise; nothing else changes. -/
def Obligations.RxDataByteIsAppended : Prop :=
  ∀ (s : State) (x v : Byte),
    (s.rx.esc = true ∧ v = x ||| 0x20) ∨ (s.rx.esc = false ∧ x ≠ 0x7D ∧ x ≠ 0x7E ∧ v = x) →
    (s.rx.discard = true → exec (.rxByte x) s = .next { s with rx := ⟨s.rx.buf, false, true⟩ }) ∧
    (s.rx.discard = false → s.rx.buf.length = s.cfg.rxMax.toNat →
      exec (.rxByte x) s = .next { s with
        rx := ⟨[], false, true⟩, rxOut := s.rxOut ++ [.rxerr .overflow s.cfg.rxMax 0] }) ∧
    (s.rx.discard = false → s.rx.buf.length ≠ s.cfg.rxMax.toNat →
      exec (.rxByte x) s = .next { s with rx := ⟨s.rx.buf ++ [v], false, false⟩ })

/-- R151, R152, R154: outside an escape, 0x7D sets RX_ESC; 0x7E ends discard mode without an event, and is idle with an
empty buffer. -/
def Obligations.RxEscapeResyncAndIdle : Prop :=
  ∀ s : State, s.rx.esc = false →
    exec (.rxByte 0x7D) s = .next { s with rx := ⟨s.rx.buf, true, s.rx.discard⟩ } ∧
    (s.rx.discard = true → exec (.rxByte 0x7E) s = .next { s with rx := ⟨s.rx.buf, false, false⟩ }) ∧
    (s.rx.discard = false → s.rx.buf = [] → exec (.rxByte 0x7E) s = .next s)

/-- R155 and R156: a closing 0x7E reports SHORT for one byte; else it splits off the last two bytes as the received CRC,
big-endian, and reports FRAME when they equal CRC16 of the rest and INTEGRITY with both values otherwise; the buffer is
emptied and nothing else changes. -/
def Obligations.RxDelimiterEndsTheFrame : Prop :=
  ∀ s : State, s.rx.esc = false → s.rx.discard = false →
    (∀ b : Byte, s.rx.buf = [b] →
      exec (.rxByte 0x7E) s = .next { s with
        rx := ⟨[], false, false⟩, rxOut := s.rxOut ++ [.rxerr .short 1 0] }) ∧
    (∀ (p : List Byte) (h l : Byte), s.rx.buf = p ++ [h, l] → crc16 p = h ++ l →
      exec (.rxByte 0x7E) s = .next { s with rx := ⟨[], false, false⟩, rxOut := s.rxOut ++ [.frame p] }) ∧
    (∀ (p : List Byte) (h l : Byte), s.rx.buf = p ++ [h, l] → crc16 p ≠ h ++ l →
      exec (.rxByte 0x7E) s = .next { s with
        rx := ⟨[], false, false⟩,
        rxOut := s.rxOut ++ [.rxerr .integrity ((crc16 p).setWidth 32) ((h ++ l).setWidth 32)] })

/-- R157: RX.TMO, by whichever of its words, always reports TIMEOUT with the bytes discarded, returns FRX to its start
state and changes nothing else. -/
def Obligations.RxTimeoutDiscardsTheBuffer : Prop :=
  ∀ (s : State) (d : Byte), decode (commandWord 0x31 d) = .ok .rxTmo ∧
    exec .rxTmo s = .next { s with
      rx := ⟨[], false, false⟩, rxOut := s.rxOut ++ [.rxerr .timeout (BitVec.ofNat 32 s.rx.buf.length) 0] }

/-- R155, D14: a FRAME event comes only from an unescaped 0x7E, and only when the buffered bytes are its payload followed
by that payload's big-endian CRC. -/
def Obligations.DeliveredFramePassedItsCrc : Prop :=
  ∀ (s t : State) (i : Instr) (p : List Byte), exec i s = .next t → t.rxOut = s.rxOut ++ [.frame p] →
    i = .rxByte 0x7E ∧ s.rx.esc = false ∧ s.rx.discard = false ∧ s.rx.buf = p ++ crc16be p ∧ t.rx.buf = []

/-- R251: for every receive error a command reports: its code, what raised it, its two info words and the state
afterwards. -/
def Obligations.ReceiveErrorsFollowTheirTable : Prop :=
  RxErr.integrity.code = 0x01 ∧ RxErr.timeout.code = 0x02 ∧ RxErr.short.code = 0x03 ∧ RxErr.overflow.code = 0x04 ∧
  ∀ (s t : State) (i : Instr) (c : RxErr) (a b : Word32),
    exec i s = .next t → t.rxOut = s.rxOut ++ [.rxerr c a b] →
    match c with
    | .integrity => i = .rxByte 0x7E ∧ t.rx.buf = [] ∧ ∃ (p : List Byte) (h l : Byte),
        s.rx.buf = p ++ [h, l] ∧ crc16 p ≠ h ++ l ∧ a.toNat = (crc16 p).toNat ∧ b.toNat = h.toNat * 256 + l.toNat
    | .timeout => i = .rxTmo ∧ a = BitVec.ofNat 32 s.rx.buf.length ∧ b = 0 ∧ t.rx = ⟨[], false, false⟩
    | .short => i = .rxByte 0x7E ∧ s.rx.buf.length = 1 ∧ a = 1 ∧ b = 0 ∧ t.rx.buf = []
    | .overflow => (∃ x : Byte, i = .rxByte x) ∧ s.rx.buf.length = s.cfg.rxMax.toNat ∧ a = s.cfg.rxMax ∧ b = 0 ∧
        t.rx.buf = [] ∧ t.rx.discard = true

/-- R160: from the start state, feeding the wire frame of `p` that fits in RX_MAX gives exactly one event, FRAME(p), and
the start state again, with nothing else changed. -/
def Obligations.RxReceivesTheWireFrame : Prop :=
  ∀ (s : State) (p : List Byte), s.rx = ⟨[], false, false⟩ → p.length + 2 ≤ s.cfg.rxMax.toNat →
    s.performs (rxFeedCommands ([0x7E] ++ escaped (p ++ crc16be p) ++ [0x7E])) =
      .next { s with rxOut := s.rxOut ++ [.frame p] }

/-- R159: FRX needs no opening delimiter. Line noise (any bytes but 0x7D and 0x7E, within the buffer) before a frame ends at
the frame's opening 0x7E and is reported, as an error unless its last two bytes happen to be its CRC; the true frame
then follows. -/
def Obligations.LineNoiseEndsAtTheOpeningDelimiter : Prop :=
  ∀ (s : State) (noise p : List Byte), s.rx = ⟨[], false, false⟩ → noise ≠ [] → (∀ x ∈ noise, x ≠ 0x7D ∧ x ≠ 0x7E) →
    noise.length ≤ s.cfg.rxMax.toNat → p.length + 2 ≤ s.cfg.rxMax.toNat →
    ∃ e : RxEvent,
      s.performs (rxFeedCommands (noise ++ ([0x7E] ++ escaped (p ++ crc16be p) ++ [0x7E]))) =
        .next { s with rxOut := s.rxOut ++ [e, .frame p] } ∧
      ((∀ q : List Byte, noise ≠ q ++ crc16be q) → e.isError = true)

/-- R161: feeding `escaped(s)` yields `s`: outside discard mode, with room in the buffer, exactly those bytes are added
to it. -/
def Obligations.UnescapingInvertsEscaping : Prop :=
  ∀ (s : State) (bs : List Byte), s.rx.esc = false → s.rx.discard = false →
    s.rx.buf.length + bs.length ≤ s.cfg.rxMax.toNat →
    s.performs (rxFeedCommands (escaped bs)) = .next { s with rx := ⟨s.rx.buf ++ bs, false, false⟩ }

/-- R152: from discard mode, whatever bytes come before the next unescaped 0x7E leave the buffer empty and emit nothing;
that 0x7E, or RX.TMO, ends discard mode. The bytes are any whose escapes pair up: no 0x7D or 0x7E but as 0x7D with a byte after it. -/
def Obligations.DiscardModeEndsAtTheNextDelimiter : Prop :=
  ∀ (s : State) (units : List (List Byte)), s.rx = ⟨[], false, true⟩ →
    (∀ u ∈ units, (∃ x : Byte, u = [x] ∧ x ≠ 0x7D ∧ x ≠ 0x7E) ∨ (∃ x : Byte, u = [0x7D, x])) →
    s.performs (rxFeedCommands units.flatten) = .next s ∧
    s.performs (rxFeedCommands (units.flatten ++ [0x7E])) = .next { s with rx := ⟨[], false, false⟩ } ∧
    s.performs (rxFeedCommands units.flatten ++ [.rxTmo]) =
      .next { s with rx := ⟨[], false, false⟩, rxOut := s.rxOut ++ [.rxerr .timeout 0 0] }

/-- The exception of R162: after an escape byte, flipping bit 5 of the next line byte is not detected: the step is the
same. -/
def Obligations.EscapedBitFiveFlipIsUndetected : Prop :=
  ∀ (s : State) (x : Byte), s.rx.esc = true → exec (.rxByte (x ^^^ 0x20)) s = exec (.rxByte x) s

/-! ### Record parser -/

/-- R180 and R194: P.START resets the parser silently; P.END reports END at a record boundary, TRUNC inside a record and
nothing in ERROR mode, and resets the parser; nothing else changes. -/
def Obligations.ParserStartAndEnd : Prop :=
  ∀ (s : State) (d : Byte),
    decode (commandWord 0x40 d) = .ok .pStart ∧ decode (commandWord 0x42 d) = .ok .pEnd ∧
    Tlvp.reset = { mode := .tag, k := 0, fam := .none, len := 0, cnt := 0, acc := 0, utf := ⟨0, 0x80, 0xBF⟩,
                   stack := [], ntop := 0 } ∧
    exec .pStart s = .next { s with tlv := .reset } ∧
    (s.tlv.mode = .error → exec .pEnd s = .next { s with tlv := .reset }) ∧
    (s.tlv.mode = .tag → s.tlv.stack = [] →
      exec .pEnd s = .next { s with tlv := .reset, pOut := s.pOut ++ [.endBuffer s.tlv.ntop] }) ∧
    (s.tlv.mode ≠ .error → s.tlv.mode ≠ .tag ∨ s.tlv.stack ≠ [] →
      exec .pEnd s = .next { s with tlv := .reset, pOut := s.pOut ++ [.perr .trunc] })

/-- R195: in ERROR mode every P.BYTE is ignored, however many come: no event, no register changes. P.START, P.END (which
emits nothing) and reset each leave the parser in its reset state. -/
def Obligations.ErrorModeIgnoresBytes : Prop :=
  ∀ (s : State) (bs : List Byte), s.tlv.mode = .error →
    s.performs (bs.map .pByte) = .next s ∧
    s.performs (bs.map .pByte ++ [.pEnd]) = .next { s with tlv := .reset } ∧
    s.performs (bs.map .pByte ++ [.pStart]) = .next { s with tlv := .reset } ∧
    (∀ rest : List HostInput, ∃ t : State, step { s with inputs := .reset :: rest } = .next t ∧ t.tlv = .reset)

/-- R182, R183, R187 to R190, for the tag byte of an inline record at a state that may take one: the three checks in their
order, each leaving every other register as the header byte left it (R186), and otherwise HDR with the content claimed
and a container opened, content awaited, or the empty record completed. Everything outside TLVP and P_OUT is unchanged. -/
def Obligations.InlineHeaderChecksInOrder : Prop :=
  ∀ (s : State) (f : Family) (n : Nat), s.Inv → s.tlv.mode = .tag → n ≤ 30 →
    ∃ t : State, exec (.pByte (tagOf f n)) s = .next t ∧ HeaderOutcome s f n t

/-- R184, R185, with R183 and R186 to R190: the same for the second byte of a 16-bit extension, whose length is be16 of
the two, and for the fourth byte of a 32-bit extension. -/
def Obligations.ExtendedHeaderChecksInOrder : Prop :=
  ∀ (s : State) (b : Byte), s.Inv →
    (∀ h1 : Byte, s.tlv.mode = .len16 → s.tlv.k = 1 → s.tlv.len.toNat = h1.toNat → beNat [h1, b] ≠ 0xFFFF →
      ∃ t : State, exec (.pByte b) s = .next t ∧ HeaderOutcome s s.tlv.fam (beNat [h1, b]) t) ∧
    (∀ h3 h2 h1 : Byte, s.tlv.mode = .len32 → s.tlv.k = 3 → s.tlv.len.toNat = beNat [h3, h2, h1] →
      ∃ t : State, exec (.pByte b) s = .next t ∧ HeaderOutcome s s.tlv.fam (beNat [h3, h2, h1, b]) t)

/-- R182 to R185: every byte that leaves a header incomplete (a tag of size class 31, the first byte of the 16-bit
extension, the marker 0xFFFF, the first three bytes of the 32-bit extension) counts against the innermost container and
reports CONTAINER when it uses it up; P_LEN is assembled, and P_MODE and P_K go on, as the rules say. -/
def Obligations.IncompleteHeaderBytesAreChecked : Prop :=
  ∀ (s : State) (b : Byte), s.Inv →
    (∀ f : Family, s.tlv.mode = .tag → b = tagOf f 31 → ∃ t : State, exec (.pByte b) s = .next t ∧
      SplitOutcome s { s.tlv with mode := .len16, fam := f, k := 0, len := 0 } t) ∧
    (s.tlv.mode = .len16 → s.tlv.k = 0 → ∃ t : State, exec (.pByte b) s = .next t ∧
      SplitOutcome s { s.tlv with k := 1, len := BitVec.ofNat 32 (s.tlv.len.toNat * 256 + b.toNat) } t) ∧
    (s.tlv.mode = .len16 → s.tlv.k = 1 → s.tlv.len = 0xFF → b = 0xFF → ∃ t : State, exec (.pByte b) s = .next t ∧
      SplitOutcome s { s.tlv with mode := .len32, k := 0, len := 0 } t) ∧
    (s.tlv.mode = .len32 → s.tlv.k.toNat < 3 → ∃ t : State, exec (.pByte b) s = .next t ∧
      SplitOutcome s { s.tlv with k := s.tlv.k + 1, len := BitVec.ofNat 32 (s.tlv.len.toNat * 256 + b.toNat) } t)

/-- R191, R192, R193: a content byte counts down P_CNT and is shifted into P_ACC. A String byte that spoils the text is
reported as UTF8 and not delivered, and every other register keeps its value (R186); any other byte of a String or Bytes
record is delivered; the last byte of a record emits its value and completes it. No content byte is taken from `top.rem`.
The families are those R191 names: a List or Map is never in CONTENT. -/
def Obligations.ContentBytesAreDelivered : Prop :=
  ∀ (s : State) (b : Byte), s.Inv → s.tlv.mode = .content → s.tlv.fam ≠ .list → s.tlv.fam ≠ .map →
    let acc : Word64 := BitVec.ofNat 64 (s.tlv.acc.toNat * 256 + b.toNat)
    let read : Tlvp := { s.tlv with cnt := BitVec.ofNat 32 (s.tlv.cnt.toNat - 1), acc := acc }
    (SpoilsText s.tlv b →
      exec (.pByte b) s = .next { s with tlv := { read with mode := .error }, pOut := s.pOut ++ [.perr .utf8] }) ∧
    (¬ SpoilsText s.tlv b → ∃ (u : Utf8) (delivered value : List PEvent),
      (if s.tlv.fam = .string then utf8Step s.tlv.utf b = some u else u = s.tlv.utf) ∧
      delivered = (if s.tlv.fam = .string ∨ s.tlv.fam = .bytes then [.byte b] else []) ∧
      (s.tlv.cnt ≠ 1 →
        exec (.pByte b) s = .next { s with tlv := { read with utf := u }, pOut := s.pOut ++ delivered }) ∧
      (s.tlv.cnt = 1 →
        (match s.tlv.fam with
         | .none => value = [.nil]
         | .boolean => value = [.bool (decide (acc.toNat ≠ 0))]
         | .integer => ∀ l : Nat, s.tlv.len.toNat = l → l = 1 ∨ l = 2 ∨ l = 4 ∨ l = 8 →
             ∃ v : Word64, value = [.int v] ∧ v.toInt = Int.bmod acc.toNat (2 ^ (8 * l))
         | .real => value = [.real s.tlv.len acc]
         | .string | .bytes => value = []
         | .list | .map => True) ∧
        ∃ (q : Tlvp) (evs : List PEvent), Completion { read with utf := u } q evs ∧
          exec (.pByte b) s = .next { s with tlv := q, pOut := s.pOut ++ (delivered ++ value ++ evs) }))

/-- R181: P.BYTE, with its encoding, completes in every state, writing only TLVP and P_OUT; and outside ERROR mode it is
not ignored: the parser changes or an event is emitted. -/
def Obligations.EveryParserByteIsConsumed : Prop :=
  ∀ (s : State) (b : Byte), decode (commandWord 0x41 b) = .ok (.pByte b) ∧
    ∃ (q : Tlvp) (evs : List PEvent),
      exec (.pByte b) s = .next { s with tlv := q, pOut := s.pOut ++ evs } ∧
      (s.tlv.mode = .error → q = s.tlv ∧ evs = []) ∧ (s.tlv.mode ≠ .error → q ≠ s.tlv ∨ evs ≠ [])

/-- R81, R184, R185: a top-level String or Bytes record whose length stands in the 16-bit or the 32-bit tier: its header
is accepted with the big-endian length, and that many content bytes are then awaited. -/
def Obligations.SizeExtensionsAreBigEndian : Prop :=
  ∀ (s : State) (f : Family) (tier : SizeTier) (n : Nat), f = .string ∨ f = .bytes →
    s.tlv.mode = .tag → s.tlv.stack = [] → tier.fits n = true → 0 < n →
    ∃ t : State, s.performs ((headerBytes f tier n).map .pByte) = .next t ∧
      t = { s with tlv := t.tlv, pOut := s.pOut ++ [.hdr f (BitVec.ofNat 32 n) 0] } ∧
      t.tlv.mode = .content ∧ t.tlv.fam = f ∧ t.tlv.len.toNat = n ∧ t.tlv.cnt.toNat = n ∧ t.tlv.acc = 0 ∧
      t.tlv.utf = ⟨0, 0x80, 0xBF⟩ ∧ t.tlv.stack = [] ∧ t.tlv.ntop = s.tlv.ntop

/-- R192: a top-level Integer record of a legal width emits its content as a signed big-endian number, sign-extended to
64 bits, and counts as a top-level record (R193). -/
def Obligations.IntegerContentIsSignedBigEndian : Prop :=
  ∀ (s : State) (content : List Byte), s.tlv.mode = .tag → s.tlv.stack = [] →
    content.length = 0 ∨ content.length = 1 ∨ content.length = 2 ∨ content.length = 4 ∨ content.length = 8 →
    ∃ t : State, s.performs ((tagOf .integer content.length :: content).map .pByte) = .next t ∧
      t.tlv.mode = .tag ∧ t.tlv.stack = [] ∧ t.tlv.ntop = s.tlv.ntop + 1 ∧
      ∃ v : Word64, v.toInt = beInt content ∧
        t.pOut = s.pOut ++ [.hdr .integer (BitVec.ofNat 32 content.length) 0, .int v, .top (s.tlv.ntop + 1)]

/-- R193, R199 for one container level: the last sub-record of a top-level List or Map closes it when its content is used up
after an even number of Map sub-records, and reports MAP_ODD after a key without its value. Here the sub-record is an
Integer of width 0, tag 0x40. -/
def Obligations.LastSubRecordClosesItsContainer : Prop :=
  ∀ (s : State) (e : StackEntry), s.tlv.mode = .tag → s.tlv.stack = [e] → e.rem = 1 →
    ∃ t : State, exec (.pByte 0x40) s = .next t ∧
      (e.kind = .list ∨ e.odd = true →
        t.tlv.mode = .tag ∧ t.tlv.stack = [] ∧ t.tlv.ntop = s.tlv.ntop + 1 ∧
        t.pOut = s.pOut ++ [.hdr .integer 0 1, .int 0, .close 0, .top (s.tlv.ntop + 1)]) ∧
      (e.kind = .map ∧ e.odd = false →
        t.tlv.mode = .error ∧ t.tlv.ntop = s.tlv.ntop ∧
        t.pOut = s.pOut ++ [.hdr .integer 0 1, .int 0, .perr .mapOdd])

/-- R252 with R186 and R194: the code of every decoding error; what raises it, exactly, for the five of P.BYTE (`Raises`
reads R252's column off the rules it names: R188 for WIDTH, R183 and R189 for CONTAINER, R193 for MAP_ODD, R191 for UTF8,
R190 for DEPTH) and for TRUNC, P.END inside a record; and where the command that reports one leaves the parser. -/
def Obligations.DecodingErrorsFollowTheirTable : Prop :=
  PErr.width.code = 0x10 ∧ PErr.container.code = 0x11 ∧ PErr.mapOdd.code = 0x12 ∧ PErr.trunc.code = 0x13 ∧
  PErr.utf8.code = 0x14 ∧ PErr.depth.code = 0x15 ∧
  (∀ (s t : State) (i : Instr) (evs : List PEvent) (c : PErr),
    exec i s = .next t → t.pOut = s.pOut ++ evs → .perr c ∈ evs →
    (c ≠ .trunc → (∃ b : Byte, i = .pByte b) ∧ s.tlv.mode ≠ .error ∧ t.tlv.mode = .error) ∧
    (c = .trunc → i = .pEnd ∧ t.tlv = .reset ∧ (s.tlv.mode ≠ .tag ∨ s.tlv.stack ≠ []))) ∧
  (∀ (s t : State) (b : Byte) (evs : List PEvent) (c : PErr), s.Inv → s.tlv.mode ≠ .error →
    exec (.pByte b) s = .next t → t.pOut = s.pOut ++ evs → (.perr c ∈ evs ↔ Raises s.cfg.maxDepth s.tlv b c)) ∧
  (∀ s t : State, s.tlv.mode ≠ .error → s.tlv.mode ≠ .tag ∨ s.tlv.stack ≠ [] →
    exec .pEnd s = .next t → t.pOut = s.pOut ++ [.perr .trunc])

/-- R196 against Unicode: the validator accepts exactly the UTF-8 encodings of texts, sequences of Unicode scalar values
(so no overlong form, no surrogate, nothing above U+10FFFF). -/
def Obligations.ValidatorAcceptsExactlyUtf8 : Prop :=
  ∀ bs : List Byte, utf8Valid bs = true ↔ ∃ cs : List Char, bs = utf8Bytes cs

/-- R198, first half: P.PARSE of the bytes of records nested within MAX_DEPTH emits exactly their events, each followed by
its TOP, then END, and leaves the parser reset and everything else unchanged. Records as trees are the model's reading of
what decodes "by the document's rules" (DEDUCED, log entry 16). -/
def Obligations.ParserEmitsTheRecordsOfItsBuffer : Prop :=
  ∀ (s : State) (rs : List Rec), Rec.validAll rs = true → Rec.nestingAll rs ≤ s.cfg.maxDepth.toNat →
    s.performs (pParseCommands (Rec.bytesAll rs)) =
      .next { s with tlv := .reset, pOut := s.pOut ++ bufferEvents rs }

/-- R198, second half: P.PARSE of bytes that are no sequence of records nested within MAX_DEPTH emits exactly one PERR,
last, and no END, and leaves the parser reset and everything else unchanged. That "does not decode" means: is not the
bytes of any valid record trees within MAX_DEPTH, is the model's reading (DEDUCED, log entry 16). -/
def Obligations.ParserReportsBuffersThatDoNotDecode : Prop :=
  ∀ (s : State) (bs : List Byte),
    (∀ rs : List Rec, Rec.validAll rs = true → Rec.nestingAll rs ≤ s.cfg.maxDepth.toNat → Rec.bytesAll rs ≠ bs) →
    ∃ (evs : List PEvent) (c : PErr),
      s.performs (pParseCommands bs) = .next { s with tlv := .reset, pOut := s.pOut ++ (evs ++ [.perr c]) } ∧
      evs.all (fun e => !e.isError && !e.isEnd) = true

/-- R197, R255: whatever the bytes, P.PARSE ends in exactly one verdict, the last event it emits: END or a PERR. -/
def Obligations.EveryParseEndsInOneVerdict : Prop :=
  ∀ (s : State) (bs : List Byte), ∃ (evs : List PEvent) (e : PEvent),
    s.performs (pParseCommands bs) = .next { s with tlv := .reset, pOut := s.pOut ++ (evs ++ [e]) } ∧
    (e.isError || e.isEnd) = true ∧ evs.all (fun x => !x.isError && !x.isEnd) = true
end

