-- ==== Sys2Proof/Laws/Bits.lean ====
section
/-! SUPPORT. Bit fields: the two fields of a command word (R70), the two bytes of a 16-bit value (R8), the tag byte's fields
(R79), numeric codes, and the escape mapping (R78). -/

namespace Sys2Proof

/-- The value of two bit vectors side by side. -/
theorem append_value {m n : Nat} (x : BitVec m) (y : BitVec n) : (x ++ y).toNat = x.toNat * 2 ^ n + y.toNat := by
  rw [BitVec.toNat_append, ← Nat.shiftLeft_add_eq_or_of_lt y.isLt, Nat.shiftLeft_eq]

/-- The value of a bit field. -/
theorem field_value {m : Nat} (lo n : Nat) (x : BitVec m) : (x.extractLsb' lo n).toNat = x.toNat / 2 ^ lo % 2 ^ n := by
  rw [BitVec.extractLsb'_toNat, Nat.shiftRight_eq_div_pow]

@[simp] theorem opField_commandWord (op d : Byte) : opField (commandWord op d) = op := by
  apply BitVec.eq_of_toNat_eq
  rw [opField, field_value, commandWord, append_value]
  have := op.isLt; have := d.isLt; omega

@[simp] theorem dField_commandWord (op d : Byte) : dField (commandWord op d) = d := by
  apply BitVec.eq_of_toNat_eq
  rw [dField, field_value, commandWord, append_value]
  have := op.isLt; have := d.isLt; omega

/-- A word is its two fields. -/
theorem commandWord_fields (w : Command) : commandWord (opField w) (dField w) = w := by
  apply BitVec.eq_of_toNat_eq
  rw [commandWord, append_value, opField, dField, field_value, field_value]
  have := w.isLt; omega

end Sys2Proof

namespace Sys2Proof.Machine

@[simp] theorem hiByte_append (h l : Byte) : hiByte (h ++ l) = h := opField_commandWord h l
@[simp] theorem loByte_append (h l : Byte) : loByte (h ++ l) = l := dField_commandWord h l
@[simp] theorem be16_hiByte_loByte (c : BitVec 16) : be16 (hiByte c) (loByte c) = c := commandWord_fields c

/-- `be16` is injective in each byte: the two bytes of a 16-bit value are unique. -/
theorem be16_eq_iff (h l : Byte) (c : BitVec 16) : be16 h l = c ↔ h = hiByte c ∧ l = loByte c := by
  constructor
  · rintro rfl; exact ⟨(hiByte_append h l).symm, (loByte_append h l).symm⟩
  · rintro ⟨rfl, rfl⟩; exact be16_hiByte_loByte c

@[simp] theorem be16_toNat (h l : Byte) : (be16 h l).toNat = h.toNat * 256 + l.toNat := by
  rw [be16, append_value]; omega

@[simp] theorem Family.ofCode_code (f : Family) : Family.ofCode f.code = f := by cases f <;> rfl

@[simp] theorem Family.code_ofCode (c : BitVec 3) : (Family.ofCode c).code = c := by
  revert c; decide

/-- The family of a tag byte written by `tagOf` (R79). -/
@[simp] theorem tagFamily_tagOf (f : Family) (n : Nat) : tagFamily (tagOf f n) = f := by
  have h : (tagOf f n).extractLsb' 5 3 = f.code := by
    apply BitVec.eq_of_toNat_eq
    rw [field_value, tagOf, append_value]
    have := f.code.isLt; have := (BitVec.ofNat 5 n).isLt; omega
  rw [tagFamily, h, Family.ofCode_code]

/-- The size class of a tag byte written by `tagOf` (R79). -/
@[simp] theorem tagSize_tagOf (f : Family) (n : Nat) : tagSize (tagOf f n) = BitVec.ofNat 5 n := by
  apply BitVec.eq_of_toNat_eq
  rw [tagSize, field_value, tagOf, append_value]
  have := f.code.isLt; have := (BitVec.ofNat 5 n).isLt; omega

/-- A tag byte is its family and its size class (R79). -/
theorem tagOf_fields (b : Byte) : tagOf (tagFamily b) (tagSize b).toNat = b := by
  revert b; decide

/-- The P_LEN update as a number (R184, R185). -/
theorem shiftInLen_eq (len : Word32) (b : Byte) : shiftInLen len b = BitVec.ofNat 32 (len.toNat * 256 + b.toNat) := by
  have h : (len <<< 8) &&& zext32 b = 0 := by
    apply BitVec.eq_of_getLsbD_eq
    intro i hi
    simp [zext32, BitVec.getLsbD_shiftLeft]
    intro _ h2 _ _
    exact BitVec.getLsbD_of_ge _ _ (by omega)
  rw [shiftInLen, ← BitVec.add_eq_or_of_and_eq_zero _ _ h]
  apply BitVec.eq_of_toNat_eq
  simp [zext32, Nat.shiftLeft_eq]

/-- The P_ACC update as a number (R191). -/
theorem shiftInAcc_eq (acc : Word64) (b : Byte) : shiftInAcc acc b = BitVec.ofNat 64 (acc.toNat * 256 + b.toNat) := by
  have h : (acc <<< 8) &&& zext64 b = 0 := by
    apply BitVec.eq_of_getLsbD_eq
    intro i hi
    simp [zext64, BitVec.getLsbD_shiftLeft]
    intro _ h2 _ _
    exact BitVec.getLsbD_of_ge _ _ (by omega)
  rw [shiftInAcc, ← BitVec.add_eq_or_of_and_eq_zero _ _ h]
  apply BitVec.eq_of_toNat_eq
  simp [zext64, Nat.shiftLeft_eq]

/-- `legal_width` is R188's table. -/
theorem legalWidth_iff (f : Family) {n : Nat} (h : n < 2 ^ 32) :
    legalWidth f (BitVec.ofNat 32 n) = true ↔ WidthAllowed f n := by
  have e : ∀ k : Nat, k < 2 ^ 32 → ((BitVec.ofNat 32 n == BitVec.ofNat 32 k) = true ↔ n = k) := by
    intro k hk
    rw [beq_iff_eq, ← BitVec.toNat_inj, BitVec.toNat_ofNat, BitVec.toNat_ofNat, Nat.mod_eq_of_lt h, Nat.mod_eq_of_lt hk]
  have e0 : (BitVec.ofNat 32 n == (0 : Word32)) = true ↔ n = 0 := e 0 (by omega)
  have e1 : (BitVec.ofNat 32 n == (1 : Word32)) = true ↔ n = 1 := e 1 (by omega)
  have e2 : (BitVec.ofNat 32 n == (2 : Word32)) = true ↔ n = 2 := e 2 (by omega)
  have e4 : (BitVec.ofNat 32 n == (4 : Word32)) = true ↔ n = 4 := e 4 (by omega)
  have e8 : (BitVec.ofNat 32 n == (8 : Word32)) = true ↔ n = 8 := e 8 (by omega)
  cases f <;> simp only [legalWidth, WidthAllowed, Bool.or_eq_true, e0, e1, e2, e4, e8, or_assoc]

/-- `esc` leaves a byte that is not reserved (R78). -/
theorem escByte_of_ne {b : Byte} (h1 : b ≠ 0x7E) (h2 : b ≠ 0x7D) : escByte b = [b] := by
  rw [escByte, if_neg (by rintro (h | h) <;> contradiction)]

@[simp] theorem escByte_flag : escByte 0x7E = [0x7D, 0x5E] := by decide
@[simp] theorem escByte_esc : escByte 0x7D = [0x7D, 0x5D] := by decide

/-- The bytes that stand for one byte on the line: itself when it is not reserved, else 0x7D and a byte that unescapes to
it (R78, R161). -/
theorem escByte_cases (b : Byte) :
    (b ≠ 0x7E ∧ b ≠ 0x7D ∧ escByte b = [b]) ∨
    ((b = 0x7E ∨ b = 0x7D) ∧ ∃ x : Byte, (x = 0x5E ∨ x = 0x5D) ∧ unescByte x = b ∧ escByte b = [0x7D, x]) := by
  by_cases h1 : b = 0x7E
  · subst h1; exact .inr ⟨.inl rfl, 0x5E, .inl rfl, by decide, by decide⟩
  · by_cases h2 : b = 0x7D
    · subst h2; exact .inr ⟨.inr rfl, 0x5D, .inr rfl, by decide, by decide⟩
    · exact .inl ⟨h1, h2, escByte_of_ne h1 h2⟩

@[simp] theorem escaped_nil : escaped [] = [] := rfl

theorem escaped_cons (b : Byte) (bs : List Byte) : escaped (b :: bs) = escByte b ++ escaped bs := rfl

theorem escaped_append (xs ys : List Byte) : escaped (xs ++ ys) = escaped xs ++ escaped ys := by
  simp [escaped]

end Sys2Proof.Machine
end

