-- ==== Sys2Proof/Laws/State.lean ====
section
/-! SUPPORT. For each update of the state, what each field is afterwards: one lemma per field, true by definition. -/

namespace Sys2Proof.Machine

variable (s : State)

/-! ### `emitLine` writes LINE_TX only (R9, R36). -/

@[simp] theorem State.emitLine_cfg (bs : List Byte) : (s.emitLine bs).cfg = s.cfg := rfl
@[simp] theorem State.emitLine_crcVal (bs : List Byte) : (s.emitLine bs).crcVal = s.crcVal := rfl
@[simp] theorem State.emitLine_tx (bs : List Byte) : (s.emitLine bs).tx = s.tx := rfl
@[simp] theorem State.emitLine_rx (bs : List Byte) : (s.emitLine bs).rx = s.rx := rfl
@[simp] theorem State.emitLine_tlv (bs : List Byte) : (s.emitLine bs).tlv = s.tlv := rfl
@[simp] theorem State.emitLine_err (bs : List Byte) : (s.emitLine bs).err = s.err := rfl
@[simp] theorem State.emitLine_lineTx (bs : List Byte) : (s.emitLine bs).lineTx = s.lineTx ++ bs := rfl
@[simp] theorem State.emitLine_rxOut (bs : List Byte) : (s.emitLine bs).rxOut = s.rxOut := rfl
@[simp] theorem State.emitLine_pOut (bs : List Byte) : (s.emitLine bs).pOut = s.pOut := rfl
@[simp] theorem State.emitLine_regOut (bs : List Byte) : (s.emitLine bs).regOut = s.regOut := rfl
@[simp] theorem State.emitLine_inputs (bs : List Byte) : (s.emitLine bs).inputs = s.inputs := rfl

/-! ### `emitReg` writes REG_OUT only (R9, R36). -/

@[simp] theorem State.emitReg_cfg (e : RegEvent) : (s.emitReg e).cfg = s.cfg := rfl
@[simp] theorem State.emitReg_crcVal (e : RegEvent) : (s.emitReg e).crcVal = s.crcVal := rfl
@[simp] theorem State.emitReg_tx (e : RegEvent) : (s.emitReg e).tx = s.tx := rfl
@[simp] theorem State.emitReg_rx (e : RegEvent) : (s.emitReg e).rx = s.rx := rfl
@[simp] theorem State.emitReg_tlv (e : RegEvent) : (s.emitReg e).tlv = s.tlv := rfl
@[simp] theorem State.emitReg_err (e : RegEvent) : (s.emitReg e).err = s.err := rfl
@[simp] theorem State.emitReg_lineTx (e : RegEvent) : (s.emitReg e).lineTx = s.lineTx := rfl
@[simp] theorem State.emitReg_rxOut (e : RegEvent) : (s.emitReg e).rxOut = s.rxOut := rfl
@[simp] theorem State.emitReg_pOut (e : RegEvent) : (s.emitReg e).pOut = s.pOut := rfl
@[simp] theorem State.emitReg_regOut (e : RegEvent) : (s.emitReg e).regOut = s.regOut ++ [e] := rfl
@[simp] theorem State.emitReg_inputs (e : RegEvent) : (s.emitReg e).inputs = s.inputs := rfl

/-! ### `setErr` writes ERR only (R33). -/

@[simp] theorem State.setErr_cfg (b : ErrBit) : (s.setErr b).cfg = s.cfg := rfl
@[simp] theorem State.setErr_crcVal (b : ErrBit) : (s.setErr b).crcVal = s.crcVal := rfl
@[simp] theorem State.setErr_tx (b : ErrBit) : (s.setErr b).tx = s.tx := rfl
@[simp] theorem State.setErr_rx (b : ErrBit) : (s.setErr b).rx = s.rx := rfl
@[simp] theorem State.setErr_tlv (b : ErrBit) : (s.setErr b).tlv = s.tlv := rfl
@[simp] theorem State.setErr_err (b : ErrBit) : (s.setErr b).err = s.err ||| b.mask := rfl
@[simp] theorem State.setErr_lineTx (b : ErrBit) : (s.setErr b).lineTx = s.lineTx := rfl
@[simp] theorem State.setErr_rxOut (b : ErrBit) : (s.setErr b).rxOut = s.rxOut := rfl
@[simp] theorem State.setErr_pOut (b : ErrBit) : (s.setErr b).pOut = s.pOut := rfl
@[simp] theorem State.setErr_regOut (b : ErrBit) : (s.setErr b).regOut = s.regOut := rfl
@[simp] theorem State.setErr_inputs (b : ErrBit) : (s.setErr b).inputs = s.inputs := rfl

/-! ### `applyFrx` writes FRX and RX_OUT only. -/

@[simp] theorem State.applyFrx_cfg (r : Frx × List RxEvent) : (s.applyFrx r).cfg = s.cfg := rfl
@[simp] theorem State.applyFrx_crcVal (r : Frx × List RxEvent) : (s.applyFrx r).crcVal = s.crcVal := rfl
@[simp] theorem State.applyFrx_tx (r : Frx × List RxEvent) : (s.applyFrx r).tx = s.tx := rfl
@[simp] theorem State.applyFrx_rx (r : Frx × List RxEvent) : (s.applyFrx r).rx = r.1 := rfl
@[simp] theorem State.applyFrx_tlv (r : Frx × List RxEvent) : (s.applyFrx r).tlv = s.tlv := rfl
@[simp] theorem State.applyFrx_err (r : Frx × List RxEvent) : (s.applyFrx r).err = s.err := rfl
@[simp] theorem State.applyFrx_lineTx (r : Frx × List RxEvent) : (s.applyFrx r).lineTx = s.lineTx := rfl
@[simp] theorem State.applyFrx_rxOut (r : Frx × List RxEvent) : (s.applyFrx r).rxOut = s.rxOut ++ r.2 := rfl
@[simp] theorem State.applyFrx_pOut (r : Frx × List RxEvent) : (s.applyFrx r).pOut = s.pOut := rfl
@[simp] theorem State.applyFrx_regOut (r : Frx × List RxEvent) : (s.applyFrx r).regOut = s.regOut := rfl
@[simp] theorem State.applyFrx_inputs (r : Frx × List RxEvent) : (s.applyFrx r).inputs = s.inputs := rfl

/-! ### `applyTlvp` writes TLVP and P_OUT only. -/

@[simp] theorem State.applyTlvp_cfg (r : Tlvp × List PEvent) : (s.applyTlvp r).cfg = s.cfg := rfl
@[simp] theorem State.applyTlvp_crcVal (r : Tlvp × List PEvent) : (s.applyTlvp r).crcVal = s.crcVal := rfl
@[simp] theorem State.applyTlvp_tx (r : Tlvp × List PEvent) : (s.applyTlvp r).tx = s.tx := rfl
@[simp] theorem State.applyTlvp_rx (r : Tlvp × List PEvent) : (s.applyTlvp r).rx = s.rx := rfl
@[simp] theorem State.applyTlvp_tlv (r : Tlvp × List PEvent) : (s.applyTlvp r).tlv = r.1 := rfl
@[simp] theorem State.applyTlvp_err (r : Tlvp × List PEvent) : (s.applyTlvp r).err = s.err := rfl
@[simp] theorem State.applyTlvp_lineTx (r : Tlvp × List PEvent) : (s.applyTlvp r).lineTx = s.lineTx := rfl
@[simp] theorem State.applyTlvp_rxOut (r : Tlvp × List PEvent) : (s.applyTlvp r).rxOut = s.rxOut := rfl
@[simp] theorem State.applyTlvp_pOut (r : Tlvp × List PEvent) : (s.applyTlvp r).pOut = s.pOut ++ r.2 := rfl
@[simp] theorem State.applyTlvp_regOut (r : Tlvp × List PEvent) : (s.applyTlvp r).regOut = s.regOut := rfl
@[simp] theorem State.applyTlvp_inputs (r : Tlvp × List PEvent) : (s.applyTlvp r).inputs = s.inputs := rfl

/-! ### The reset input writes every register, and neither a port nor a parameter (R280). -/

@[simp] theorem State.applyReset_cfg : (s.applyReset).cfg = s.cfg := rfl
@[simp] theorem State.applyReset_crcVal : (s.applyReset).crcVal = Config.crcInit := rfl
@[simp] theorem State.applyReset_tx : (s.applyReset).tx = .reset := rfl
@[simp] theorem State.applyReset_rx : (s.applyReset).rx = .reset := rfl
@[simp] theorem State.applyReset_tlv : (s.applyReset).tlv = .reset := rfl
@[simp] theorem State.applyReset_err : (s.applyReset).err = 0 := rfl
@[simp] theorem State.applyReset_lineTx : (s.applyReset).lineTx = s.lineTx := rfl
@[simp] theorem State.applyReset_rxOut : (s.applyReset).rxOut = s.rxOut := rfl
@[simp] theorem State.applyReset_pOut : (s.applyReset).pOut = s.pOut := rfl
@[simp] theorem State.applyReset_regOut : (s.applyReset).regOut = s.regOut := rfl
@[simp] theorem State.applyReset_inputs : (s.applyReset).inputs = s.inputs := rfl

/-! ### `giveCommand` writes the host's list only (R21). -/

@[simp] theorem State.giveCommand_cfg (w : Command) : (s.giveCommand w).cfg = s.cfg := rfl
@[simp] theorem State.giveCommand_crcVal (w : Command) : (s.giveCommand w).crcVal = s.crcVal := rfl
@[simp] theorem State.giveCommand_tx (w : Command) : (s.giveCommand w).tx = s.tx := rfl
@[simp] theorem State.giveCommand_rx (w : Command) : (s.giveCommand w).rx = s.rx := rfl
@[simp] theorem State.giveCommand_tlv (w : Command) : (s.giveCommand w).tlv = s.tlv := rfl
@[simp] theorem State.giveCommand_err (w : Command) : (s.giveCommand w).err = s.err := rfl
@[simp] theorem State.giveCommand_lineTx (w : Command) : (s.giveCommand w).lineTx = s.lineTx := rfl
@[simp] theorem State.giveCommand_rxOut (w : Command) : (s.giveCommand w).rxOut = s.rxOut := rfl
@[simp] theorem State.giveCommand_pOut (w : Command) : (s.giveCommand w).pOut = s.pOut := rfl
@[simp] theorem State.giveCommand_regOut (w : Command) : (s.giveCommand w).regOut = s.regOut := rfl
@[simp] theorem State.giveCommand_inputs (w : Command) : (s.giveCommand w).inputs = .command w :: s.inputs := rfl

/-! ### `giving` writes the host's list only (R21). -/

@[simp] theorem State.giving_cfg (cs : List Instr) : (s.giving cs).cfg = s.cfg := rfl
@[simp] theorem State.giving_crcVal (cs : List Instr) : (s.giving cs).crcVal = s.crcVal := rfl
@[simp] theorem State.giving_tx (cs : List Instr) : (s.giving cs).tx = s.tx := rfl
@[simp] theorem State.giving_rx (cs : List Instr) : (s.giving cs).rx = s.rx := rfl
@[simp] theorem State.giving_tlv (cs : List Instr) : (s.giving cs).tlv = s.tlv := rfl
@[simp] theorem State.giving_err (cs : List Instr) : (s.giving cs).err = s.err := rfl
@[simp] theorem State.giving_lineTx (cs : List Instr) : (s.giving cs).lineTx = s.lineTx := rfl
@[simp] theorem State.giving_rxOut (cs : List Instr) : (s.giving cs).rxOut = s.rxOut := rfl
@[simp] theorem State.giving_pOut (cs : List Instr) : (s.giving cs).pOut = s.pOut := rfl
@[simp] theorem State.giving_regOut (cs : List Instr) : (s.giving cs).regOut = s.regOut := rfl
@[simp] theorem State.giving_inputs (cs : List Instr) : (s.giving cs).inputs = cs.map (fun i => .command (encode i)) ++ s.inputs := rfl

/-! ### The states the machine starts from -/

@[simp] theorem State.powerOn_cfg (c : Config) : (State.powerOn c).cfg = c := rfl
@[simp] theorem State.powerOn_crcVal (c : Config) : (State.powerOn c).crcVal = 0 := rfl
@[simp] theorem State.powerOn_tx (c : Config) : (State.powerOn c).tx = .reset := rfl
@[simp] theorem State.powerOn_rx (c : Config) : (State.powerOn c).rx = .reset := rfl
@[simp] theorem State.powerOn_tlv (c : Config) : (State.powerOn c).tlv = .reset := rfl
@[simp] theorem State.powerOn_err (c : Config) : (State.powerOn c).err = 0 := rfl
@[simp] theorem State.powerOn_lineTx (c : Config) : (State.powerOn c).lineTx = [] := rfl
@[simp] theorem State.powerOn_rxOut (c : Config) : (State.powerOn c).rxOut = [] := rfl
@[simp] theorem State.powerOn_pOut (c : Config) : (State.powerOn c).pOut = [] := rfl
@[simp] theorem State.powerOn_regOut (c : Config) : (State.powerOn c).regOut = [] := rfl
@[simp] theorem State.powerOn_inputs (c : Config) : (State.powerOn c).inputs = [] := rfl

@[simp] theorem Frx.reset_buf : Frx.reset.buf = [] := rfl
@[simp] theorem Frx.reset_esc : Frx.reset.esc = false := rfl
@[simp] theorem Frx.reset_discard : Frx.reset.discard = false := rfl
@[simp] theorem Ftx.reset_inFrame : Ftx.reset.inFrame = false := rfl
@[simp] theorem Ftx.reset_crc : Ftx.reset.crc = 0 := rfl
@[simp] theorem Tlvp.reset_mode : Tlvp.reset.mode = .tag := rfl
@[simp] theorem Tlvp.reset_stack : Tlvp.reset.stack = [] := rfl
@[simp] theorem Tlvp.reset_ntop : Tlvp.reset.ntop = 0 := rfl

end Sys2Proof.Machine
end

