-- ==== Sys2Proof/Laws/Frames.lean ====
section
/-! SUPPORT. What the CRC function and the procedures of FTX and FRX do, said once each. -/

namespace Sys2Proof.Machine

/-! ### CRC (R111, R112) -/

@[simp] theorem crcFold_nil (c : Crc) : crcFold c [] = c := rfl

@[simp] theorem crcFold_cons (c : Crc) (b : Byte) (bs : List Byte) : crcFold c (b :: bs) = crcFold (step8 c b) bs := rfl

theorem crcFold_append (c : Crc) (xs ys : List Byte) : crcFold c (xs ++ ys) = crcFold (crcFold c xs) ys := by
  simp [crcFold]

@[simp] theorem crc16_nil : crc16 [] = 0 := rfl

/-- The CRC of a longer message goes on from the CRC of its beginning. -/
theorem crc16_append (xs ys : List Byte) : crc16 (xs ++ ys) = crcFold (crc16 xs) ys := crcFold_append _ xs ys

/-- One turn of the loop distributes over exclusive OR: division is linear. -/
theorem crcShift_xor (a b : Crc) : crcShift (a ^^^ b) = crcShift a ^^^ crcShift b := by
  simp only [crcShift, BitVec.msb_xor, BitVec.shiftLeft_xor_distrib]
  generalize Config.crcPoly = g
  cases a.msb <;> cases b.msb <;> simp only [Bool.xor_self, Bool.xor_false, Bool.false_xor,
    if_true, if_false, Bool.false_eq_true]
  · ac_rfl
  · ac_rfl
  · rw [show a <<< 1 ^^^ g ^^^ (b <<< 1 ^^^ g) = (g ^^^ g) ^^^ (a <<< 1 ^^^ b <<< 1) by ac_rfl, BitVec.xor_self,
      BitVec.zero_xor]

theorem crcShiftTimes_xor (n : Nat) (a b : Crc) :
    crcShiftTimes n (a ^^^ b) = crcShiftTimes n a ^^^ crcShiftTimes n b := by
  induction n generalizing a b with
  | zero => rfl
  | succ n ih => simp only [crcShiftTimes, crcShift_xor, ih]

/-! ### FRX (R151 to R157) -/

/-- Everything `rx_append` can do (R153). -/
theorem Frx.append_cases (rxMax : Word32) (v : Byte) (r : Frx) :
    (r.discard = true ∧ r.append rxMax v = (r, [])) ∨
    (r.discard = false ∧ r.buf.length = rxMax.toNat ∧
      r.append rxMax v = (⟨[], r.esc, true⟩, [.rxerr .overflow rxMax 0])) ∨
    (r.discard = false ∧ r.buf.length ≠ rxMax.toNat ∧ r.append rxMax v = (⟨r.buf ++ [v], r.esc, false⟩, [])) := by
  obtain ⟨buf, esc, discard⟩ := r
  cases discard
  · by_cases h : buf.length = rxMax.toNat <;> simp [Frx.append, h]
  · simp [Frx.append]

/-- Everything RX.BYTE can do, by the branch it takes (R151). -/
theorem Frx.byte_cases (rxMax : Word32) (x : Byte) (r : Frx) :
    (r.esc = true ∧ r.byte rxMax x = Frx.append rxMax (unescByte x) { r with esc := false }) ∨
    (r.esc = false ∧ x = 0x7D ∧ r.byte rxMax x = ({ r with esc := true }, [])) ∨
    (r.esc = false ∧ x = 0x7E ∧ r.discard = true ∧ r.byte rxMax x = ({ r with discard := false }, [])) ∨
    (r.esc = false ∧ x = 0x7E ∧ r.discard = false ∧ r.buf = [] ∧ r.byte rxMax x = (r, [])) ∨
    (r.esc = false ∧ x = 0x7E ∧ r.discard = false ∧ r.buf ≠ [] ∧ r.byte rxMax x = r.endFrame) ∨
    (r.esc = false ∧ x ≠ 0x7D ∧ x ≠ 0x7E ∧ r.byte rxMax x = r.append rxMax x) := by
  unfold Frx.byte Config.escByte Config.flagByte
  split
  · exact .inl ⟨by assumption, rfl⟩
  · next he =>
    have he : r.esc = false := by simpa using he
    split
    · exact .inr (.inl ⟨he, by assumption, rfl⟩)
    · split
      · split
        · exact .inr (.inr (.inl ⟨he, by assumption, by assumption, rfl⟩))
        · next hd =>
          have hd : r.discard = false := by simpa using hd
          split
          · exact .inr (.inr (.inr (.inl ⟨he, by assumption, hd, List.length_eq_zero_iff.1 (by assumption), rfl⟩)))
          · next hl =>
            exact .inr (.inr (.inr (.inr (.inl ⟨he, by assumption, hd, fun h => hl (by simp [h]), rfl⟩))))
      · exact .inr (.inr (.inr (.inr (.inr ⟨he, by assumption, by assumption, rfl⟩))))

/-- The verdict on a one-byte frame (R156). -/
theorem frameVerdict_short (b : Byte) : frameVerdict [b] = .rxerr .short 1 0 := rfl

/-- The verdict on a frame of at least two bytes: its payload and its received CRC split off (R155). -/
theorem frameVerdict_split (p : List Byte) (h l : Byte) :
    frameVerdict (p ++ [h, l]) =
      if crc16 p = h ++ l then .frame p
      else .rxerr .integrity ((crc16 p).setWidth 32) ((h ++ l).setWidth 32) := by
  have h1 : (p ++ [h, l]).length = p.length + 2 := by simp
  simp only [frameVerdict, h1, Nat.add_sub_cancel, show p.length + 2 - 1 = p.length + 1 from rfl,
    show ¬ p.length + 2 < 2 by omega, if_false]
  simp only [List.take_left', List.getD_eq_getElem?_getD, List.getElem?_append_right (Nat.le_refl _),
    List.getElem?_append_right (Nat.le_succ _), Nat.sub_self, Nat.succ_sub (Nat.le_refl _)]
  simp only [be16, ne_eq, ite_not, List.getElem?_cons_zero, Option.getD_some, Nat.succ_eq_add_one, Nat.zero_add,
    List.getElem?_cons_succ]

/-- A buffer of at least two bytes is a payload and two CRC bytes (R155). -/
theorem buffer_splits {buf : List Byte} (h : 2 ≤ buf.length) : ∃ (p : List Byte) (h l : Byte), buf = p ++ [h, l] := by
  refine ⟨buf.take (buf.length - 2), ?_⟩
  have hd : (buf.drop (buf.length - 2)).length = 2 := by simp; omega
  match hb : buf.drop (buf.length - 2), hd with
  | [a, b], _ => exact ⟨a, b, by rw [← hb, List.take_append_drop]⟩

end Sys2Proof.Machine
end

