-- ==== Sys2Proof/Laws/Parser.lean ====
section
/-! SUPPORT. What each procedure of the record parser can do, said once (43_tlv_parser.md R181 to R196). -/

namespace Sys2Proof.Machine

@[simp] theorem perr_fst (c : PErr) (p : Tlvp) : (p.perr c).1 = { p with mode := .error } := rfl
@[simp] theorem perr_snd (c : PErr) (p : Tlvp) : (p.perr c).2 = [.perr c] := rfl
@[simp] theorem emitBefore_fst (evs : List PEvent) (r : Tlvp × List PEvent) : (emitBefore evs r).1 = r.1 := rfl
@[simp] theorem emitBefore_snd (evs : List PEvent) (r : Tlvp × List PEvent) : (emitBefore evs r).2 = evs ++ r.2 := rfl
@[simp] theorem emitBefore_nil (r : Tlvp × List PEvent) : emitBefore [] r = r := rfl
@[simp] theorem emitBefore_emitBefore (xs ys : List PEvent) (r : Tlvp × List PEvent) :
    emitBefore xs (emitBefore ys r) = emitBefore (xs ++ ys) r := by simp [emitBefore]

/-! ### Header bytes (R183) -/

@[simp] theorem takeFromTop_nil {p : Tlvp} (n : Word32) (h : p.stack = []) : p.takeFromTop n = p := by
  simp [Tlvp.takeFromTop, h]

@[simp] theorem takeFromTop_cons {p : Tlvp} {top : StackEntry} {below : List StackEntry} (n : Word32)
    (h : p.stack = top :: below) :
    p.takeFromTop n = { p with stack := { top with rem := top.rem - n } :: below } := by
  simp [Tlvp.takeFromTop, h]

/-- `takeFromTop` writes P_STACK only, and keeps its depth. -/
theorem takeFromTop_frame (n : Word32) (p : Tlvp) :
    p.takeFromTop n = { p with stack := (p.takeFromTop n).stack } ∧ (p.takeFromTop n).stack.length = p.stack.length := by
  match h : p.stack with
  | [] => rw [takeFromTop_nil n h, h]; exact ⟨by rw [← h], rfl⟩
  | top :: below => rw [takeFromTop_cons n h]; exact ⟨rfl, rfl⟩

/-- Everything `split_check` can do (R183). -/
theorem splitCheck_cases (p : Tlvp) :
    ((∀ top below, p.stack = top :: below → top.rem ≠ 0) ∧ p.splitCheck = (p, [])) ∨
    (∃ top below, p.stack = top :: below ∧ top.rem = 0 ∧ p.splitCheck = p.perr .container) := by
  match h : p.stack with
  | [] => exact .inl ⟨by simp, by simp [Tlvp.splitCheck, h]⟩
  | top :: below =>
    by_cases hr : top.rem = 0
    · exact .inr ⟨top, below, rfl, hr, by simp [Tlvp.splitCheck, h, hr]⟩
    · refine .inl ⟨?_, by simp only [Tlvp.splitCheck, h, if_neg hr]⟩
      rintro t b he
      rw [List.cons.injEq] at he
      rw [← he.1]; exact hr

/-! ### Completion (R193) -/

/-- The closes `complete()` emits when it closes the containers of `d - 1` down to `d - n`. -/
def closesFrom (d : Nat) : Nat → List PEvent
  | 0 => []
  | n + 1 => .close (depthByte (d - 1)) :: closesFrom (d - 1) n

/-- No close is an error or an END. -/
theorem closesFrom_plain (d n : Nat) : (closesFrom d n).all (fun e => !e.isError && !e.isEnd) = true := by
  induction n generalizing d with
  | zero => rfl
  | succ n ih => simp only [closesFrom, List.all_cons, ih]; rfl

/-- Everything `complete()` can do, after closing `n` containers: a top-level record is complete, or a container goes on
with content left, or a Map lacks a value. Only P_MODE, P_STACK and P_NTOP are written. -/
theorem completeIn_cases (p : Tlvp) (st : List StackEntry) : ∃ n ≤ st.length,
    (n = st.length ∧ p.completeIn st =
      ({ p with stack := [], ntop := p.ntop + 1, mode := .tag }, closesFrom st.length n ++ [.top (p.ntop + 1)])) ∨
    (∃ top below, st.drop n = top :: below ∧ top.rem ≠ 0 ∧ p.completeIn st =
      ({ p with stack := { top with odd := !top.odd } :: below, mode := .tag }, closesFrom st.length n)) ∨
    (∃ top below, st.drop n = top :: below ∧ top.rem = 0 ∧ top.kind = .map ∧ top.odd = false ∧ p.completeIn st =
      ({ p with stack := { top with odd := true } :: below, mode := .error },
        closesFrom st.length n ++ [.perr .mapOdd])) := by
  induction st with
  | nil => exact ⟨0, Nat.le_refl _, .inl ⟨rfl, rfl⟩⟩
  | cons e below ih =>
    by_cases hr : e.rem = 0
    · by_cases hm : e.kind = .map ∧ e.odd = false
      · refine ⟨0, Nat.zero_le _, .inr (.inr ⟨e, below, rfl, hr, hm.1, hm.2, ?_⟩)⟩
        simp [Tlvp.completeIn, hr, hm.1, hm.2, Tlvp.perr, closesFrom]
      · have hc : p.completeIn (e :: below) = emitBefore [.close (depthByte below.length)] (p.completeIn below) := by
          simp only [Tlvp.completeIn, hr, ne_eq, not_true_eq_false, if_false]
          rw [if_neg]
          rintro ⟨hk, ho⟩
          exact hm ⟨hk, by simpa using ho⟩
        obtain ⟨n, hn, h⟩ := ih
        refine ⟨n + 1, Nat.succ_le_succ hn, ?_⟩
        rw [hc]
        obtain ⟨hl, h⟩ | ⟨t, b, hd, ht, h⟩ | ⟨t, b, hd, ht, hk, ho, h⟩ := h
        · exact .inl ⟨by simp [hl], by simp [h, emitBefore, closesFrom]⟩
        · exact .inr (.inl ⟨t, b, by simpa using hd, ht, by simp [h, emitBefore, closesFrom]⟩)
        · exact .inr (.inr ⟨t, b, by simpa using hd, ht, hk, ho, by simp [h, emitBefore, closesFrom]⟩)
    · exact ⟨0, Nat.zero_le _, .inr (.inl ⟨e, below, rfl, hr, by simp only [Tlvp.completeIn, ne_eq, hr, not_false_eq_true, if_true, closesFrom]⟩)⟩

/-- `complete()` does what R193 says as a relation. -/
theorem complete_completion (p : Tlvp) : Completion p p.complete.1 p.complete.2 := by
  suffices h : ∀ pre st : List StackEntry, p.stack = pre ++ st → AllClose pre →
      Completion p (p.completeIn st).1
        (((List.range pre.length).map fun i => PEvent.close (BitVec.ofNat 8 (p.stack.length - 1 - i))) ++
          (p.completeIn st).2) by
    simpa [Tlvp.complete] using h [] p.stack rfl (by simp [AllClose])
  intro pre st hp hc
  induction st generalizing pre with
  | nil => exact ⟨pre, [], hp, hc, by simp [Tlvp.completeIn]⟩
  | cons e below ih =>
    by_cases hr : e.rem = 0
    · by_cases hm : e.kind = .map ∧ e.odd = false
      · exact ⟨pre, e :: below, hp, hc, .inr ⟨⟨hr, hm⟩, by simp [Tlvp.completeIn, hr, hm.1, hm.2, Tlvp.perr]⟩⟩
      · have hcc : p.completeIn (e :: below) = emitBefore [.close (depthByte below.length)] (p.completeIn below) := by
          simp only [Tlvp.completeIn, hr, ne_eq, not_true_eq_false, if_false]
          rw [if_neg]
          rintro ⟨hk, ho⟩
          exact hm ⟨hk, by simpa using ho⟩
        have h := ih (pre ++ [e]) (by simp [hp]) (by
          intro x hx
          rw [List.mem_append, List.mem_singleton] at hx
          rcases hx with hx | rfl
          · exact hc x hx
          · exact ⟨hr, fun hk => by by_contra ho; exact hm ⟨hk, by simpa using ho⟩⟩)
        have hl : p.stack.length - 1 - pre.length = below.length := by rw [hp]; simp
        rw [hcc]
        simpa [List.range_succ, hl, depthByte] using h
    · refine ⟨pre, e :: below, hp, hc, .inl ⟨hr, ?_⟩⟩
      simp only [Tlvp.completeIn, ne_eq, hr, not_false_eq_true, if_true]
      simp

/-- `hdr_consume` where R183's guard holds, as a subtraction of numbers. -/
theorem hdrConsume_eq {p : Tlvp} (hr : ∀ top below, p.stack = top :: below → 1 ≤ top.rem.toNat) :
    p.hdrConsume = { p with stack := taken 1 p.stack } := by
  unfold Tlvp.hdrConsume
  cases hs : p.stack with
  | nil => rw [takeFromTop_nil _ hs]; simp only [taken, ← hs]
  | cons top below =>
    have h1 : top.rem - 1 = BitVec.ofNat 32 (top.rem.toNat - 1) := by
      apply BitVec.eq_of_toNat_eq
      have := hr _ _ hs
      have := top.rem.isLt
      simp [BitVec.toNat_sub]; omega
    rw [takeFromTop_cons _ hs, h1]; rfl

/-- Every open container has content to come exactly when the innermost has: the others wait at least for it (R35 item 5). -/
theorem stackToCome_pos (claimed : Nat) (st : List StackEntry) :
    (∀ n ∈ stackToCome claimed st, 1 ≤ n) ↔ ∀ top below, st = top :: below → 1 ≤ top.rem.toNat + claimed := by
  induction st generalizing claimed with
  | nil => simp [stackToCome]
  | cons e below ih =>
    simp only [stackToCome, List.mem_cons, forall_eq_or_imp, ih]
    constructor
    · rintro ⟨h, -⟩ top b he
      injection he with h1 _
      rwa [← h1]
    · intro h
      have := h e below rfl
      exact ⟨this, fun _ _ _ => by omega⟩

/-! ### A complete header (R187 to R190) -/

/-- Everything `header_done(L)` can do: the first check that fails, or the header is accepted. -/
theorem headerDone_cases (maxDepth : Byte) (len : Word32) (p : Tlvp) :
    (legalWidth p.fam len = false ∧
      p.headerDone maxDepth len = Tlvp.perr .width { p with len := len }) ∨
    (legalWidth p.fam len = true ∧ p.overruns len = true ∧
      p.headerDone maxDepth len = Tlvp.perr .container { p with len := len }) ∨
    (legalWidth p.fam len = true ∧ p.overruns len = false ∧
      (p.fam.isContainer = true ∧ len ≠ 0 ∧ p.depth = maxDepth.toNat) ∧
      p.headerDone maxDepth len = Tlvp.perr .depth { p with len := len }) ∨
    (legalWidth p.fam len = true ∧ p.overruns len = false ∧
      ¬ (p.fam.isContainer = true ∧ len ≠ 0 ∧ p.depth = maxDepth.toNat) ∧
      p.headerDone maxDepth len = Tlvp.acceptHeader len { p with len := len }) := by
  have ho : Tlvp.overruns len { p with len := len } = p.overruns len := rfl
  have hd : Tlvp.depth { p with len := len } = p.depth := rfl
  simp only [Tlvp.headerDone, ho, hd]
  cases hw : legalWidth p.fam len
  · simp
  · cases hov : p.overruns len
    · by_cases hc : p.fam.isContainer = true ∧ len ≠ 0 ∧ p.depth = maxDepth.toNat
      · exact .inr (.inr (.inl ⟨rfl, rfl, hc, by
          rw [if_neg (by decide), if_neg Bool.false_ne_true, if_pos hc]⟩))
      · refine .inr (.inr (.inr ⟨rfl, rfl, hc, ?_⟩))
        simp only [not_true_eq_false, if_false, Bool.false_eq_true, if_neg hc]
    · simp

/-- What an accepted header leads to (R187): an empty container, an open one, an empty scalar, or content to come. -/
theorem acceptHeader_cases (len : Word32) (p : Tlvp) :
    (p.fam.isContainer = true ∧ len = 0 ∧ p.acceptHeader len =
      emitBefore [.hdr p.fam len (depthByte p.depth), .close (depthByte p.depth)] (p.takeFromTop len).complete) ∨
    (p.fam.isContainer = true ∧ len ≠ 0 ∧ p.acceptHeader len =
      ({ p.takeFromTop len with stack := ⟨p.fam.kind, len, false⟩ :: (p.takeFromTop len).stack, mode := .tag },
        [.hdr p.fam len (depthByte p.depth)])) ∨
    (p.fam.isContainer = false ∧ len = 0 ∧ p.acceptHeader len =
      emitBefore (.hdr p.fam len (depthByte p.depth) :: Tlvp.finishScalar { p.takeFromTop len with acc := 0 })
        (Tlvp.complete { p.takeFromTop len with acc := 0 })) ∨
    (p.fam.isContainer = false ∧ len ≠ 0 ∧ p.acceptHeader len =
      ({ p.takeFromTop len with mode := .content, cnt := len, acc := 0, utf := .start },
        [.hdr p.fam len (depthByte p.depth)])) := by
  unfold Tlvp.acceptHeader
  by_cases h : len = 0
  · cases hc : p.fam.isContainer
    · exact .inr (.inr (.inl ⟨rfl, h, by simp only [Bool.false_eq_true, if_false, if_pos h]; rfl⟩))
    · exact .inl ⟨rfl, h, by simp only [if_true, if_pos h]; rfl⟩
  · cases hc : p.fam.isContainer
    · exact .inr (.inr (.inr ⟨rfl, h, by simp only [Bool.false_eq_true, if_false, if_neg h]; rfl⟩))
    · exact .inr (.inl ⟨rfl, h, by simp only [if_true, if_neg h]; rfl⟩)

/-! ### Content (R191) -/

/-- Everything `content_byte` can do: the String byte is refused, or the byte is taken (and emitted, for a String or
Bytes record) and the record goes on or ends. -/
theorem contentByte_cases (b : Byte) (p : Tlvp) :
    (p.fam = .string ∧ p.contentByte b = Tlvp.perr .utf8 { p with cnt := p.cnt - 1, acc := shiftInAcc p.acc b } ∧
      (utf8Step p.utf b = none ∨ ∃ u, utf8Step p.utf b = some u ∧ p.cnt - 1 = 0 ∧ u.need ≠ 0)) ∨
    (∃ u, p.fam = .string ∧ utf8Step p.utf b = some u ∧ ¬ (p.cnt - 1 = 0 ∧ u.need ≠ 0) ∧
      p.contentByte b =
        emitBefore [.byte b] (Tlvp.contentEnd { p with cnt := p.cnt - 1, acc := shiftInAcc p.acc b, utf := u })) ∨
    (p.fam = .bytes ∧ p.contentByte b =
      emitBefore [.byte b] (Tlvp.contentEnd { p with cnt := p.cnt - 1, acc := shiftInAcc p.acc b })) ∨
    (p.fam ≠ .string ∧ p.fam ≠ .bytes ∧ p.contentByte b =
      Tlvp.contentEnd { p with cnt := p.cnt - 1, acc := shiftInAcc p.acc b }) := by
  obtain ⟨mode, k, fam, len, cnt, acc, utf, stack, ntop⟩ := p
  cases fam
  case string =>
    match hu : utf8Step utf b with
    | none => exact .inl ⟨rfl, by simp [Tlvp.contentByte, hu], .inl rfl⟩
    | some u =>
      by_cases hc : cnt - 1 = 0 ∧ u.need ≠ 0
      · exact .inl ⟨rfl, by simp only [Tlvp.contentByte, hu, if_pos hc], .inr ⟨u, rfl, hc⟩⟩
      · exact .inr (.inl ⟨u, rfl, rfl, hc, by simp only [Tlvp.contentByte, hu, if_neg hc]⟩)
  case bytes => exact .inr (.inr (.inl ⟨rfl, rfl⟩))
  all_goals exact .inr (.inr (.inr ⟨by simp, by simp, rfl⟩))

/-- The end of a content byte: the record goes on, or its value is emitted and it is complete (R191). -/
theorem contentEnd_cases (p : Tlvp) :
    (p.cnt ≠ 0 ∧ p.contentEnd = (p, [])) ∨ (p.cnt = 0 ∧ p.contentEnd = emitBefore p.finishScalar p.complete) := by
  by_cases h : p.cnt = 0
  · exact .inr ⟨h, by rw [Tlvp.contentEnd, if_pos h]⟩
  · exact .inl ⟨h, by rw [Tlvp.contentEnd, if_neg h]⟩

/-- A value event is neither an error nor an END. -/
theorem finishScalar_plain (p : Tlvp) : p.finishScalar.all (fun e => !e.isError && !e.isEnd) = true := by
  unfold Tlvp.finishScalar
  cases p.fam <;> simp only <;> (try split) <;> rfl

/-! ### P.BYTE by mode (R181) -/

@[simp] theorem byte_of_error {p : Tlvp} (m b : Byte) (h : p.mode = .error) : p.byte m b = (p, []) := by
  simp [Tlvp.byte, h]
@[simp] theorem byte_of_tag {p : Tlvp} (m b : Byte) (h : p.mode = .tag) : p.byte m b = p.tagByte m b := by
  simp [Tlvp.byte, h]
@[simp] theorem byte_of_len16 {p : Tlvp} (m b : Byte) (h : p.mode = .len16) : p.byte m b = p.len16Byte m b := by
  simp [Tlvp.byte, h]
@[simp] theorem byte_of_len32 {p : Tlvp} (m b : Byte) (h : p.mode = .len32) : p.byte m b = p.len32Byte m b := by
  simp [Tlvp.byte, h]
@[simp] theorem byte_of_content {p : Tlvp} (m b : Byte) (h : p.mode = .content) : p.byte m b = p.contentByte b := by
  simp [Tlvp.byte, h]

/-! ### The commands' answers -/

/-- Every command answers a next state: no meaning stops (R250). -/
theorem exec_goes_on (i : Instr) (s : State) : ∃ t, exec i s = .next t := by
  cases i with
  | rdreg n => simp only [exec, execRdreg]; split <;> exact ⟨_, rfl⟩
  | txSof | txData d | txEof =>
    simp only [exec, execTxSof, execTxData, execTxEof]; split <;> exact ⟨_, rfl⟩
  | _ => exact ⟨_, rfl⟩

end Sys2Proof.Machine
end

