-- ==== Sys2Proof/Laws/PerInstr.lean ====
section
/-! SUPPORT. Statements made for every command, one lemma per constructor of Instr (LAWS.json). -/

namespace Sys2Proof.Laws

/-- The fields of a command's word are its opcode of R71 and its operand, 0 for a command without one (R70, R72, R75). -/
def EncodedFields.Statement (i : Instr) : Prop :=
  opField (encode i) = i.mnemonic.opcode ∧ dField (encode i) = i.operand?.getD 0

theorem EncodedFields.nop : EncodedFields.Statement .nop := ⟨opField_commandWord _ _, dField_commandWord _ _⟩
theorem EncodedFields.rdreg (n : Byte) : EncodedFields.Statement (.rdreg n) :=
  ⟨opField_commandWord _ _, dField_commandWord _ _⟩
theorem EncodedFields.crcClr : EncodedFields.Statement .crcClr := ⟨opField_commandWord _ _, dField_commandWord _ _⟩
theorem EncodedFields.crcUpd (d : Byte) : EncodedFields.Statement (.crcUpd d) :=
  ⟨opField_commandWord _ _, dField_commandWord _ _⟩
theorem EncodedFields.txSof : EncodedFields.Statement .txSof := ⟨opField_commandWord _ _, dField_commandWord _ _⟩
theorem EncodedFields.txData (d : Byte) : EncodedFields.Statement (.txData d) :=
  ⟨opField_commandWord _ _, dField_commandWord _ _⟩
theorem EncodedFields.txEof : EncodedFields.Statement .txEof := ⟨opField_commandWord _ _, dField_commandWord _ _⟩
theorem EncodedFields.rxByte (x : Byte) : EncodedFields.Statement (.rxByte x) :=
  ⟨opField_commandWord _ _, dField_commandWord _ _⟩
theorem EncodedFields.rxTmo : EncodedFields.Statement .rxTmo := ⟨opField_commandWord _ _, dField_commandWord _ _⟩
theorem EncodedFields.pStart : EncodedFields.Statement .pStart := ⟨opField_commandWord _ _, dField_commandWord _ _⟩
theorem EncodedFields.pByte (b : Byte) : EncodedFields.Statement (.pByte b) :=
  ⟨opField_commandWord _ _, dField_commandWord _ _⟩
theorem EncodedFields.pEnd : EncodedFields.Statement .pEnd := ⟨opField_commandWord _ _, dField_commandWord _ _⟩

end Sys2Proof.Laws
end

