-- ==== Sys2Proof/Laws/Run.lean ====
section
/-! SUPPORT. One step, said once (R54), and runs of several steps. -/

namespace Sys2Proof.Machine

@[simp] theorem takeInput_nil {s : State} (h : s.inputs = []) : s.takeInput = none := by
  simp [State.takeInput, h]

@[simp] theorem takeInput_cons {s : State} {x : HostInput} {rest : List HostInput} (h : s.inputs = x :: rest) :
    s.takeInput = some (x, { s with inputs := rest }) := by
  simp [State.takeInput, h]

/-- A command word whose OP is in the map runs its command. -/
theorem step_of_decodes {s : State} {w : Command} {rest : List HostInput} {i : Instr}
    (h : s.inputs = .command w :: rest) (hd : decode w = .ok i) : step s = exec i { s with inputs := rest } := by
  simp [step, takeInput_cons h, hd]

/-- A command word whose OP is not in the map is the illegal command (R232). -/
theorem step_of_rejected {s : State} {w : Command} {rest : List HostInput} {e : DecodeReject}
    (h : s.inputs = .command w :: rest) (hd : decode w = .error e) :
    step s = .next (State.setErr .illop { s with inputs := rest }) := by
  simp [step, takeInput_cons h, hd, execIllegal]

/-- Everything a step can do: nothing, a reset, the decoded command, or the illegal command. -/
theorem step_cases (s : State) :
    (s.inputs = [] ∧ step s = .next s) ∨
    (∃ rest, s.inputs = .reset :: rest ∧ step s = .next (State.applyReset { s with inputs := rest })) ∨
    (∃ w rest i, s.inputs = .command w :: rest ∧ decode w = .ok i ∧ step s = exec i { s with inputs := rest }) ∨
    (∃ w rest e, s.inputs = .command w :: rest ∧ decode w = .error e ∧
      step s = .next (State.setErr .illop { s with inputs := rest })) := by
  match h : s.inputs with
  | [] => exact .inl ⟨rfl, by simp [step, takeInput_nil h]⟩
  | .reset :: rest => exact .inr (.inl ⟨rest, rfl, by simp [step, takeInput_cons h]⟩)
  | .command w :: rest =>
    match hd : decode w with
    | .ok i => exact .inr (.inr (.inl ⟨w, rest, i, rfl, hd, step_of_decodes h hd⟩))
    | .error e => exact .inr (.inr (.inr ⟨w, rest, e, rfl, hd, step_of_rejected h hd⟩))

@[simp] theorem runSteps_zero (s : State) : runSteps 0 s = .next s := rfl

theorem runSteps_succ {s t : State} (k : Nat) (h : step s = .next t) : runSteps (k + 1) s = runSteps k t := by
  simp [runSteps, h]

/-- A run of `j + k` steps is a run of `j` steps and, from where it ends, a run of `k`. -/
theorem runSteps_add {j : Nat} {s t : State} (k : Nat) (h : runSteps j s = .next t) :
    runSteps (j + k) s = runSteps k t := by
  induction j generalizing s with
  | zero => simp only [runSteps_zero, Host.Outcome.next.injEq] at h; rw [h, Nat.zero_add]
  | succ j ih =>
    rw [Nat.succ_add]
    simp only [runSteps] at h ⊢
    match hs : step s with
    | .next u => rw [hs] at h; exact ih h
    | .fault _ | .refused _ => rw [hs] at h; cases h

/-- `runSteps` is the host's own run of `Sys2Proof.core`. -/
theorem runSteps_eq_core_run (k : Nat) (s : State) : runSteps k s = Sys2Proof.core.run k s := by
  induction k generalizing s with
  | zero => rfl
  | succ k ih =>
    match h : step s with
    | .next t =>
      have h' : Sys2Proof.core.step s = .next t := h
      simp only [runSteps, Host.Core.run, h, h']
      exact ih t
    | .fault r =>
      have h' : Sys2Proof.core.step s = .fault r := h
      simp only [runSteps, Host.Core.run, h, h']; rfl
    | .refused r =>
      have h' : Sys2Proof.core.step s = .refused r := h
      simp only [runSteps, Host.Core.run, h, h']; rfl

@[simp] theorem giving_nil (s : State) : s.giving [] = s := rfl

@[simp] theorem performs_nil (s : State) : s.performs [] = .next s := rfl

/-- The state without its next command word, when the host was about to give `i :: cs`. -/
theorem giving_cons (i : Instr) (cs : List Instr) (s : State) :
    s.giving (i :: cs) = { s.giving cs with inputs := .command (encode i) :: (s.giving cs).inputs } := rfl

/-- `exec` neither reads nor writes the host's list (R21). -/
theorem exec_inputs (i : Instr) (s : State) (xs : List HostInput) :
    exec i { s with inputs := xs } =
      match exec i s with
      | .next t => .next { t with inputs := xs }
      | .fault r => .fault r
      | .refused r => .refused r := by
  cases i with
  | rdreg n =>
    have h : State.regVal { s with inputs := xs } n = s.regVal n := rfl
    simp only [exec, execRdreg, h]
    cases s.regVal n <;> rfl
  | txSof | txData d | txEof =>
    simp only [exec, execTxSof, execTxData, execTxEof]
    cases s.tx.inFrame <;> rfl
  | _ => rfl

/-- A command leaves the host's list as it was. -/
theorem exec_keeps_inputs {i : Instr} {s t : State} (h : exec i s = .next t) : t.inputs = s.inputs := by
  have h' := exec_inputs i s s.inputs
  rw [show ({ s with inputs := s.inputs } : State) = s from rfl, h] at h'
  injection h' with h'
  rw [h']

/-- Performing `i :: cs`: the first command, then the others, once its word decodes to it. -/
theorem performs_cons {i : Instr} {s t : State} (cs : List Instr) (hd : decode (encode i) = .ok i)
    (h : exec i s = .next t) : s.performs (i :: cs) = t.performs cs := by
  have hs : step (s.giving (i :: cs)) = exec i (s.giving cs) := step_of_decodes rfl hd
  have ht : exec i (s.giving cs) = .next { t with inputs := (s.giving cs).inputs } := by
    show exec i { s with inputs := (s.giving cs).inputs } = _
    rw [exec_inputs, h]
  have hi : t.inputs = s.inputs := exec_keeps_inputs h
  show runSteps (cs.length + 1) (s.giving (i :: cs)) = runSteps cs.length (t.giving cs)
  rw [runSteps_succ cs.length (hs.trans ht)]
  simp only [State.giving, hi]

/-- Performing some commands, then others. -/
theorem performs_append {cs ds : List Instr} {s t : State} (hd : ∀ i ∈ cs, decode (encode i) = .ok i)
    (hn : ∀ (i : Instr) (u : State), ∃ v, exec i u = .next v)
    (h : s.performs cs = .next t) : s.performs (cs ++ ds) = t.performs ds := by
  induction cs generalizing s with
  | nil => simp only [performs_nil, Host.Outcome.next.injEq] at h; rw [h, List.nil_append]
  | cons i cs ih =>
    obtain ⟨v, hv⟩ := hn i s
    have hdi := hd i (by simp)
    rw [List.cons_append, performs_cons _ hdi hv]
    rw [performs_cons _ hdi hv] at h
    exact ih (fun j hj => hd j (by simp [hj])) h

end Sys2Proof.Machine
end

