-- ==== Sys2Proof/Tests/Slice0.lean ====
section
/-! SUPPORT. The model's own small tests: WellFormed refusals, words written out from the encodings of R70 and R71, one-step
tests with results from the worked examples and vectors of spec/, and for each statement a state that meets its
hypotheses. -/

namespace Sys2Proof.Tests

open Sys2Proof Sys2Proof.Machine

/-! ### Helpers -/

/-- A small block: RX_MAX = 4, MAX_DEPTH = 2. -/
def small : State := .powerOn ⟨4, 2⟩

/-- The state a command leaves (the state itself where it would stop; no command does). -/
def after (i : Instr) (s : State) : State :=
  match exec i s with
  | .next t => t
  | .fault _ | .refused _ => s

/-- The small block with other FRX registers. -/
def rxState (buf : List Byte) (esc discard : Bool) : State := { small with rx := ⟨buf, esc, discard⟩ }

/-- The small block with a frame open on FTX. -/
def inFrame : State := { small with tx := ⟨true, 0x58E5⟩ }

/-- The small block with some host inputs. -/
def given (xs : List HostInput) : State := { small with inputs := xs }

/-- The small block with its parser in a mode, over some open containers. -/
def pState (mode : PMode) (stack : List StackEntry) : State :=
  { small with tlv := { Tlvp.reset with mode := mode, stack := stack } }

/-! ### WellFormed: an ill-formed term for each check, refused -/

theorem smoke_rxMax_below_two : Config.wf ⟨1, 8⟩ = false := by decide
theorem smoke_maxDepth_zero : Config.wf ⟨4096, 0⟩ = false := by decide
theorem smoke_config_bounds_accepted : (Config.wf ⟨2, 1⟩ && Config.wf ⟨0xFFFFFFFF, 0xFF⟩) = true := by decide
theorem smoke_hex_above_byte : AsmOperand.wf (.hex 0x100) = false := by decide
theorem smoke_dec_above_byte : AsmOperand.wf (.dec 256) = false := by decide
theorem smoke_chr_not_ascii : AsmOperand.wf (.chr 'é') = false := by decide
theorem smoke_operand_on_nop : AsmLine.wf ⟨.nop, some (.dec 0)⟩ = false := by decide
theorem smoke_bad_operand_on_line : AsmLine.wf ⟨.crcUpd, some (.dec 256)⟩ = false := by decide
theorem smoke_item_bad_operand : ByteItem.wf (.operand (.hex 0x100)) = false := by decide
theorem smoke_pseudo_bad_item : Pseudo.wf (.txFrame [.str ['a'], .operand (.dec 999)]) = false := by decide

/-! ### Decoding: one word of each row of R71, written bit by bit -/

theorem test_word_nop : decode 0b0000000000000000#16 = .ok .nop := by decide
theorem test_word_rdreg : decode 0b0000000100001000#16 = .ok (.rdreg 0x08) := by decide
theorem test_word_crcClr : decode 0b0001000011111111#16 = .ok .crcClr := by decide
theorem test_word_crcUpd : decode 0b0001000100110001#16 = .ok (.crcUpd 0x31) := by decide
theorem test_word_txSof : decode 0b0010000000000000#16 = .ok .txSof := by decide
theorem test_word_txData : decode 0b0010000101111110#16 = .ok (.txData 0x7E) := by decide
theorem test_word_txEof : decode 0b0010001000000000#16 = .ok .txEof := by decide
theorem test_word_rxByte : decode 0b0011000001111101#16 = .ok (.rxByte 0x7D) := by decide
theorem test_word_rxTmo : decode 0b0011000100000000#16 = .ok .rxTmo := by decide
theorem test_word_pStart : decode 0b0100000000000000#16 = .ok .pStart := by decide
theorem test_word_pByte : decode 0b0100000111000011#16 = .ok (.pByte 0xC3) := by decide
theorem test_word_pEnd : decode 0b0100001000000000#16 = .ok .pEnd := by decide

/-- 95_test_vectors.md N9, N10: illegal words. -/
theorem test_words_illegal :
    [0xFF00#16, 0x1200#16, 0x2300#16, 0x3200#16, 0x4300#16, 0x0200#16].map decode =
      [.error (.illegalOpcode 0xFF), .error (.illegalOpcode 0x12), .error (.illegalOpcode 0x23),
       .error (.illegalOpcode 0x32), .error (.illegalOpcode 0x43), .error (.illegalOpcode 0x02)] := by decide

/-- The host's form of the same words, and its step from reset. -/
theorem test_tableWord : decodeTableWord 16 0x41C3 = some (.pByte 0xC3) ∧ decodeTableWord 16 0xFF00 = none := by decide
theorem test_fetchWord : step (State.reset.withFetchWord 16 0x1101) = exec (.crcUpd 0x01) State.reset := by rfl

/-- R75: `RDREG 0x08`, `CRC.UPD 'A'`, `TX.EOF`; P3: `P.PARSE 0x41, 0x25, 0x40, 0x82, "hi"`. -/
theorem test_assemble :
    [assemble ⟨.rdreg, some (.hex 0x08)⟩, assemble ⟨.crcUpd, some (.chr 'A')⟩, assemble ⟨.txEof, none⟩] =
      [some 0x0108#16, some 0x1141#16, some 0x2200#16] := by decide
theorem test_pseudo :
    Pseudo.assemble (.pParse [.operand (.hex 0x41), .operand (.dec 37), .operand (.hex 0x40), .operand (.hex 0x82),
      .str ['h', 'i']]) =
      some [0x4000#16, 0x4141#16, 0x4125#16, 0x4140#16, 0x4182#16, 0x4168#16, 0x4169#16, 0x4200#16] := by decide

/-! ### One step of each command; expected values from spec/95_test_vectors.md and the rules' own examples -/

/-- N2. -/
theorem test_nop : exec .nop small = .next small := by rfl
/-- P6's first read: ERROR mode (4) at depth 2 is 0x00000204; N6: an undefined number. -/
theorem test_rdreg :
    (after (.rdreg 0x05) (pState .error [⟨.list, 2, false⟩, ⟨.list, 3, false⟩])).regOut = [⟨0x05, 0x00000204⟩] ∧
    (after (.rdreg 0x0A) small).err = 0b100 := by decide
/-- R113's example. -/
theorem test_crcClr : (after .crcClr { small with crcVal := 0x31C3 }).crcVal = 0x0000 := by decide
/-- K2, K6, K11, K12. -/
theorem test_crcUpd :
    [step8 0x0000 0x01, step8 0x0000 0x10, step8 0xFFFF 0x00, step8 0x1234 0x56] = [0x1021, 0x1231, 0xE1F0, 0x3C40] := by
  decide
set_option maxRecDepth 10000 in
/-- K36, the check value of R117. -/
theorem test_crc_check_value : crc16 [0x31, 0x32, 0x33, 0x34, 0x35, 0x36, 0x37, 0x38, 0x39] = 0x31C3 := by decide
/-- X23 and X22. -/
theorem test_txSof : (after .txSof small).lineTx = [0x7E] ∧ (after .txSof inFrame).err = 0b010 := by decide
/-- R133's example: 0x7E is escaped and its CRC is taken unescaped. -/
theorem test_txData :
    (after (.txData 0x7E) { small with tx := ⟨true, 0⟩ }).lineTx = [0x7D, 0x5E] ∧
    (after (.txData 0x7E) { small with tx := ⟨true, 0⟩ }).tx = ⟨true, 0x9F59⟩ := by decide
/-- X24, and the escaped CRC byte of X8. -/
theorem test_txEof :
    (after .txEof inFrame).lineTx = [0x58, 0xE5, 0x7E] ∧
    (after .txEof { small with tx := ⟨true, 0x7E97⟩ }).lineTx = [0x7D, 0x5E, 0x97, 0x7E] := by decide
/-- V4's closing flag; V21's overflow; V6's `7D 7E`. -/
theorem test_rxByte :
    (after (.rxByte 0x7E) (rxState [0x00, 0x00] false false)).rxOut = [.frame []] ∧
    (after (.rxByte 0x05) (rxState [1, 2, 3, 4] false false)).rxOut = [.rxerr .overflow 4 0] ∧
    (after (.rxByte 0x7E) (rxState [] true false)).rx = ⟨[0x7E], false, false⟩ := by decide
set_option maxRecDepth 10000 in
/-- K31's payload with its CRC field off by one, as in V7: a = recomputed, b = received (D10). -/
theorem test_rxByte_integrity :
    (after (.rxByte 0x7E) (rxState [0x41, 0x25, 0x4A, 0x3B] false false)).rxOut =
      [.rxerr .integrity 0x4A3A 0x4A3B] := by decide
/-- R157's example. -/
theorem test_rxTmo : (after .rxTmo (rxState [0x41, 0x01] true false)).rxOut = [.rxerr .timeout 2 0] := by decide
/-- R180's example. -/
theorem test_pStart : (after .pStart (pState .error [⟨.list, 2, false⟩])).tlv = .reset := by decide
/-- T1 and T82 (CONTAINER before DEPTH). -/
theorem test_pByte :
    (after (.pByte 0x40) small).pOut = [.hdr .integer 0 0, .int 0, .top 1] ∧
    (after (.pByte 0xC2) (pState .tag [⟨.list, 1, false⟩, ⟨.list, 1, false⟩])).pOut = [.perr .container] := by decide
/-- The last byte of T4 (-128), and the last byte of T36 (a surrogate). -/
theorem test_pByte_content :
    (after (.pByte 0x80) { small with tlv := { Tlvp.reset with mode := .content, fam := .integer, len := 1, cnt := 1 } }).pOut =
      [.int (BitVec.ofInt 64 (-128)), .top 1] ∧
    (after (.pByte 0xA0) { small with tlv := { Tlvp.reset with
      mode := .content, fam := .string, len := 3, cnt := 2, utf := ⟨2, 0x80, 0x9F⟩ } }).pOut = [.perr .utf8] := by decide
/-- The end state of P6 (`C3 41`: CONTENT with rem 1, the content being claimed at the header), and R187 on `C2 41`: the
List's rem is 0 in CONTENT, with one byte of its content still to come; on `C3 C2`, the first two bytes of T62 and P6, the
outer List's rem is 0 in TAG, with two (log entry 17). -/
theorem test_claimed_container :
    (after (.pByte 0x41) (pState .tag [⟨.list, 3, false⟩])).tlv.mode = .content ∧
    (after (.pByte 0x41) (pState .tag [⟨.list, 3, false⟩])).tlv.stack = [⟨.list, 1, false⟩] ∧
    (after (.pByte 0x41) (pState .tag [⟨.list, 2, false⟩])).tlv.mode = .content ∧
    (after (.pByte 0x41) (pState .tag [⟨.list, 2, false⟩])).tlv.stack = [⟨.list, 0, false⟩] ∧
    (after (.pByte 0x41) (pState .tag [⟨.list, 2, false⟩])).tlv.contentToCome = [1] ∧
    (after (.pByte 0xC2) (pState .tag [⟨.list, 3, false⟩])).tlv.mode = .tag ∧
    (after (.pByte 0xC2) (pState .tag [⟨.list, 3, false⟩])).tlv.stack = [⟨.list, 2, false⟩, ⟨.list, 0, false⟩] ∧
    (after (.pByte 0xC2) (pState .tag [⟨.list, 3, false⟩])).tlv.contentToCome = [2, 2] := by decide
/-- T90 and T94. -/
theorem test_pEnd :
    (after .pEnd small).pOut = [.endBuffer 0] ∧
    (after .pEnd (pState .tag [⟨.list, 1, true⟩])).pOut = [.perr .trunc] := by decide
/-- T62, the 16-bit tier of T55, the 32-bit tier of T54: the record format as trees writes the spec's bytes. -/
theorem test_record_bytes :
    Rec.bytes (.node .list .inline [.node .list .inline [.leaf .integer .inline [0x01]]]) = [0xC3, 0xC2, 0x41, 0x01] ∧
    Rec.bytes (.leaf .string .ext16 [0x68, 0x69]) = [0x9F, 0x00, 0x02, 0x68, 0x69] ∧
    Rec.bytes (.leaf .bytes .ext32 [0x01]) = [0xBF, 0xFF, 0xFF, 0x00, 0x00, 0x00, 0x01, 0x01] := by decide

/-! ### Witnesses: for each statement with hypotheses, states and operands that meet them -/

theorem small_inv : small.Inv :=
  ⟨by decide, by decide, by decide, by decide, by decide, (fun _ _ _ h => nomatch h), by decide, by decide⟩

/-- A small block's parser meets the invariants when these plain checks pass. -/
theorem parser_inv (p : Tlvp) (hc : p.mode = .content → 1 ≤ p.cnt.toNat) (hk : p.mode = .len16 → p.k.toNat ≤ 1)
    (hr : ∀ e ∈ p.stack, 1 ≤ e.rem.toNat) (hd : p.stack.length ≤ 2) : State.Inv { small with tlv := p } :=
  have room : ∀ top below, p.stack = top :: below → 1 ≤ top.rem.toNat := fun _ _ h => hr _ (h ▸ List.mem_cons_self ..)
  ⟨small_inv.parameters, small_inv.discardEmpty, small_inv.bufferFits, hc, hk, fun _ => room,
    fun _ => (stackToCome_pos _ _).2 fun top below h => Nat.le_trans (room top below h) (Nat.le_add_right ..), hd⟩

/-- R73's ranges at their ends, and the hypotheses of the second clause. -/
theorem witness_IllegalWordsOnlySetIllop :
    ([0x02, 0x0F, 0x12, 0x1F, 0x23, 0x2F, 0x32, 0x3F, 0x43, 0xFF].all fun op : Byte =>
      decode (commandWord op 0x00) == .error (.illegalOpcode op)) = true ∧
    ([0x01, 0x10, 0x11, 0x20, 0x22, 0x30, 0x31, 0x40, 0x42].all fun op : Byte =>
      decode (commandWord op 0x00) != .error (.illegalOpcode op)) = true ∧
    decode 0xFF00#16 = .error (.illegalOpcode (opField 0xFF00#16)) ∧
    (given [.command 0xFF00#16]).inputs = [.command 0xFF00#16] := by decide
theorem witness_DecodeAndEncodeAgree : decode 0x20FF#16 = .ok .txSof ∧ decode 0x21FF#16 = .ok (.txData 0xFF) := by decide
/-- Each form at the end of its range and one above, an operand on a command that takes none, and byte lists; the UTF-8
bytes of U+0041, U+00E9, U+20AC and U+1F600 as the Unicode Standard gives them. -/
theorem witness_AssembledWordsDecode :
    assemble ⟨.txData, some (.hex 0xFF)⟩ = some 0x21FF#16 ∧ assemble ⟨.txData, some (.hex 0x100)⟩ = none ∧
    assemble ⟨.pByte, some (.dec 255)⟩ = some 0x41FF#16 ∧ assemble ⟨.pByte, some (.dec 256)⟩ = none ∧
    assemble ⟨.crcUpd, some (.chr '~')⟩ = some 0x117E#16 ∧ assemble ⟨.crcUpd, some (.chr 'é')⟩ = none ∧
    assemble ⟨.txSof, some (.hex 0)⟩ = none ∧ assemble ⟨.rdreg, none⟩ = some 0x0100#16 ∧
    (Pseudo.crcOf [.operand (.hex 0x1FF)]).assemble = none ∧
    (Pseudo.rxFeed [.operand (.hex 0xFF), .str ['é']]).assemble = some [0x30FF#16, 0x30C3#16, 0x30A9#16] ∧
    [0x41, 0xE9, 0x20AC, 0x1F600].map utf8OfCodePoint =
      [[0x41], [0xC3, 0xA9], [0xE2, 0x82, 0xAC], [0xF0, 0x9F, 0x98, 0x80]] := by decide
theorem witness_StepRunsTheDecodedCommand :
    (given [.command 0x1101#16, .reset]).inputs = .command 0x1101#16 :: [.reset] ∧
    decode 0x1101#16 = .ok (.crcUpd 0x01) := by decide
theorem witness_PowerOnHoldsTheResetValues : inFrame.cfg = ⟨4, 2⟩ := by decide
theorem witness_ResetInputRestoresEveryRegister :
    (given [.reset]).inputs = .reset :: [] ∧ (given [.reset, .reset]).inputs = .reset :: .reset :: [] := by decide
theorem witness_IdleStepChangesNothing : inFrame.inputs = [] := by decide
theorem witness_InvariantsHoldAtPowerOn :
    Config.wf ⟨2, 1⟩ = true ∧ Config.wf ⟨0xFFFFFFFF, 0xFF⟩ = true := by decide
theorem witness_EveryStepKeepsTheInvariants :
    (given [.command 0x41C3#16]).Inv ∧
    step (given [.command 0x41C3#16]) = .next (after (.pByte 0xC3) small) :=
  ⟨⟨by decide, by decide, by decide, by decide, by decide, (fun _ _ _ h => nomatch h), by decide, by decide⟩, by rfl⟩
theorem witness_EveryContainerKeepsRoomAsWritten :
    (given [.command 0x41C3#16]).Inv ∧ (given [.command 0x41C3#16]).EveryContainerHasRoom ∧
    step (given [.command 0x41C3#16]) = .next (after (.pByte 0xC3) small) :=
  ⟨witness_EveryStepKeepsTheInvariants.1, fun _ e h => (List.not_mem_nil h).elim, by rfl⟩
theorem witness_ErrorBits_illop : step (given [.command 0xFF00#16]) = .next { small with err := 0b001 } := by rfl
theorem witness_ErrorBits_txseq : step (given [.command 0x2155#16]) = .next { small with err := 0b010 } := by rfl
theorem witness_ErrorBits_badreg : step (given [.command 0x010A#16]) = .next { small with err := 0b100 } := by rfl
theorem witness_ErrorBits_none :
    step (given [.command 0x0109#16]) = .next { small with regOut := [⟨0x09, 0x00000002⟩] } := by rfl
theorem witness_ErrorBits_idle : small.inputs = [] ∧ step small = .next small := ⟨by decide, by rfl⟩
theorem witness_ErrorBits_reset : step { small with err := 0b111, inputs := [.reset] } = .next small := by rfl
theorem witness_ParametersNeverChange :
    runSteps 2 (given [.command 0x2000#16, .reset]) = .next { small with lineTx := [0x7E] } := by rfl
theorem witness_PortsOnlyGrowOneAtATime :
    step (given [.command 0x2000#16]) = .next { small with lineTx := [0x7E], tx := ⟨true, 0⟩ } := by rfl
theorem witness_CommandsWriteOnlyTheirUnit :
    exec (.rdreg 0x08) small = .next { small with regOut := [⟨0x08, 0x00000004⟩] } ∧
    exec (.crcUpd 0x01) small = .next { small with crcVal := 0x1021 } ∧
    exec .txSof small = .next { small with lineTx := [0x7E], tx := ⟨true, 0⟩ } ∧
    exec (.rxByte 0x41) small = .next { small with rx := ⟨[0x41], false, false⟩ } ∧
    exec .pEnd small = .next { small with pOut := [.endBuffer 0] } := ⟨by rfl, by rfl, by rfl, by rfl, by rfl⟩
/-- Two units' commands in turn, and FRX's alone. -/
theorem witness_UnitsAreIndependent :
    runSteps 3 (given [.command 0x3041#16, .command 0x1101#16, .command 0x3042#16]) =
      .next { small with crcVal := 0x1021, rx := ⟨[0x41, 0x42], false, false⟩ } ∧
    [.command 0x3041#16, .command 0x1101#16, .command 0x3042#16].filter (HostInput.concerns .frx) =
      [.command 0x3041#16, .command 0x3042#16] ∧
    runSteps 2 (given [.command 0x3041#16, .command 0x3042#16]) =
      .next { small with rx := ⟨[0x41, 0x42], false, false⟩ } := ⟨by rfl, by decide, by rfl⟩
/-- The ends of RDREG's two ranges, a command of each other clause, and the commands R57 excepts or should have. -/
theorem witness_CommandsHaveEffectsAndRepeat :
    (0x09 : Byte).toNat ≤ 0x09 ∧ 0x0A ≤ (0x0A : Byte).toNat ∧ Instr.txSof ≠ .nop ∧ (∀ n, Instr.txSof ≠ .rdreg n) ∧
    Instr.txSof ≠ .crcClr ∧ Instr.txSof ≠ .pStart ∧ small.crcVal = 0x0000 ∧ (0x01 : Byte) ≠ 0x00 :=
  ⟨by decide, by decide, by decide, fun _ h => (nomatch h), by decide, by decide, by decide, by decide⟩
theorem witness_NoOtherCommandIsIdempotentAsWritten : Instr.crcUpd 0x01 ≠ .nop ∧ (∀ n, Instr.crcUpd 0x01 ≠ .rdreg n) :=
  ⟨by decide, fun _ h => (nomatch h)⟩
/-- R57's words against R113 and its corner case ("CRC.CLR when CRC_VAL is already 0 leaves it 0"), R180, R195 and R154. -/
theorem test_idempotent_commands :
    exec .crcClr small = .next small ∧ exec .pStart small = .next small ∧
    exec (.pByte 0x40) (pState .error []) = .next (pState .error []) ∧ exec (.rxByte 0x7E) small = .next small :=
  ⟨by rfl, by rfl, by rfl, by rfl⟩
theorem witness_OneCommandReportsAtMostOneError :
    exec .rxTmo small = .next { small with rxOut := [.rxerr .timeout 0 0] } ∧
    (after (.pByte 0x43) small).pOut = [] ++ [.perr .width] := ⟨by rfl, by decide⟩
/-- The ends of R34's two ranges, and registers 4 and 5. -/
theorem witness_RdregReadsTheRegisterMap :
    (0x00 : Byte).toNat ≤ 0x09 ∧ (0x09 : Byte).toNat ≤ 0x09 ∧ 0x0A ≤ (0x0A : Byte).toNat ∧ 0x0A ≤ (0xFF : Byte).toNat ∧
    (after (.rdreg 0x00) { small with crcVal := 0x31C3 }).regOut = [⟨0x00, 0x000031C3⟩] ∧
    (after (.rdreg 0x04) (rxState [1, 2] false false)).regOut = [⟨0x04, 2⟩] ∧
    (after (.rdreg 0x03) (rxState [] true true)).regOut = [⟨0x03, 3⟩] ∧
    (after (.rdreg 0xFF) small).err = 0b100 := by decide
theorem witness_TxCommandsDoAsTheirRules : small.tx.inFrame = false ∧ inFrame.tx.inFrame = true := by decide
set_option maxRecDepth 10000 in
theorem witness_TxFrameSendsTheWireFrame :
    small.tx.inFrame = false ∧ wireFrame [0x7E, 0x7D, 0x20] = [0x7E, 0x7D, 0x5E, 0x7D, 0x5D, 0x20, 0x99, 0x6E, 0x7E] := by decide
theorem witness_SentFrameHasNoInnerDelimiter :
    small.tx.inFrame = false ∧
    small.performs (txFrameCommands [0x70]) =
      .next { small with lineTx := [0x7E, 0x70, 0x7D, 0x5E, 0x97, 0x7E], tx := ⟨false, 0x7E97⟩ } := ⟨by decide, by rfl⟩
/-- The three clauses of the data byte: dropped, at the buffer's end, and one below it; escaped and plain. -/
theorem witness_RxDataByteIsAppended :
    ((rxState [] true true).rx.esc = true ∧ (0x7E : Byte) = 0x5E ||| 0x20 ∧ (rxState [] true true).rx.discard = true) ∧
    ((rxState [1, 2, 3, 4] false false).rx.esc = false ∧ (0x05 : Byte) ≠ 0x7D ∧ (0x05 : Byte) ≠ 0x7E ∧
      (rxState [1, 2, 3, 4] false false).rx.buf.length = small.cfg.rxMax.toNat) ∧
    (rxState [1, 2, 3] false false).rx.buf.length ≠ small.cfg.rxMax.toNat := by decide
theorem witness_RxEscapeResyncAndIdle :
    (rxState [] false true).rx.esc = false ∧ (rxState [] false true).rx.discard = true ∧
    small.rx.esc = false ∧ small.rx.discard = false ∧ small.rx.buf = [] := by decide
/-- One byte; two bytes that are the empty payload's CRC, and two that are not. -/
theorem witness_RxDelimiterEndsTheFrame :
    ((rxState [0x41] false false).rx.esc = false ∧ (rxState [0x41] false false).rx.discard = false ∧
      (rxState [0x41] false false).rx.buf = [0x41]) ∧
    ((rxState [0x00, 0x00] false false).rx.buf = [] ++ [0x00, 0x00] ∧ crc16 [] = (0x00 : Byte) ++ (0x00 : Byte)) ∧
    ((rxState [0x00, 0x01] false false).rx.buf = [] ++ [0x00, 0x01] ∧ crc16 [] ≠ (0x00 : Byte) ++ (0x01 : Byte)) := by decide
theorem witness_DeliveredFramePassedItsCrc :
    exec (.rxByte 0x7E) (rxState [0x41, 0x58, 0xE5] false false) = .next { small with rxOut := [.frame [0x41]] } := by rfl
theorem witness_ReceiveErrors_integrity :
    exec (.rxByte 0x7E) (rxState [0x00, 0x01] false false) = .next { small with rxOut := [.rxerr .integrity 0 1] } := by rfl
theorem witness_ReceiveErrors_timeout :
    exec .rxTmo (rxState [0x41, 0x01] true false) = .next { small with rxOut := [.rxerr .timeout 2 0] } := by rfl
theorem witness_ReceiveErrors_short :
    exec (.rxByte 0x7E) (rxState [0x41] false false) = .next { small with rxOut := [.rxerr .short 1 0] } := by rfl
theorem witness_ReceiveErrors_overflow :
    exec (.rxByte 0x05) (rxState [1, 2, 3, 4] false false) =
      .next { small with rx := ⟨[], false, true⟩, rxOut := [.rxerr .overflow 4 0] } := by rfl
/-- A payload of exactly RX_MAX - 2 bytes. -/
theorem witness_RxReceivesTheWireFrame :
    small.rx = ⟨[], false, false⟩ ∧ ([0x12, 0x34] : List Byte).length + 2 ≤ small.cfg.rxMax.toNat := by decide
theorem witness_LineNoiseEndsAtTheOpeningDelimiter :
    small.rx = ⟨[], false, false⟩ ∧ ([0x41] : List Byte) ≠ [] ∧ (∀ x ∈ ([0x41] : List Byte), x ≠ 0x7D ∧ x ≠ 0x7E) ∧
    ([0x41] : List Byte).length ≤ small.cfg.rxMax.toNat ∧ ([] : List Byte).length + 2 ≤ small.cfg.rxMax.toNat := by decide
theorem witness_UnescapingInvertsEscaping :
    (rxState [1] false false).rx.esc = false ∧ (rxState [1] false false).rx.discard = false ∧
    (rxState [1] false false).rx.buf.length + ([0x7E, 0x7D, 0x20] : List Byte).length ≤ small.cfg.rxMax.toNat := by decide
theorem witness_DiscardModeEndsAtTheNextDelimiter :
    (rxState [] false true).rx = ⟨[], false, true⟩ ∧
    (∀ u ∈ ([[0x41], [0x7D, 0x7E]] : List (List Byte)),
      (∃ x : Byte, u = [x] ∧ x ≠ 0x7D ∧ x ≠ 0x7E) ∨ (∃ x : Byte, u = [0x7D, x])) := by
  refine ⟨by decide, fun u hu => ?_⟩
  rcases List.mem_cons.1 hu with rfl | hu
  · exact .inl ⟨0x41, rfl, by decide, by decide⟩
  · exact .inr ⟨0x7E, List.mem_singleton.1 hu⟩
theorem witness_EscapedBitFiveFlipIsUndetected : (rxState [] true false).rx.esc = true := by decide
/-- ERROR mode; a record boundary; inside a header; a container open. -/
theorem witness_ParserStartAndEnd :
    (pState .error []).tlv.mode = .error ∧ (small.tlv.mode = .tag ∧ small.tlv.stack = []) ∧
    ((pState .len16 []).tlv.mode ≠ .error ∧ (pState .len16 []).tlv.mode ≠ .tag) ∧
    ((pState .tag [⟨.list, 1, false⟩]).tlv.mode ≠ .error ∧ (pState .tag [⟨.list, 1, false⟩]).tlv.stack ≠ []) := by decide
theorem witness_ErrorModeIgnoresBytes : (pState .error [⟨.map, 1, true⟩]).tlv.mode = .error := by decide
/-- The invariant with a container open, as the header statement needs it. -/
theorem witness_InlineHeaderChecksInOrder :
    (pState .tag [⟨.list, 1, false⟩]).Inv ∧ (pState .tag [⟨.list, 1, false⟩]).tlv.mode = .tag ∧ 30 ≤ 30 :=
  ⟨parser_inv _ (by decide) (by decide) (by decide) (by decide), by decide, by decide⟩
/-- Its four clauses at their edges: width 3 of an Integer; content one over what is left; a non-empty List at depth
MAX_DEPTH; content exactly what is left. -/
theorem witness_InlineHeader_clauses :
    (after (.pByte (tagOf .integer 3)) small).pOut = [.perr .width] ∧
    (after (.pByte (tagOf .bytes 1)) (pState .tag [⟨.list, 1, false⟩])).pOut = [.perr .container] ∧
    (after (.pByte (tagOf .list 1)) (pState .tag [⟨.list, 2, false⟩, ⟨.list, 0, false⟩])).pOut = [.perr .depth] ∧
    (after (.pByte (tagOf .bytes 1)) (pState .tag [⟨.list, 2, false⟩])).pOut = [.hdr .bytes 1 1] := by decide
/-- The second byte of a 16-bit extension at both ends of its range, and the fourth of a 32-bit one. -/
theorem witness_ExtendedHeaderChecksInOrder :
    (State.Inv { small with tlv := { Tlvp.reset with mode := .len16, fam := .bytes, k := 1, len := 0xFF, stack := [⟨.list, 1, false⟩] } } ∧
      (0xFF#32).toNat = (0xFF#8).toNat ∧ beNat [0xFF, 0xFE] = 0xFFFE ∧ beNat [0x00, 0x00] ≠ 0xFFFF) ∧
    (State.Inv { small with tlv := { Tlvp.reset with mode := .len32, fam := .bytes, k := 3, len := 0xFFFFFF } } ∧
      (0xFFFFFF#32).toNat = beNat [0xFF, 0xFF, 0xFF] ∧ beNat [0xFF, 0xFF, 0xFF, 0xFF] = 2 ^ 32 - 1) :=
  ⟨⟨parser_inv _ (by decide) (by decide) (by decide) (by decide), by decide, by decide, by decide⟩,
   parser_inv _ (by decide) (by decide) (by decide) (by decide), by decide, by decide⟩
/-- T69 and T70: a header split at its container's end; the marker; and a byte of the 32-bit extension with room left. -/
theorem witness_IncompleteHeaderBytesAreChecked :
    ((pState .tag [⟨.list, 1, false⟩]).Inv ∧ (0x9F : Byte) = tagOf .string 31 ∧
      (after (.pByte 0x9F) (pState .tag [⟨.list, 1, false⟩])).pOut = [.perr .container]) ∧
    ((pState .len16 [⟨.list, 1, false⟩]).Inv ∧ (pState .len16 []).tlv.k = 0 ∧
      (after (.pByte 0x00) (pState .len16 [⟨.list, 1, false⟩])).pOut = [.perr .container]) ∧
    (State.Inv { small with tlv := { Tlvp.reset with mode := .len16, k := 1, len := 0xFF } }) ∧
    ((pState .len32 [⟨.list, 2, false⟩]).Inv ∧ (pState .len32 []).tlv.k.toNat < 3 ∧
      (after (.pByte 0x01) (pState .len32 [⟨.list, 2, false⟩])).tlv.len = 1) :=
  ⟨⟨parser_inv _ (by decide) (by decide) (by decide) (by decide), by decide, by decide⟩,
   ⟨parser_inv _ (by decide) (by decide) (by decide) (by decide), by decide, by decide⟩,
   parser_inv _ (by decide) (by decide) (by decide) (by decide),
   parser_inv _ (by decide) (by decide) (by decide) (by decide), by decide, by decide⟩
/-- The small block inside the content of a String, `cnt` bytes before its end. -/
def inText (cnt : Word32) (utf : Utf8) : State :=
  { small with tlv := { Tlvp.reset with mode := .content, fam := .string, len := 3, cnt := cnt, utf := utf } }
/-- T34 (a byte no text has), T35 (the end inside a character), and a byte that is delivered. -/
theorem witness_ContentBytesAreDelivered :
    (inText 2 .start).Inv ∧ (inText 2 .start).tlv.mode = .content ∧
    SpoilsText (inText 2 .start).tlv 0xC0 ∧ (after (.pByte 0xC0) (inText 2 .start)).pOut = [.perr .utf8] ∧
    SpoilsText (inText 1 .start).tlv 0xC3 ∧ (after (.pByte 0xC3) (inText 1 .start)).pOut = [.perr .utf8] ∧
    ¬ SpoilsText (inText 2 .start).tlv 0xC3 ∧ (after (.pByte 0xC3) (inText 2 .start)).pOut = [.byte 0xC3] :=
  ⟨parser_inv _ (by decide) (by decide) (by decide) (by decide), by decide,
   ⟨rfl, rfl, .inl (by decide)⟩, by decide, ⟨rfl, rfl, .inr ⟨rfl, _, rfl, by decide⟩⟩, by decide,
   fun h => h.2.2.elim (by decide) fun h => absurd h.1 (by decide), by decide⟩
theorem witness_EveryParserByteIsConsumed : small.tlv.mode ≠ .error ∧ (pState .error []).tlv.mode = .error := by decide
/-- The greatest length of each tier, and the least. -/
theorem witness_SizeExtensionsAreBigEndian :
    small.tlv.mode = .tag ∧ small.tlv.stack = [] ∧ SizeTier.fits .inline 30 = true ∧ SizeTier.fits .ext16 0xFFFE = true ∧
    SizeTier.fits .ext32 0xFFFFFFFF = true ∧ SizeTier.fits .ext32 1 = true ∧ SizeTier.fits .ext16 0xFFFF = false := by decide
theorem witness_IntegerContentIsSignedBigEndian :
    small.tlv.mode = .tag ∧ small.tlv.stack = [] ∧ ([] : List Byte).length = 0 ∧ ([0x80] : List Byte).length = 1 ∧
    beInt [0x80] = -128 ∧ beInt [0x00, 0x80] = 128 ∧ beInt [] = 0 := by decide
theorem witness_LastSubRecordClosesItsContainer :
    ((pState .tag [⟨.map, 1, true⟩]).tlv.mode = .tag ∧ (pState .tag [⟨.map, 1, true⟩]).tlv.stack = [⟨.map, 1, true⟩]) ∧
    (pState .tag [⟨.map, 1, false⟩]).tlv.stack = [⟨.map, 1, false⟩] ∧
    (pState .tag [⟨.list, 1, false⟩]).tlv.stack = [⟨.list, 1, false⟩] := by decide
theorem witness_DecodingErrors_width :
    (after (.pByte 0x01) small).pOut = small.pOut ++ [.perr .width] ∧ (after (.pByte 0x01) small).tlv.mode = .error := by decide
/-- The other four of P.BYTE: T69 (a split header), a non-empty List at depth 2 as in T80, T35, and a Map's key that ends on a content
byte with no value after it. -/
theorem witness_DecodingErrors_cases :
    ((pState .tag [⟨.list, 1, false⟩]).Inv ∧
      (after (.pByte 0x9F) (pState .tag [⟨.list, 1, false⟩])).pOut = [] ++ [.perr .container]) ∧
    ((pState .tag [⟨.list, 2, false⟩, ⟨.list, 1, false⟩]).Inv ∧
      (after (.pByte 0xC1) (pState .tag [⟨.list, 2, false⟩, ⟨.list, 1, false⟩])).pOut = [] ++ [.perr .depth]) ∧
    ((inText 1 .start).Inv ∧ (after (.pByte 0xC3) (inText 1 .start)).pOut = [] ++ [.perr .utf8]) ∧
    (after (.pByte 0x41) { small with tlv := { Tlvp.reset with
      mode := .content, fam := .bytes, len := 1, cnt := 1, stack := [⟨.map, 0, false⟩] } }).pOut =
      [] ++ [.byte 0x41, .perr .mapOdd] :=
  ⟨⟨parser_inv _ (by decide) (by decide) (by decide) (by decide), by decide⟩,
   ⟨parser_inv _ (by decide) (by decide) (by decide) (by decide), by decide⟩,
   ⟨parser_inv _ (by decide) (by decide) (by decide) (by decide), by decide⟩, by decide⟩
theorem witness_DecodingErrors_trunc :
    exec .pEnd (pState .len16 []) = .next { small with pOut := [.perr .trunc] } := by rfl
/-- {1: [ "é" ]}, nested two deep. -/
theorem witness_ParserEmitsTheRecordsOfItsBuffer :
    Rec.validAll [.node .map .inline [.leaf .integer .inline [1], .node .list .ext16 [.leaf .string .inline [0xC3, 0xA9]]]] = true ∧
    Rec.nestingAll [.node .map .inline [.leaf .integer .inline [1], .node .list .ext16 [.leaf .string .inline [0xC3, 0xA9]]]] ≤
      small.cfg.maxDepth.toNat := by decide
/-- No record begins with 0x01, a None of width 1: bytes that do not decode. -/
theorem witness_ParserReportsBuffersThatDoNotDecode :
    ∀ rs : List Rec, Rec.validAll rs = true → Rec.nestingAll rs ≤ small.cfg.maxDepth.toNat → Rec.bytesAll rs ≠ [0x01] := by
  intro rs hv _ hb
  have key : ∀ (f : Family) (n : Nat), tagOf f n = 0x01 → f = .none ∧ BitVec.ofNat 5 n = 1#5 := fun f n h =>
    ⟨by rw [← tagFamily_tagOf f n, h]; decide, by rw [← tagSize_tagOf f n, h]; decide⟩
  match rs with
  | [] => cases hb
  | .leaf fam tier content :: rs =>
    cases tier with
    | inline =>
      obtain ⟨rfl, hn⟩ := key fam content.length (by injection hb)
      simp only [Rec.validAll, Rec.valid, SizeTier.fits, legalWidth, Bool.and_eq_true, decide_eq_true_eq,
        beq_iff_eq] at hv
      have h0 := congrArg BitVec.toNat hv.1.1.2
      have h1 := congrArg BitVec.toNat hn
      have hf := hv.1.1.1.2
      simp at h0 h1
      omega
    | ext16 | ext32 => exact absurd (key fam 31 (by injection hb)).2 (by decide)
  | .node kind tier subs :: rs =>
    cases tier <;> cases kind <;>
      exact absurd (key (ContainerKind.family _) _ (List.cons.inj hb).1).1 (by decide)

end Sys2Proof.Tests
end

section
/-! PROOFS. The whole machine: the frame of every command, ERR, the ports, the parameters, and the invariants of R35 -/

namespace Sys2Proof.Machine

/-! ### The commands with two outcomes -/

/-- A register number is in the map of R34 exactly up to 0x09. -/
theorem regVal_eq_none_iff (s : State) (n : Byte) : s.regVal n = none ↔ 0x09 < n.toNat := by
  unfold State.regVal
  split
  case h_11 =>
    simp only [imp_false, ← BitVec.toNat_inj, BitVec.toNat_ofNat] at *
    exact iff_of_true trivial (by omega)
  all_goals simp

theorem exec_rdreg_of_le {n : Byte} (s : State) (h : n.toNat ≤ 0x09) :
    ∃ v, exec (.rdreg n) s = .next (s.emitReg ⟨n, v⟩) := by
  obtain ⟨v, hv⟩ := Option.ne_none_iff_exists'.1 (mt (regVal_eq_none_iff s n).1 (Nat.not_lt.2 h))
  exact ⟨v, by simp only [exec, execRdreg, hv]⟩

theorem exec_rdreg_of_gt {n : Byte} (s : State) (h : 0x09 < n.toNat) :
    exec (.rdreg n) s = .next (s.setErr .badreg) := by
  simp only [exec, execRdreg, (regVal_eq_none_iff s n).2 h]

theorem exec_txSof_inFrame {s : State} (h : s.tx.inFrame = true) : exec .txSof s = .next (s.setErr .txseq) := if_pos h

theorem exec_txSof_outside {s : State} (h : s.tx.inFrame = false) :
    exec .txSof s = .next { s.emitLine [Config.flagByte] with tx := ⟨true, 0x0000⟩ } := if_neg (by simp [h])

theorem exec_txData_inFrame {s : State} (d : Byte) (h : s.tx.inFrame = true) :
    exec (.txData d) s = .next { s.emitLine (escByte d) with tx := ⟨true, step8 s.tx.crc d⟩ } := if_pos h

theorem exec_txData_outside {s : State} (d : Byte) (h : s.tx.inFrame = false) :
    exec (.txData d) s = .next (s.setErr .txseq) := if_neg (by simp [h])

theorem exec_txEof_inFrame {s : State} (h : s.tx.inFrame = true) :
    exec .txEof s = .next { s.emitLine (escByte (hiByte s.tx.crc) ++ escByte (loByte s.tx.crc) ++ [Config.flagByte]) with
      tx := ⟨false, s.tx.crc⟩ } := if_pos h

theorem exec_txEof_outside {s : State} (h : s.tx.inFrame = false) :
    exec .txEof s = .next (s.setErr .txseq) := if_neg (by simp [h])

/-! ### The frame of every command -/

/-- The bit of ERR that a command sets in a state, if it sets one (R33). -/
def errSetBy (i : Instr) (s : State) : BitVec 3 :=
  match i with
  | .txSof => if s.tx.inFrame then ErrBit.txseq.mask else 0#3
  | .txData _ | .txEof => if s.tx.inFrame then 0#3 else ErrBit.txseq.mask
  | .rdreg n => if n.toNat ≤ 0x09 then 0#3 else ErrBit.badreg.mask
  | .nop | .crcClr | .crcUpd _ | .rxByte _ | .rxTmo | .pStart | .pByte _ | .pEnd => 0#3

/-- Only commands of control and FTX set a bit. -/
theorem errSetBy_of_unit {i : Instr} (s : State) (hc : i.unit ≠ .control) (hx : i.unit ≠ .ftx) : errSetBy i s = 0#3 := by
  cases i with
  | nop | rdreg n => exact absurd rfl hc
  | txSof | txData d | txEof => exact absurd rfl hx
  | _ => rfl

/-- The states that a command may leave, by its unit: the unit's registers may be anything, its port has grown at its end,
ERR has gained the command's bit, and everything else is as before. -/
inductive UnitEffect (i : Instr) (s : State) : State → Prop
  | control (hu : i.unit = .control) (g : List RegEvent) :
    UnitEffect i s { s with err := s.err ||| errSetBy i s, regOut := s.regOut ++ g }
  | crc (hu : i.unit = .crc) (c : Crc) : UnitEffect i s { s with crcVal := c }
  | ftx (hu : i.unit = .ftx) (tx : Ftx) (l : List Byte) :
    UnitEffect i s { s with tx := tx, lineTx := s.lineTx ++ l, err := s.err ||| errSetBy i s }
  | frx (hu : i.unit = .frx) (r : Frx × List RxEvent) : UnitEffect i s (s.applyFrx r)
  | tlvp (hu : i.unit = .tlvp) (r : Tlvp × List PEvent) : UnitEffect i s (s.applyTlvp r)

/-- A control command that only sets a bit of ERR. -/
theorem UnitEffect.setErr_control {i : Instr} {s : State} {b : ErrBit} (hu : i.unit = .control)
    (he : errSetBy i s = b.mask) : UnitEffect i s (s.setErr b) := by
  have h := UnitEffect.control (s := s) hu []
  rwa [he, List.append_nil] at h

/-- A command of FTX out of sequence. -/
theorem UnitEffect.setErr_ftx {i : Instr} {s : State} {b : ErrBit} (hu : i.unit = .ftx)
    (he : errSetBy i s = b.mask) : UnitEffect i s (s.setErr b) := by
  have h := UnitEffect.ftx (s := s) hu s.tx []
  rwa [he, List.append_nil] at h

/-- A command of FTX in sequence. -/
theorem UnitEffect.emitLine {i : Instr} {s : State} (tx : Ftx) (l : List Byte) (hu : i.unit = .ftx)
    (he : errSetBy i s = 0#3) : UnitEffect i s { s.emitLine l with tx := tx } := by
  have h := UnitEffect.ftx (s := s) hu tx l
  rwa [he, BitVec.or_zero] at h

theorem exec_unitEffect {i : Instr} {s t : State} (h : exec i s = .next t) : UnitEffect i s t := by
  cases i with
  | nop =>
    cases h
    have hn := UnitEffect.control (i := .nop) (s := s) rfl []
    rwa [errSetBy, BitVec.or_zero, List.append_nil] at hn
  | rdreg n =>
    by_cases hn : n.toNat ≤ 0x09
    · obtain ⟨v, hv⟩ := exec_rdreg_of_le s hn
      cases hv.symm.trans h
      have hr := UnitEffect.control (i := .rdreg n) (s := s) rfl [⟨n, v⟩]
      rwa [errSetBy, if_pos hn, BitVec.or_zero] at hr
    · cases (exec_rdreg_of_gt s (Nat.lt_of_not_le hn)).symm.trans h
      exact .setErr_control rfl (if_neg hn)
  | txSof =>
    cases hf : s.tx.inFrame
    · cases (exec_txSof_outside hf).symm.trans h
      exact .emitLine _ _ rfl (by simp [errSetBy, hf])
    · cases (exec_txSof_inFrame hf).symm.trans h
      exact .setErr_ftx rfl (by simp [errSetBy, hf])
  | txData d =>
    cases hf : s.tx.inFrame
    · cases (exec_txData_outside d hf).symm.trans h
      exact .setErr_ftx rfl (by simp [errSetBy, hf])
    · cases (exec_txData_inFrame d hf).symm.trans h
      exact .emitLine _ _ rfl (by simp [errSetBy, hf])
  | txEof =>
    cases hf : s.tx.inFrame
    · cases (exec_txEof_outside hf).symm.trans h
      exact .setErr_ftx rfl (by simp [errSetBy, hf])
    · cases (exec_txEof_inFrame hf).symm.trans h
      exact .emitLine _ _ rfl (by simp [errSetBy, hf])
  | crcClr | crcUpd d => cases h; exact .crc rfl _
  | rxByte x | rxTmo => cases h; exact .frx rfl _
  | pStart | pByte b | pEnd => cases h; exact .tlvp rfl _

/-- Settles O17: the unit of the command writes its own registers and port, and ERR where it may set a bit. -/
theorem commandsWriteOnlyTheirUnit : Obligations.CommandsWriteOnlyTheirUnit := by
  intro i s t h
  cases exec_unitEffect h with
  | control hu | crc hu | ftx hu => rw [hu]
  | frx hu | tlvp hu => rw [hu]; rfl

/-! ### ERR (R33) -/

/-- A command adds its bit to ERR and clears none. -/
theorem exec_err {i : Instr} {s t : State} (h : exec i s = .next t) : t.err = s.err ||| errSetBy i s := by
  cases exec_unitEffect h with
  | control | ftx => rfl
  | crc hu | frx hu | tlvp hu =>
    rw [errSetBy_of_unit s (by simp [hu]) (by simp [hu])]; exact BitVec.or_zero.symm

theorem step_of_idle {s : State} (h : s.inputs = []) : step s = .next s := by
  simp [step, takeInput_nil h]

theorem step_of_reset {s : State} {rest : List HostInput} (h : s.inputs = .reset :: rest) :
    step s = .next (State.applyReset { s with inputs := rest }) := by
  simp [step, takeInput_cons h]

/-- Settles O14, command by command, from what each command adds to ERR. -/
theorem errorBitsAreSetExactlyByTheirCommands : Obligations.ErrorBitsAreSetExactlyByTheirCommands := by
  refine ⟨fun s t w rest hin hs => ?_, fun s t hin hs => ?_, fun s t rest hin hs => ?_⟩
  · match hd : decode w with
    | .error e => cases (step_of_rejected hin hd).symm.trans hs; rfl
    | .ok i =>
      rw [exec_err ((step_of_decodes hin hd).symm.trans hs)]
      cases i <;> rfl
  · cases (step_of_idle hin).symm.trans hs; rfl
  · cases (step_of_reset hin).symm.trans hs; rfl

/-! ### The ports and the parameters (R36, R38) -/

/-- Settles O16: a step emits on the port of its command's unit, if on any. -/
theorem portsOnlyGrowOneAtATime : Obligations.PortsOnlyGrowOneAtATime := by
  intro s t h
  obtain ⟨-, hs⟩ | ⟨rest, -, hs⟩ | ⟨w, rest, i, -, -, hs⟩ | ⟨w, rest, e, -, -, hs⟩ := step_cases s
  · cases hs.symm.trans h; exact ⟨[], [], [], [], by simp⟩
  · cases hs.symm.trans h; exact ⟨[], [], [], [], by simp [State.applyReset]⟩
  · cases exec_unitEffect (hs.symm.trans h) with
    | control _ g => exact ⟨[], [], [], g, by simp⟩
    | crc => exact ⟨[], [], [], [], by simp⟩
    | ftx _ tx l => exact ⟨l, [], [], [], by simp⟩
    | frx _ r => exact ⟨[], r.2, [], [], by simp⟩
    | tlvp _ r => exact ⟨[], [], r.2, [], by simp⟩
  · cases hs.symm.trans h; exact ⟨[], [], [], [], by simp⟩

theorem exec_cfg {i : Instr} {s t : State} (h : exec i s = .next t) : t.cfg = s.cfg := by
  cases exec_unitEffect h <;> rfl

theorem step_cfg {s t : State} (h : step s = .next t) : t.cfg = s.cfg := by
  obtain ⟨-, hs⟩ | ⟨rest, -, hs⟩ | ⟨w, rest, i, -, -, hs⟩ | ⟨w, rest, e, -, -, hs⟩ := step_cases s
  · cases hs.symm.trans h; rfl
  · cases hs.symm.trans h; rfl
  · exact (exec_cfg (hs.symm.trans h) :)
  · cases hs.symm.trans h; rfl

/-- What every step keeps, every run keeps. -/
theorem runSteps_keeps {P : State → Prop} (hP : ∀ s t, P s → step s = .next t → P t) {k : Nat} {s t : State}
    (hs : P s) (h : runSteps k s = .next t) : P t := by
  induction k generalizing s with
  | zero => cases h; exact hs
  | succ k ih =>
    simp only [runSteps] at h
    match hu : step s with
    | .next u => rw [hu] at h; exact ih (hP s u hs hu) h
    | .fault _ | .refused _ => rw [hu] at h; cases h

/-- Settles O15, by induction on the run: no step writes the parameters. -/
theorem parametersNeverChange : Obligations.ParametersNeverChange := fun _ s _ h =>
  runSteps_keeps (P := fun u => u.cfg = s.cfg) (fun _ _ hu hv => (step_cfg hv).trans hu) rfl h

/-! ### The invariants of R35

The receiver's and the parser's parts apart, and the parser's by mode. -/

/-- Items 1 and 2. -/
def Frx.Sound (rxMax : Word32) (r : Frx) : Prop :=
  (r.discard = true → r.buf = []) ∧ r.buf.length ≤ rxMax.toNat

/-- The innermost open container has content left that no sub-record has claimed. -/
def HasRoom (stack : List StackEntry) : Prop := ∀ top below, stack = top :: below → top.rem ≠ 0

/-- Items 3 to 6, mode by mode. Item 5's first form is no clause of its own: in CONTENT the record being read waits for a
byte (item 3), which every open container waits for too; in the other modes it is the top container's room. -/
def Tlvp.Sound (maxDepth : Byte) (p : Tlvp) : Prop :=
  p.stack.length ≤ maxDepth.toNat ∧
  match p.mode with
  | .tag | .len32 => HasRoom p.stack
  | .len16 => p.k.toNat ≤ 1 ∧ HasRoom p.stack
  | .content => p.cnt ≠ 0
  | .error => True

theorem one_le_toNat_iff (x : Word32) : 1 ≤ x.toNat ↔ x ≠ 0 := by
  rw [Nat.one_le_iff_ne_zero, ne_eq, ne_eq, ← BitVec.toNat_inj]; rfl

theorem Tlvp.Sound.depth {m : Byte} {p : Tlvp} (h : p.Sound m) : p.stack.length ≤ m.toNat := h.1

/-- Where a header byte may come, the innermost container has room. -/
theorem Tlvp.Sound.hasRoom {m : Byte} {p : Tlvp} (h : p.Sound m)
    (hm : p.mode = .tag ∨ p.mode = .len16 ∨ p.mode = .len32) : HasRoom p.stack := by
  obtain ⟨-, h⟩ := h
  rcases hm with hm | hm | hm <;> rw [hm] at h
  · exact h
  · exact h.2
  · exact h

/-- In CONTENT a byte is to come. -/
theorem Tlvp.Sound.cnt {m : Byte} {p : Tlvp} (h : p.Sound m) (hm : p.mode = .content) : p.cnt ≠ 0 := by
  obtain ⟨-, h⟩ := h
  rwa [hm] at h

theorem Tlvp.Sound.k {m : Byte} {p : Tlvp} (h : p.Sound m) (hm : p.mode = .len16) : p.k.toNat ≤ 1 := by
  obtain ⟨-, h⟩ := h
  rw [hm] at h
  exact h.1

/-- Item 5 of every container: the innermost has room, or the record being read inside it waits for a byte, and the outer
ones wait at least for what the innermost waits for. -/
theorem Tlvp.Sound.contentToCome_pos {m : Byte} {p : Tlvp} (h : p.Sound m) (hm : p.mode ≠ .error) :
    ∀ n ∈ p.contentToCome, 1 ≤ n := by
  refine (stackToCome_pos _ _).2 fun top below hs => ?_
  by_cases hc : p.mode = .content
  · have := (one_le_toNat_iff _).2 (h.cnt hc)
    rw [if_pos hc]; omega
  · have hh : p.mode = .tag ∨ p.mode = .len16 ∨ p.mode = .len32 := by
      cases hp : p.mode <;> simp_all
    have := (one_le_toNat_iff _).2 (h.hasRoom hh top below hs)
    omega

/-- R35 is the parameters' ranges, the receiver's part and the parser's part. -/
theorem State.inv_iff (s : State) :
    s.Inv ↔ s.cfg.wf = true ∧ s.rx.Sound s.cfg.rxMax ∧ s.tlv.Sound s.cfg.maxDepth := by
  constructor
  · intro h
    refine ⟨h.parameters, ⟨h.discardEmpty, h.bufferFits⟩, h.depthFits, ?_⟩
    have room (hm) : HasRoom s.tlv.stack := fun top below hs => (one_le_toNat_iff _).1 (h.headerRoom hm top below hs)
    cases hm : s.tlv.mode with
    | tag => exact room (.inl hm)
    | len16 => exact ⟨h.len16Bytes hm, room (.inr (.inl hm))⟩
    | len32 => exact room (.inr (.inr hm))
    | content => exact (one_le_toNat_iff _).1 (h.contentLeft hm)
    | error => trivial
  · rintro ⟨hcfg, ⟨hdiscard, hbuf⟩, hp⟩
    exact {
      parameters := hcfg
      discardEmpty := hdiscard
      bufferFits := hbuf
      contentLeft := fun hm => (one_le_toNat_iff _).2 (hp.cnt hm)
      len16Bytes := hp.k
      headerRoom := fun hm top below hs => (one_le_toNat_iff _).2 (hp.hasRoom hm top below hs)
      containersUnfinished := hp.contentToCome_pos
      depthFits := hp.depth }

theorem Frx.sound_reset (m : Word32) : Frx.reset.Sound m := ⟨fun _ => rfl, Nat.zero_le _⟩

theorem Tlvp.sound_reset (m : Byte) : Tlvp.reset.Sound m := ⟨Nat.zero_le _, fun _ _ h => nomatch h⟩

/-- Settles O11: the reset values of FRX and TLVP meet their parts, whatever the parameters. -/
theorem invariantsHoldAtPowerOn : Obligations.InvariantsHoldAtPowerOn := fun _ hc =>
  (State.inv_iff _).2 ⟨hc, Frx.sound_reset _, Tlvp.sound_reset _⟩

/-- Settles O7: R37's values are those of the model's definitions, which reset and power-on share. -/
theorem powerOnHoldsTheResetValues : Obligations.PowerOnHoldsTheResetValues := by
  refine fun c => ⟨rfl, rfl, rfl, fun s hs => ?_⟩
  cases hs; rfl

/-! #### The receiver -/

theorem Frx.Sound.append {m : Word32} {r : Frx} (v : Byte) (h : r.Sound m) : (r.append m v).1.Sound m := by
  obtain ⟨hdiscard, hbuf⟩ := h
  obtain ⟨-, he⟩ | ⟨-, -, he⟩ | ⟨-, hl, he⟩ := Frx.append_cases m v r <;> rw [he]
  · exact ⟨hdiscard, hbuf⟩
  · exact ⟨fun _ => rfl, Nat.zero_le _⟩
  · exact ⟨nofun, by simp; omega⟩

theorem Frx.Sound.byte {m : Word32} {r : Frx} (x : Byte) (h : r.Sound m) : (r.byte m x).1.Sound m := by
  obtain ⟨-, he⟩ | ⟨-, -, he⟩ | ⟨-, -, -, he⟩ | ⟨-, -, -, -, he⟩ | ⟨-, -, -, -, he⟩ | ⟨-, -, -, he⟩ :=
    Frx.byte_cases m x r <;> rw [he]
  · exact Frx.Sound.append _ h
  · exact h
  · exact ⟨nofun, h.2⟩
  · exact h
  · exact ⟨fun _ => rfl, Nat.zero_le _⟩
  · exact h.append x

/-! #### The parser

Each procedure is entered with the depth within MAX_DEPTH, and needs no more: what R35 says of P_MODE, P_CNT, P_K and
the top container it establishes anew. -/

section Parser
variable {m : Byte} {p : Tlvp} (hd : p.stack.length ≤ m.toNat)
include hd

theorem Tlvp.sound_perr (c : PErr) : (p.perr c).1.Sound m := ⟨hd, trivial⟩

theorem Tlvp.depth_takeFromTop (n : Word32) : (p.takeFromTop n).stack.length ≤ m.toNat := by
  rwa [(takeFromTop_frame n p).2]

/-- `split_check` reports CONTAINER unless the top container has room for the next header byte. -/
theorem Tlvp.sound_splitCheck (h : HasRoom p.stack → p.Sound m) : p.splitCheck.1.Sound m := by
  obtain ⟨hr, he⟩ | ⟨-, -, -, -, he⟩ := splitCheck_cases p <;> rw [he]
  · exact h hr
  · exact Tlvp.sound_perr hd _

/-- `complete()` closes every container used up, so the one it stops at has room. -/
theorem Tlvp.sound_complete : p.complete.1.Sound m := by
  obtain ⟨n, -, h⟩ := completeIn_cases p p.stack
  have hdrop {top below} (hs : p.stack.drop n = top :: below) : below.length + 1 ≤ m.toNat :=
    calc below.length + 1 = (p.stack.drop n).length := by rw [hs]; rfl
      _ ≤ p.stack.length := by simp
      _ ≤ m.toNat := hd
  unfold Tlvp.complete
  obtain ⟨-, he⟩ | ⟨top, below, hs, hr, he⟩ | ⟨top, below, hs, -, -, -, he⟩ := h <;> rw [he]
  · exact ⟨Nat.zero_le _, fun _ _ h => nomatch h⟩
  · exact ⟨hdrop hs, fun _ _ h => (List.cons.inj h).1 ▸ hr⟩
  · exact ⟨hdrop hs, trivial⟩

/-- An accepted header opens a container with all its content to come, or begins content, or completes a record. -/
theorem Tlvp.sound_acceptHeader {len : Word32} (hn : ¬ (p.fam.isContainer = true ∧ len ≠ 0 ∧ p.depth = m.toNat)) :
    (p.acceptHeader len).1.Sound m := by
  have hq := Tlvp.depth_takeFromTop hd len
  obtain ⟨-, -, he⟩ | ⟨hf, hl, he⟩ | ⟨-, -, he⟩ | ⟨-, hl, he⟩ := acceptHeader_cases len p <;> rw [he]
  · exact Tlvp.sound_complete hq
  · have hlt : p.stack.length < m.toNat := Nat.lt_of_le_of_ne hd fun h => hn ⟨hf, hl, h⟩
    refine ⟨?_, fun _ _ h => (List.cons.inj h).1 ▸ hl⟩
    rwa [List.length_cons, (takeFromTop_frame len p).2]
  · exact Tlvp.sound_complete (p := { p.takeFromTop len with acc := 0 }) hq
  · exact ⟨hq, hl⟩

theorem Tlvp.sound_headerDone (len : Word32) : (p.headerDone m len).1.Sound m := by
  obtain ⟨-, he⟩ | ⟨-, -, he⟩ | ⟨-, -, -, he⟩ | ⟨-, -, hn, he⟩ := headerDone_cases m len p <;> rw [he]
  · exact Tlvp.sound_perr (p := { p with len := len }) hd _
  · exact Tlvp.sound_perr (p := { p with len := len }) hd _
  · exact Tlvp.sound_perr (p := { p with len := len }) hd _
  · exact Tlvp.sound_acceptHeader (p := { p with len := len }) hd hn

theorem Tlvp.sound_tagByte (b : Byte) : (p.tagByte m b).1.Sound m := by
  have hq : p.hdrConsume.stack.length ≤ m.toNat := Tlvp.depth_takeFromTop hd 1
  unfold Tlvp.tagByte
  split
  · exact Tlvp.sound_headerDone (p := { p.hdrConsume with fam := tagFamily b }) hq _
  · exact Tlvp.sound_splitCheck hq fun hr => ⟨hq, Nat.zero_le _, hr⟩

theorem Tlvp.sound_len16Byte (b : Byte) (hm : p.mode = .len16) : (p.len16Byte m b).1.Sound m := by
  have hq : p.hdrConsume.stack.length ≤ m.toNat := Tlvp.depth_takeFromTop hd 1
  have hqm : p.hdrConsume.mode = .len16 := by rw [Tlvp.hdrConsume, (takeFromTop_frame 1 p).1]; exact hm
  simp only [Tlvp.len16Byte]
  split
  · exact Tlvp.sound_splitCheck hq fun hr => ⟨hq, by rw [hqm]; exact ⟨Nat.le_refl 1, hr⟩⟩
  · split
    · exact Tlvp.sound_headerDone (p := { p.hdrConsume with len := shiftInLen p.len b }) hq _
    · exact Tlvp.sound_splitCheck hq fun hr => ⟨hq, hr⟩

theorem Tlvp.sound_len32Byte (b : Byte) (hm : p.mode = .len32) : (p.len32Byte m b).1.Sound m := by
  have hq : p.hdrConsume.stack.length ≤ m.toNat := Tlvp.depth_takeFromTop hd 1
  have hqm : p.hdrConsume.mode = .len32 := by rw [Tlvp.hdrConsume, (takeFromTop_frame 1 p).1]; exact hm
  simp only [Tlvp.len32Byte]
  split
  · exact Tlvp.sound_splitCheck hq fun hr => ⟨hq, by rw [hqm]; exact hr⟩
  · exact Tlvp.sound_headerDone (p := { p.hdrConsume with len := shiftInLen p.len b }) hq _

theorem Tlvp.sound_contentEnd (hm : p.mode = .content) : p.contentEnd.1.Sound m := by
  obtain ⟨hc, he⟩ | ⟨-, he⟩ := contentEnd_cases p <;> rw [he]
  · exact ⟨hd, by rw [hm]; exact hc⟩
  · exact Tlvp.sound_complete hd

theorem Tlvp.sound_contentByte (b : Byte) (hm : p.mode = .content) : (p.contentByte b).1.Sound m := by
  obtain ⟨-, he, -⟩ | ⟨u, -, -, -, he⟩ | ⟨-, he⟩ | ⟨-, -, he⟩ := contentByte_cases b p <;> rw [he]
  · exact ⟨hd, trivial⟩
  all_goals exact Tlvp.sound_contentEnd hd hm

end Parser

theorem Tlvp.Sound.byte {m : Byte} {p : Tlvp} (b : Byte) (h : p.Sound m) : (p.byte m b).1.Sound m := by
  cases hm : p.mode with
  | error => rw [byte_of_error m b hm]; exact h
  | tag => rw [byte_of_tag m b hm]; exact Tlvp.sound_tagByte h.depth b
  | len16 => rw [byte_of_len16 m b hm]; exact Tlvp.sound_len16Byte h.depth b hm
  | len32 => rw [byte_of_len32 m b hm]; exact Tlvp.sound_len32Byte h.depth b hm
  | content => rw [byte_of_content m b hm]; exact Tlvp.sound_contentByte h.depth b hm

/-! #### The step -/

theorem exec_keeps_inv {i : Instr} {s t : State} (hs : s.Inv) (h : exec i s = .next t) : t.Inv := by
  obtain ⟨hc, hr, hp⟩ := (State.inv_iff s).1 hs
  refine (State.inv_iff t).2 ?_
  cases i with
  | rxByte x => cases h; exact ⟨hc, hr.byte x, hp⟩
  | rxTmo => cases h; exact ⟨hc, Frx.sound_reset _, hp⟩
  | pByte b => cases h; exact ⟨hc, hr, hp.byte b⟩
  | pStart | pEnd => cases h; exact ⟨hc, hr, Tlvp.sound_reset _⟩
  | nop | rdreg n | crcClr | crcUpd d | txSof | txData d | txEof =>
    cases exec_unitEffect h with
    | control | crc | ftx => exact ⟨hc, hr, hp⟩
    | frx hu | tlvp hu => nomatch hu

/-- Settles O12: each branch of the step keeps the receiver's and the parser's part of the invariants. -/
theorem everyStepKeepsTheInvariants : Obligations.EveryStepKeepsTheInvariants := by
  intro s t hs h
  have hparts := (State.inv_iff s).1 hs
  obtain ⟨-, he⟩ | ⟨rest, -, he⟩ | ⟨w, rest, i, -, -, he⟩ | ⟨w, rest, e, -, -, he⟩ := step_cases s
  · cases he.symm.trans h; exact hs
  · cases he.symm.trans h
    exact (State.inv_iff _).2 ⟨hparts.1, Frx.sound_reset _, Tlvp.sound_reset _⟩
  · exact exec_keeps_inv (s := { s with inputs := rest }) ((State.inv_iff _).2 hparts) (he.symm.trans h)
  · cases he.symm.trans h
    exact (State.inv_iff _).2 hparts

/-- Refutes O13: inside a List with two bytes to come, as the byte 0xC2 leaves it, the header 0x41 of an Integer of width
1 takes the List's rem from 2 to 0 while the Integer's byte is still to come. -/
theorem not_everyContainerKeepsRoomAsWritten : ¬ Obligations.EveryContainerKeepsRoomAsWritten := by
  intro h
  have hroom := h
    { State.powerOn ⟨4096, 8⟩ with
      tlv := { Tlvp.reset with fam := .list, len := 2, stack := [⟨.list, 2, false⟩] }
      pOut := [.hdr .list 2 0], inputs := [.command 0x4141] }
    { State.powerOn ⟨4096, 8⟩ with
      tlv := { Tlvp.reset with mode := .content, fam := .integer, len := 1, cnt := 1, stack := [⟨.list, 0, false⟩] }
      pOut := [.hdr .list 2 0, .hdr .integer 1 1] }
    ((State.inv_iff _).2 ⟨rfl, Frx.sound_reset _, by decide, fun _ _ hs => (List.cons.inj hs).1 ▸ by decide⟩)
    (fun _ => by decide) rfl
  exact absurd (hroom (by decide) ⟨.list, 0, false⟩ (List.mem_singleton_self _)) (by decide)

end Sys2Proof.Machine
end

section
/-! PROOFS. The host's commands (20_memory.md): the step on a command word, and which commands differ from themselves
given twice (R57) -/

namespace Sys2Proof.Machine

/-- Settles O6: among all that a step can do, a word that decodes runs its command. -/
theorem stepRunsTheDecodedCommand : Obligations.StepRunsTheDecodedCommand :=
  fun _ _ _ _ hin hd => step_of_decodes hin hd

/-- In the state `s`, the command given twice is not the command given once (R57). -/
def RepeatDiffers (i : Instr) (s : State) : Prop :=
  ∃ t u : State, exec i s = .next t ∧ exec i t = .next u ∧ u ≠ t

/-! ### The idempotent commands (R113, R180) -/

theorem exec_crcClr_twice (s : State) : ∃ t, exec .crcClr s = .next t ∧ exec .crcClr t = .next t :=
  ⟨_, rfl, rfl⟩

/-- The reset parser is reset again, and nothing is emitted. -/
theorem exec_pStart_twice (s : State) : ∃ t, exec .pStart s = .next t ∧ exec .pStart t = .next t :=
  ⟨_, rfl, by simp [exec, execPStart, State.applyTlvp]⟩

/-- A command that given twice equals once in a state does not differ there. -/
theorem not_repeatDiffers {i : Instr} {s : State} (h : ∃ t, exec i s = .next t ∧ exec i t = .next t) :
    ¬ RepeatDiffers i s := by
  obtain ⟨t, hst, htt⟩ := h
  rintro ⟨t', u, hst', htu, hne⟩
  cases hst.symm.trans hst'
  cases htt.symm.trans htu
  exact hne rfl

/-- Refutes O57: CRC.CLR clears CRC_VAL, whatever it holds, and given again finds it cleared (R113). -/
theorem not_noOtherCommandIsIdempotentAsWritten : ¬ Obligations.NoOtherCommandIsIdempotentAsWritten := by
  intro h
  obtain ⟨s, hs⟩ := h .crcClr nofun nofun
  exact not_repeatDiffers (exec_crcClr_twice s) hs

/-! ### CRC.UPD -/

/-- One turn loses nothing: bit 0 of the generator tells whether bit 15 was set. -/
theorem crcShift_eq_zero {c : Crc} (h : crcShift c = 0) : c = 0 := by
  cases hm : c.msb with
  | true =>
    have hbit := congrArg (·.getLsbD 0) h
    simp [crcShift, hm, Config.crcPoly] at hbit
  | false =>
    have hshift : c <<< 1 = 0 := by simpa [crcShift, hm] using h
    have hlow := BitVec.msb_eq_false_iff_two_mul_lt.1 hm
    bv_omega

theorem crcShiftTimes_eq_zero {n : Nat} {c : Crc} (h : crcShiftTimes n c = 0) : c = 0 := by
  induction n generalizing c with
  | zero => exact h
  | succ n ih => exact crcShift_eq_zero (ih h)

theorem crcShiftTimes_inj (n : Nat) {a b : Crc} : crcShiftTimes n a = crcShiftTimes n b ↔ a = b := by
  refine ⟨fun h => BitVec.xor_eq_zero_iff.1 (crcShiftTimes_eq_zero (n := n) ?_), congrArg _⟩
  rw [crcShiftTimes_xor, h]; exact BitVec.xor_self

/-- A byte leads from different remainders to different remainders. -/
theorem step8_left_inj {a b : Crc} (d : Byte) : step8 a d = step8 b d ↔ a = b := by
  rw [step8, step8, crcShiftTimes_inj, BitVec.xor_left_inj]

/-- From the remainder 0, only the byte 0 leads to 0. -/
theorem step8_zero_ne_zero {d : Byte} (hd : d ≠ 0) : step8 0 d ≠ 0 := by
  intro h
  have hshift : d.setWidth 16 <<< 8 = 0 := by simpa using crcShiftTimes_eq_zero h
  bv_omega

/-- A second CRC.UPD of a byte changes CRC_VAL when the first did. -/
theorem repeatDiffers_crcUpd {d : Byte} {s : State} (h : step8 s.crcVal d ≠ s.crcVal) : RepeatDiffers (.crcUpd d) s :=
  ⟨_, _, rfl, rfl, ne_of_apply_ne State.crcVal (mt (step8_left_inj d).1 h)⟩

/-! ### The other units' commands -/

/-- Out of sequence the second time: TX_INFRAME is then 1, and the first set no bit of ERR (R132). -/
theorem repeatDiffers_txSof {s : State} (hf : s.tx.inFrame = false) (he : s.err = 0) : RepeatDiffers .txSof s :=
  ⟨_, _, exec_txSof_outside hf, exec_txSof_inFrame rfl, ne_of_apply_ne State.err (by simp [he, ErrBit.mask])⟩

/-- In a frame each puts at least one byte on the line (R133). -/
theorem repeatDiffers_txData {d : Byte} {s : State} (hf : s.tx.inFrame = true) : RepeatDiffers (.txData d) s := by
  refine ⟨_, _, exec_txData_inFrame d hf, exec_txData_inFrame d rfl, ne_of_apply_ne State.lineTx ?_⟩
  obtain ⟨-, -, h⟩ | ⟨-, x, -, -, h⟩ := escByte_cases d <;> simp [h]

/-- Out of sequence the second time: TX_INFRAME is then 0, and the first set no bit of ERR (R134). -/
theorem repeatDiffers_txEof {s : State} (hf : s.tx.inFrame = true) (he : s.err = 0) : RepeatDiffers .txEof s :=
  ⟨_, _, exec_txEof_inFrame hf, exec_txEof_outside rfl, ne_of_apply_ne State.err (by simp [he, ErrBit.mask])⟩

theorem Frx.append_esc (m : Word32) (v : Byte) (r : Frx) : (r.append m v).1.esc = r.esc := by
  obtain ⟨-, he⟩ | ⟨-, -, he⟩ | ⟨-, -, he⟩ := Frx.append_cases m v r <;> rw [he]

/-- 0x7D opens an escape, or is the escaped byte that ends one (R151, R158). -/
theorem Frx.byte_escByte_esc (m : Word32) (r : Frx) : (r.byte m 0x7D).1.esc = !r.esc := by
  cases he : r.esc with
  | true => simp [Frx.byte, he, Frx.append_esc]
  | false => simp [Frx.byte, he, Config.escByte]

theorem repeatDiffers_rxByte_escByte (s : State) : RepeatDiffers (.rxByte 0x7D) s :=
  ⟨_, _, rfl, rfl, ne_of_apply_ne (·.rx.esc) ((Frx.byte_escByte_esc _ _).trans_ne (Bool.not_ne_self _))⟩

/-- With bytes in the buffer and room for one more, no byte is idle: it opens an escape, ends the frame, or is
appended. -/
theorem Frx.byte_ne_self {m : Word32} {r : Frx} (x : Byte) (he : r.esc = false) (hd : r.discard = false)
    (hb : r.buf ≠ []) (hl : r.buf.length ≠ m.toNat) : (r.byte m x).1 ≠ r := by
  obtain ⟨h, -⟩ | ⟨-, -, hr⟩ | ⟨-, -, h, -⟩ | ⟨-, -, -, h, -⟩ | ⟨-, -, -, -, hr⟩ | ⟨-, -, -, hr⟩ :=
    Frx.byte_cases m x r
  · simp [he] at h
  · rw [hr]; exact ne_of_apply_ne Frx.esc (by simp [he])
  · simp [hd] at h
  · exact absurd h hb
  · rw [hr]; exact ne_of_apply_ne Frx.buf hb.symm
  · rw [hr]
    obtain ⟨h, -⟩ | ⟨-, h, -⟩ | ⟨-, -, ha⟩ := Frx.append_cases m x r
    · simp [hd] at h
    · exact absurd h hl
    · rw [ha]; exact ne_of_apply_ne Frx.buf (by simp)

/-- After an escape the first of two bytes is data (R158), and leaves a byte in the empty buffer for the second. -/
theorem repeatDiffers_rxByte {x : Byte} {s : State} (hr : s.rx = ⟨[], true, false⟩) (hm : 2 ≤ s.cfg.rxMax.toNat) :
    RepeatDiffers (.rxByte x) s := by
  have hzero : 0 ≠ s.cfg.rxMax.toNat := by omega
  have hone : 1 ≠ s.cfg.rxMax.toNat := by omega
  have hfirst : s.rx.byte s.cfg.rxMax x = (⟨[unescByte x], false, false⟩, []) := by
    simp [hr, Frx.byte, Frx.append, hzero]
  refine ⟨_, _, rfl, rfl, ne_of_apply_ne State.rx ?_⟩
  simp only [State.applyFrx_rx, State.applyFrx_cfg, hfirst]
  exact Frx.byte_ne_self x rfl rfl (List.cons_ne_nil _ _) hone

/-- Each reports TIMEOUT (R157). -/
theorem repeatDiffers_rxTmo (s : State) : RepeatDiffers .rxTmo s :=
  ⟨_, _, rfl, rfl, ne_of_apply_ne State.rxOut (by simp [Frx.timeout])⟩

/-- A content byte of an Integer that is not its last (R191). -/
theorem Tlvp.byte_integer {m b : Byte} {p : Tlvp} (hm : p.mode = .content) (hf : p.fam = .integer)
    (hc : p.cnt - 1 ≠ 0) :
    p.byte m b = ({ p with cnt := p.cnt - 1, acc := shiftInAcc p.acc b }, []) := by
  simp only [byte_of_content m b hm, Tlvp.contentByte, hf]
  exact if_neg hc

/-- Inside an Integer with three content bytes to come, each takes one of them (R191). -/
theorem repeatDiffers_pByte {b : Byte} {s : State} (hm : s.tlv.mode = .content) (hf : s.tlv.fam = .integer)
    (hc : s.tlv.cnt = 3) : RepeatDiffers (.pByte b) s := by
  have hfirst := Tlvp.byte_integer (m := s.cfg.maxDepth) (b := b) hm hf (by rw [hc]; decide)
  have hsecond := Tlvp.byte_integer (m := s.cfg.maxDepth) (b := b)
    (p := { s.tlv with cnt := s.tlv.cnt - 1, acc := shiftInAcc s.tlv.acc b }) hm hf (by simp only [hc]; decide)
  refine ⟨_, _, rfl, rfl, ne_of_apply_ne (·.tlv.cnt) ?_⟩
  simp only [State.applyTlvp_tlv, State.applyTlvp_cfg, hfirst, hsecond, ne_eq]
  rw [hc]; decide

/-- The second finds the parser reset, and reports END (R194). -/
theorem repeatDiffers_pEnd (s : State) : RepeatDiffers .pEnd s :=
  ⟨_, _, rfl, rfl, ne_of_apply_ne State.pOut (by simp [Tlvp.endEvents, Tlvp.depth])⟩

/-! ### R57 -/

/-- A block with every unit at work: perhaps inside a frame, after an escape, and three bytes before the end of an
Integer. -/
def atWork (inFrame : Bool) (crc : Crc) : State :=
  { State.reset with
    crcVal := crc, tx := ⟨inFrame, 0⟩, rx := ⟨[], true, false⟩
    tlv := { Tlvp.reset with mode := .content, fam := .integer, len := 4, cnt := 3 } }

theorem atWork_inv (inFrame : Bool) (crc : Crc) : (atWork inFrame crc).Inv :=
  (State.inv_iff _).2 ⟨rfl, ⟨nofun, Nat.zero_le _⟩, Nat.zero_le _, (by decide : (3 : Word32) ≠ 0)⟩

/-- R57's fourth point, for every command whose own rule does not make it idempotent. -/
theorem exists_repeatDiffers {i : Instr} (hnop : i ≠ .nop) (hrdreg : ∀ n, i ≠ .rdreg n) (hclr : i ≠ .crcClr)
    (hstart : i ≠ .pStart) : ∃ s : State, s.Inv ∧ RepeatDiffers i s := by
  cases i with
  | nop => exact absurd rfl hnop
  | rdreg n => exact absurd rfl (hrdreg n)
  | crcClr => exact absurd rfl hclr
  | pStart => exact absurd rfl hstart
  | crcUpd d =>
    by_cases hd : d = 0
    · exact ⟨_, atWork_inv true 1, repeatDiffers_crcUpd (by subst hd; decide)⟩
    · exact ⟨_, atWork_inv true 0, repeatDiffers_crcUpd (step8_zero_ne_zero hd)⟩
  | txSof => exact ⟨_, atWork_inv false 0, repeatDiffers_txSof rfl rfl⟩
  | txData d => exact ⟨_, atWork_inv true 0, repeatDiffers_txData rfl⟩
  | txEof => exact ⟨_, atWork_inv true 0, repeatDiffers_txEof rfl rfl⟩
  | rxByte x => exact ⟨_, atWork_inv true 0, repeatDiffers_rxByte rfl (by decide)⟩
  | rxTmo => exact ⟨_, atWork_inv true 0, repeatDiffers_rxTmo _⟩
  | pByte b => exact ⟨_, atWork_inv true 0, repeatDiffers_pByte rfl rfl rfl⟩
  | pEnd => exact ⟨_, atWork_inv true 0, repeatDiffers_pEnd _⟩

/-- R57's third point. A command that differs from itself given twice has an effect in the state between; CRC.CLR and
P.START have one in a block at work. -/
theorem exists_effect {i : Instr} (hnop : i ≠ .nop) (hrdreg : ∀ n, i ≠ .rdreg n) :
    ∃ s t : State, s.Inv ∧ exec i s = .next t ∧ t ≠ s := by
  by_cases hclr : i = .crcClr
  · subst hclr
    exact ⟨_, _, atWork_inv true 1, rfl, ne_of_apply_ne State.crcVal (by decide)⟩
  by_cases hstart : i = .pStart
  · subst hstart
    exact ⟨_, _, atWork_inv true 0, rfl, ne_of_apply_ne (·.tlv.mode) (by decide)⟩
  obtain ⟨s, hs, t, u, hst, htu, hne⟩ := exists_repeatDiffers hnop hrdreg hclr hstart
  exact ⟨t, u, exec_keeps_inv hs hst, htu, hne⟩

/-- Settles O56, command by command: which have no effect, which differ from themselves given twice, and which two do
not. -/
theorem commandsHaveEffectsAndRepeat : Obligations.CommandsHaveEffectsAndRepeat := by
  refine ⟨fun s n => ⟨exec_rdreg_of_le s, exec_rdreg_of_gt s, rfl⟩, fun _ => exists_effect, ?_, ?_, ?_⟩
  · intro i hnop hrdreg hclr hstart
    obtain ⟨s, hs, t, u, h⟩ := exists_repeatDiffers hnop hrdreg hclr hstart
    exact ⟨s, t, u, hs, h⟩
  · rintro s i (rfl | rfl | rfl | ⟨hc, d, hd, rfl⟩)
    · exact repeatDiffers_rxByte_escByte s
    · exact repeatDiffers_rxTmo s
    · exact repeatDiffers_pEnd s
    · exact repeatDiffers_crcUpd (by rw [hc]; exact step8_zero_ne_zero hd)
  · rintro s i (rfl | rfl)
    · exact exec_crcClr_twice s
    · exact exec_pStart_twice s

end Sys2Proof.Machine
end

section
/-! PROOFS. The command words (30_encoding.md sections 1 and 2): the decoder against the encoder, the words R73 rejects,
the assembler, and what the commands of CRC.OF do -/

namespace Sys2Proof

/-! ### The opcode map (R71, R72) -/

/-- The command that a mnemonic and a D field select: D is the operand of a command that takes one, and is ignored by
the others (R72). -/
def Mnemonic.command : Mnemonic → Byte → Instr
  | .nop, _ => .nop
  | .rdreg, n => .rdreg n
  | .crcClr, _ => .crcClr
  | .crcUpd, d => .crcUpd d
  | .txSof, _ => .txSof
  | .txData, d => .txData d
  | .txEof, _ => .txEof
  | .rxByte, x => .rxByte x
  | .rxTmo, _ => .rxTmo
  | .pStart, _ => .pStart
  | .pByte, b => .pByte b
  | .pEnd, _ => .pEnd

/-- What holds of the twelve mnemonics holds of every one. -/
theorem Mnemonic.forall_iff {P : Mnemonic → Prop} : (∀ m, P m) ↔
    (P .nop ∧ P .rdreg) ∧ (P .crcClr ∧ P .crcUpd) ∧ (P .txSof ∧ P .txData ∧ P .txEof) ∧ (P .rxByte ∧ P .rxTmo) ∧
    (P .pStart ∧ P .pByte ∧ P .pEnd) := by
  constructor
  · exact fun h => ⟨⟨h _, h _⟩, ⟨h _, h _⟩, ⟨h _, h _, h _⟩, ⟨h _, h _⟩, h _, h _, h _⟩
  · rintro ⟨⟨h0, h1⟩, ⟨h2, h3⟩, ⟨h4, h5, h6⟩, ⟨h7, h8⟩, h9, h10, h11⟩ m
    cases m <;> assumption

@[simp] theorem Mnemonic.mnemonic_command (m : Mnemonic) (d : Byte) : (m.command d).mnemonic = m := by
  cases m <;> rfl

theorem Mnemonic.operand?_command (m : Mnemonic) (d : Byte) :
    (m.command d).operand? = if m.takesOperand then some d else none := by
  cases m <;> rfl

/-- Every command is selected by its own mnemonic and operand. -/
theorem Instr.command_mnemonic (i : Instr) : i.mnemonic.command (i.operand?.getD 0) = i := by
  cases i <;> rfl

/-- A command is written with the D that selected it, or with D = 0 when it ignores D (R72). -/
theorem encode_command (m : Mnemonic) (d : Byte) :
    encode (m.command d) = commandWord m.opcode (if (m.command d).operand?.isSome then d else 0x00) := by
  cases m <;> rfl

theorem decode_of_opField {w : Command} {m : Mnemonic} (h : opField w = m.opcode) :
    decode w = .ok (m.command (dField w)) := by
  unfold decode
  rw [h]
  cases m <;> rfl

/-- The opcode map read forwards (R71, R72). -/
@[simp] theorem decode_commandWord (m : Mnemonic) (d : Byte) : decode (commandWord m.opcode d) = .ok (m.command d) := by
  rw [decode_of_opField (opField_commandWord m.opcode d), dField_commandWord]

/-- Everything the decoder can answer: the command whose opcode the word carries, or a rejection by name when no command
has it. -/
theorem decode_cases (w : Command) :
    (∃ m : Mnemonic, opField w = m.opcode ∧ decode w = .ok (m.command (dField w))) ∨
    ((∀ m : Mnemonic, opField w ≠ m.opcode) ∧ decode w = .error (.illegalOpcode (opField w))) := by
  by_cases h : ∃ m : Mnemonic, opField w = m.opcode
  · obtain ⟨m, hm⟩ := h
    exact .inl ⟨m, hm, decode_of_opField hm⟩
  · have hne : ∀ m : Mnemonic, opField w ≠ m.opcode := fun m hm => h ⟨m, hm⟩
    refine .inr ⟨hne, ?_⟩
    rw [Mnemonic.forall_iff] at hne
    unfold decode
    split
    case h_13 => rfl
    all_goals next hop => simp [hop, Mnemonic.opcode] at hne

@[simp] theorem decode_encode (i : Instr) : decode (encode i) = .ok i := by
  rw [encode, decode_commandWord, Instr.command_mnemonic]

end Sys2Proof

namespace Sys2Proof.Machine

/-- Settles O1: the twelve rows of the opcode map, read forwards. -/
theorem everyDataFieldSelectsTheTableCommand : Obligations.EveryDataFieldSelectsTheTableCommand := fun d =>
  ⟨decode_commandWord .nop d, decode_commandWord .rdreg d, decode_commandWord .crcClr d, decode_commandWord .crcUpd d,
    decode_commandWord .txSof d, decode_commandWord .txData d, decode_commandWord .txEof d,
    decode_commandWord .rxByte d, decode_commandWord .rxTmo d, decode_commandWord .pStart d,
    decode_commandWord .pByte d, decode_commandWord .pEnd d⟩

/-- Settles O2: six words of rows of the map and one whose OP has no row, each evaluated. -/
theorem programWordsDecode : Obligations.ProgramWordsDecode := by
  unfold Obligations.ProgramWordsDecode
  decide

/-- Settles O3: a word is its two fields, and the map is read backwards by the opcode. -/
theorem decodeAndEncodeAgree : Obligations.DecodeAndEncodeAgree := by
  refine ⟨decode_encode, fun w i h => ?_⟩
  obtain ⟨m, hop, hd⟩ | ⟨-, hd⟩ := decode_cases w
  · cases hd.symm.trans h
    rw [encode_command, ← hop]
    split
    · exact commandWord_fields w
    · rfl
  · cases hd.symm.trans h

/-! ### The illegal words (R73, R232) -/

/-- A word is rejected exactly when no command has its opcode. -/
theorem decode_eq_error_iff (w : Command) :
    decode w = .error (.illegalOpcode (opField w)) ↔ ∀ m : Mnemonic, opField w ≠ m.opcode := by
  refine ⟨fun h m hm => ?_, fun h => ?_⟩
  · cases (decode_of_opField hm).symm.trans h
  · obtain ⟨m, hm, -⟩ | ⟨-, hd⟩ := decode_cases w
    · exact absurd hm (h m)
    · exact hd

/-- The OP values without a command are the five ranges of R73. -/
theorem ne_opcode_iff (op : Byte) : (∀ m : Mnemonic, op ≠ m.opcode) ↔
    (0x02 ≤ op.toNat ∧ op.toNat ≤ 0x0F) ∨ (0x12 ≤ op.toNat ∧ op.toNat ≤ 0x1F) ∨
    (0x23 ≤ op.toNat ∧ op.toNat ≤ 0x2F) ∨ (0x32 ≤ op.toNat ∧ op.toNat ≤ 0x3F) ∨
    (0x43 ≤ op.toNat ∧ op.toNat ≤ 0xFF) := by
  rw [Mnemonic.forall_iff]
  simp only [Mnemonic.opcode, ne_eq, ← BitVec.toNat_inj, BitVec.ofNat_eq_ofNat, BitVec.toNat_ofNat]
  omega

/-- Settles O4: the rejected words by their OP, and the step on one. -/
theorem illegalWordsOnlySetIllop : Obligations.IllegalWordsOnlySetIllop :=
  ⟨fun w => (decode_eq_error_iff w).trans (ne_opcode_iff (opField w)),
    fun _ _ _ hd hin => step_of_rejected hin hd⟩

/-! ### Performing commands -/

/-- The first command's effect, then the others': every command's word decodes to it. -/
theorem performs_of_exec {i : Instr} {s t : State} (cs : List Instr) (h : exec i s = .next t) :
    s.performs (i :: cs) = t.performs cs := performs_cons cs (decode_encode i) h

/-- CRC.UPD for each byte folds them into CRC_VAL (R111, R114). -/
theorem performs_map_crcUpd (s : State) (p : List Byte) :
    s.performs (p.map .crcUpd) = .next { s with crcVal := crcFold s.crcVal p } := by
  induction p generalizing s with
  | nil => rfl
  | cons d p ih => exact (performs_of_exec _ rfl).trans (ih _)

/-- Settles O26: CRC.CLR leaves CRC_INIT, from which the bytes are folded. -/
theorem crcOfLeavesTheCrcOfItsBytes : Obligations.CrcOfLeavesTheCrcOfItsBytes := fun s p =>
  (performs_of_exec _ rfl).trans (performs_map_crcUpd { s with crcVal := Config.crcInit } p)

end Sys2Proof.Machine
end

section
/-! PROOFS. The assembler (30_encoding.md R75, R76): the words of a line, the bytes of a list, and the words of a
pseudo-instruction -/

namespace Sys2Proof

/-! ### Words as numbers -/

theorem commandWord_toNat (op d : Byte) : (commandWord op d).toNat = op.toNat * 256 + d.toNat := append_value op d

theorem commandWord_toNat_mod (op d : Byte) : (commandWord op d).toNat % 256 = d.toNat := by
  rw [commandWord_toNat]
  have := d.isLt
  omega

theorem encode_command_toNat {m : Mnemonic} (hm : m.takesOperand = true) (d : Byte) :
    (encode (m.command d)).toNat = m.opcode.toNat * 256 + d.toNat := by
  rw [encode_command, Mnemonic.operand?_command, if_pos hm]
  exact commandWord_toNat _ _

/-- The words of a data-carrying command over some bytes, as numbers. -/
theorem map_encode_command_toNat {m : Mnemonic} (hm : m.takesOperand = true) (bs : List Byte) :
    ((bs.map m.command).map encode).map BitVec.toNat = (bs.map BitVec.toNat).map (m.opcode.toNat * 256 + ·) := by
  simp [encode_command_toNat hm]

/-! ### Lines (R75) -/

theorem Mnemonic.takesOperand_iff (m : Mnemonic) : m.takesOperand = true ↔
    m = .crcUpd ∨ m = .txData ∨ m = .rxByte ∨ m = .pByte ∨ m = .rdreg := by
  cases m <;> simp [Mnemonic.takesOperand]

/-- The number that an operand is written as. -/
def AsmOperand.value : AsmOperand → Nat
  | .hex n => n
  | .dec n => n
  | .chr c => c.toNat

/-- An operand in range is a byte. -/
theorem AsmOperand.toNat_toByte {o : AsmOperand} (h : o.wf = true) : o.toByte.toNat = o.value := by
  cases o <;> simp only [AsmOperand.wf, decide_eq_true_eq] at h <;>
    exact (BitVec.toNat_ofNat ..).trans (Nat.mod_eq_of_lt (by omega))

theorem assemble_operand_eq_none {m : Mnemonic} {o : AsmOperand} (h : ¬ (m.takesOperand = true ∧ o.wf = true)) :
    assemble ⟨m, some o⟩ = none :=
  if_neg (mt (Bool.and_eq_true_iff.1 ·) h)

theorem assemble_operand {m : Mnemonic} {o : AsmOperand} (hm : m.takesOperand = true) (ho : o.wf = true) :
    assemble ⟨m, some o⟩ = some (commandWord m.opcode o.toByte) :=
  if_pos (Bool.and_eq_true_iff.2 ⟨hm, ho⟩)

/-- A line that assembles with an operand: its word, and the command it decodes to. -/
theorem assemble_operand_decodes {m : Mnemonic} {o : AsmOperand} (hm : m.takesOperand = true) (ho : o.wf = true) :
    ∃ (w : Command) (i : Instr), assemble ⟨m, some o⟩ = some w ∧ decode w = .ok i ∧ i.mnemonic = m ∧
      ∃ b : Byte, i.operand? = some b ∧ b.toNat = o.value ∧ w.toNat % 256 = o.value :=
  ⟨_, _, assemble_operand hm ho, decode_commandWord _ _, m.mnemonic_command _, o.toByte,
    (m.operand?_command _).trans (if_pos hm), AsmOperand.toNat_toByte ho,
    (commandWord_toNat_mod _ _).trans (AsmOperand.toNat_toByte ho)⟩

theorem assemble_bare_decodes (m : Mnemonic) : ∃ (w : Command) (i : Instr), assemble ⟨m, none⟩ = some w ∧
    decode w = .ok i ∧ i.mnemonic = m ∧ w.toNat % 256 = 0 :=
  ⟨_, _, rfl, decode_commandWord _ _, m.mnemonic_command _, commandWord_toNat_mod _ _⟩

/-! ### Byte lists (R76) -/

/-- A list is well formed exactly when its operands are in range: a string is always. -/
theorem all_wf_iff (l : List ByteItem) :
    l.all ByteItem.wf = true ↔ ∀ o, ByteItem.operand o ∈ l → o.wf = true := by
  rw [List.all_eq_true]
  constructor
  · exact fun h o ho => h _ ho
  · intro h item hitem
    cases item with
    | operand o => exact h o hitem
    | str chars => rfl

/-- A character's UTF-8 bytes are those of its code point, range by range. -/
theorem utf8EncodeChar_toNat (c : Char) :
    (String.utf8EncodeChar c).map (BitVec.toNat ∘ UInt8.toBitVec) = Machine.utf8OfCodePoint c.toNat := by
  have hlt : c.val.toNat < 0x110000 := by
    obtain h | h := c.valid
    · omega
    · omega
  unfold String.utf8EncodeChar Machine.utf8OfCodePoint
  simp only [Char.toNat]
  generalize c.val.toNat = v at hlt
  split_ifs <;> simp <;> omega

/-- The numbers that a list item stands for (R76). -/
def ByteItem.values : ByteItem → List Nat
  | .operand o => [o.value]
  | .str chars => chars.flatMap fun c => Machine.utf8OfCodePoint c.toNat

theorem ByteItem.bytes_toNat {item : ByteItem} (h : item.wf = true) : item.bytes.map BitVec.toNat = item.values := by
  cases item with
  | operand o => simp [ByteItem.bytes, ByteItem.values, AsmOperand.toNat_toByte h]
  | str chars => simp [ByteItem.bytes, ByteItem.values, List.map_flatMap, utf8EncodeChar_toNat]

theorem listBytes_toNat {l : List ByteItem} (h : ∀ o, ByteItem.operand o ∈ l → o.wf = true) :
    (listBytes l).map BitVec.toNat = l.flatMap ByteItem.values := by
  rw [listBytes, List.map_flatMap]
  exact List.flatMap_congr fun item hitem =>
    ByteItem.bytes_toNat (List.all_eq_true.1 ((all_wf_iff l).2 h) item hitem)

/-! ### Pseudo-instructions (R76) -/

theorem Pseudo.assemble_eq_none {p : Pseudo} (h : ∃ o, ByteItem.operand o ∈ p.items ∧ ¬ o.wf = true) :
    p.assemble = none := by
  obtain ⟨o, ho, hwf⟩ := h
  exact if_neg fun hp => hwf ((all_wf_iff _).1 hp o ho)

theorem Pseudo.assemble_of_wf {p : Pseudo} (h : ∀ o, ByteItem.operand o ∈ p.items → o.wf = true) :
    p.assemble = some (p.expand.map encode) := if_pos ((all_wf_iff _).2 h)

section
variable {l : List ByteItem} (h : ∀ o, ByteItem.operand o ∈ l → o.wf = true)
include h

theorem crcOf_words : ((Pseudo.crcOf l).expand.map encode).map BitVec.toNat =
    0x1000 :: (l.flatMap ByteItem.values).map (0x1100 + ·) := by
  rw [← listBytes_toNat h]
  exact congrArg _ (map_encode_command_toNat (m := .crcUpd) rfl _)

theorem txFrame_words : ((Pseudo.txFrame l).expand.map encode).map BitVec.toNat =
    0x2000 :: ((l.flatMap ByteItem.values).map (0x2100 + ·) ++ [0x2200]) := by
  rw [← listBytes_toNat h]
  simp only [Pseudo.expand, txFrameCommands, List.map_cons, List.map_append]
  exact congrArg (fun ws => 0x2000 :: (ws ++ [0x2200])) (map_encode_command_toNat (m := .txData) rfl _)

theorem rxFeed_words : ((Pseudo.rxFeed l).expand.map encode).map BitVec.toNat =
    (l.flatMap ByteItem.values).map (0x3000 + ·) := by
  rw [← listBytes_toNat h]
  exact map_encode_command_toNat (m := .rxByte) rfl _

theorem pParse_words : ((Pseudo.pParse l).expand.map encode).map BitVec.toNat =
    0x4000 :: ((l.flatMap ByteItem.values).map (0x4100 + ·) ++ [0x4200]) := by
  rw [← listBytes_toNat h]
  simp only [Pseudo.expand, pParseCommands, List.map_cons, List.map_append]
  exact congrArg (fun ws => 0x4000 :: (ws ++ [0x4200])) (map_encode_command_toNat (m := .pByte) rfl _)

end

end Sys2Proof

namespace Sys2Proof.Machine

/-- Settles O5: the lines by their mnemonic and operand, and the four rows of R76's table over the list's bytes. -/
theorem assembledWordsDecode : Obligations.AssembledWordsDecode := by
  unfold Obligations.AssembledWordsDecode
  intro inRange value bytes
  have hrange : ∀ o, inRange o ↔ o.wf = true := fun o => by cases o <;> exact decide_eq_true_iff.symm
  have hvalue : value = AsmOperand.value := by funext o; cases o <;> rfl
  have hbytes : bytes = fun l => l.flatMap ByteItem.values := by
    funext l
    refine congrArg (l.flatMap ·) ?_
    funext item
    cases item <;> simp [ByteItem.values, hvalue]
  simp only [hrange, hbytes, hvalue, ← Mnemonic.takesOperand_iff]
  refine ⟨fun m o => ⟨assemble_operand_eq_none, fun ⟨hm, ho⟩ => assemble_operand_decodes hm ho⟩,
    assemble_bare_decodes, fun l => ⟨fun h => ?_, fun h => ?_⟩⟩
  · exact ⟨Pseudo.assemble_eq_none h, Pseudo.assemble_eq_none h, Pseudo.assemble_eq_none h, Pseudo.assemble_eq_none h⟩
  · exact ⟨_, _, _, _, Pseudo.assemble_of_wf h, crcOf_words h, Pseudo.assemble_of_wf h, txFrame_words h,
      Pseudo.assemble_of_wf h, rxFeed_words h, Pseudo.assemble_of_wf h, pParse_words h⟩

end Sys2Proof.Machine
end

section
/-! PROOFS. Headers of top-level records (30_encoding.md R79, R81): the parser over several bytes, and the length that
the bytes of each size tier assemble (43_tlv_parser.md R182, R184, R185) -/

namespace Sys2Proof.Machine

/-! ### Several parser bytes -/

/-- The parser's registers after some bytes, and the events it emits over them, in order. -/
def Tlvp.feed (maxDepth : Byte) : List Byte → Tlvp → Tlvp × List PEvent
  | [], p => (p, [])
  | b :: bs, p => emitBefore (p.byte maxDepth b).2 (Tlvp.feed maxDepth bs (p.byte maxDepth b).1)

@[simp] theorem Tlvp.feed_nil (m : Byte) (p : Tlvp) : p.feed m [] = (p, []) := rfl

/-- A byte on which nothing is reported. -/
theorem Tlvp.feed_cons_silent {m b : Byte} {p q : Tlvp} (bs : List Byte) (h : p.byte m b = (q, [])) :
    p.feed m (b :: bs) = q.feed m bs := by
  rw [Tlvp.feed, h, emitBefore_nil]

theorem Tlvp.feed_singleton (m b : Byte) (p : Tlvp) : p.feed m [b] = p.byte m b := by
  simp [Tlvp.feed, emitBefore]

/-- P.BYTE for each byte of a list is the parser fed that list. -/
theorem performs_map_pByte (s : State) (bs : List Byte) :
    s.performs (bs.map .pByte) = .next (s.applyTlvp (s.tlv.feed s.cfg.maxDepth bs)) := by
  induction bs generalizing s with
  | nil => simp [State.applyTlvp]
  | cons b bs ih =>
    rw [List.map_cons, performs_of_exec _ rfl, ih]
    simp [State.applyTlvp, Tlvp.feed, emitBefore]

/-! ### Big-endian lengths (R184, R185) -/

/-- Bytes shifted in one after another append their number to the length so far. -/
theorem foldl_shiftInLen_beBytes (k a n : Nat) :
    (beBytes k n).foldl shiftInLen (BitVec.ofNat 32 a) = BitVec.ofNat 32 (a * 256 ^ k + n % 256 ^ k) := by
  induction k generalizing a with
  | zero => simp [beBytes, Nat.mod_one]
  | succ k ih =>
    have hbyte : shiftInLen (BitVec.ofNat 32 a) (BitVec.ofNat 8 (n / 256 ^ k)) =
        BitVec.ofNat 32 (a * 256 + n / 256 ^ k % 256) := by
      rw [shiftInLen_eq]
      apply BitVec.eq_of_toNat_eq
      simp only [BitVec.toNat_ofNat]
      omega
    rw [beBytes, List.foldl_cons, hbyte, ih, Nat.pow_succ, Nat.mod_mul]
    congr 1
    ring

/-- The bytes of a length that fits them assemble it. -/
theorem foldl_shiftInLen_zero {k n : Nat} (h : n < 256 ^ k) : (beBytes k n).foldl shiftInLen 0 = BitVec.ofNat 32 n := by
  have hfold := foldl_shiftInLen_beBytes k 0 n
  rwa [Nat.zero_mul, Nat.zero_add, Nat.mod_eq_of_lt h] at hfold

/-! ### Header bytes with no container open -/

section TopLevel
variable {m : Byte} {p : Tlvp} (hs : p.stack = [])
include hs

theorem hdrConsume_topLevel : p.hdrConsume = p := takeFromTop_nil 1 hs

theorem splitCheck_topLevel : p.splitCheck = (p, []) := by
  simp only [Tlvp.splitCheck, hs]

/-- A tag byte with an inline length (R182). -/
theorem byte_tagOf_inline {f : Family} {n : Nat} (hm : p.mode = .tag) (hn : n ≤ 30) :
    p.byte m (tagOf f n) = Tlvp.headerDone m (BitVec.ofNat 32 n) { p with fam := f } := by
  have hle : BitVec.ofNat 5 n ≤ 30 := by
    simp only [BitVec.le_def, BitVec.ofNat_eq_ofNat, BitVec.toNat_ofNat]
    omega
  have hlen : (BitVec.ofNat 5 n).setWidth 32 = BitVec.ofNat 32 n := by
    apply BitVec.eq_of_toNat_eq
    simp only [BitVec.toNat_setWidth, BitVec.toNat_ofNat]
    omega
  rw [byte_of_tag m _ hm]
  simp only [Tlvp.tagByte, hdrConsume_topLevel hs, tagFamily_tagOf, tagSize_tagOf, if_pos hle, hlen]

/-- A tag byte that announces a 16-bit extension (R81, R182). -/
theorem byte_tagOf_extended {f : Family} (hm : p.mode = .tag) :
    p.byte m (tagOf f 31) = ({ p with fam := f, mode := .len16, k := 0, len := 0 }, []) := by
  rw [byte_of_tag m _ hm]
  simp only [Tlvp.tagByte, hdrConsume_topLevel hs, tagFamily_tagOf, tagSize_tagOf]
  rw [if_neg (by decide)]
  exact splitCheck_topLevel hs

/-- The first byte of a 16-bit extension (R184). -/
theorem byte_len16_first {b : Byte} (hm : p.mode = .len16) (hk : p.k = 0) :
    p.byte m b = ({ p with len := shiftInLen p.len b, k := 1 }, []) := by
  rw [byte_of_len16 m _ hm]
  simp only [Tlvp.len16Byte, hdrConsume_topLevel hs, if_pos hk]
  exact splitCheck_topLevel hs

/-- The second byte of a 16-bit extension that is no marker (R184). -/
theorem byte_len16_last {b : Byte} (hm : p.mode = .len16) (hk : p.k = 1) (hl : shiftInLen p.len b ≠ 0xFFFF) :
    p.byte m b = Tlvp.headerDone m (shiftInLen p.len b) { p with len := shiftInLen p.len b } := by
  rw [byte_of_len16 m _ hm]
  simp only [Tlvp.len16Byte, hdrConsume_topLevel hs, hk]
  rw [if_neg (by decide), if_pos hl]

/-- The second byte of the marker 0xFFFF (R81, R184). -/
theorem byte_len16_marker {b : Byte} (hm : p.mode = .len16) (hk : p.k = 1) (hl : shiftInLen p.len b = 0xFFFF) :
    p.byte m b = ({ p with mode := .len32, k := 0, len := 0 }, []) := by
  rw [byte_of_len16 m _ hm]
  simp only [Tlvp.len16Byte, hdrConsume_topLevel hs, hk]
  rw [if_neg (by decide), if_neg (not_not_intro hl)]
  exact splitCheck_topLevel hs

/-- A byte of a 32-bit extension before the last (R185). -/
theorem byte_len32_more {b : Byte} (hm : p.mode = .len32) (hk : p.k < 3) :
    p.byte m b = ({ p with len := shiftInLen p.len b, k := p.k + 1 }, []) := by
  rw [byte_of_len32 m _ hm]
  simp only [Tlvp.len32Byte, hdrConsume_topLevel hs, if_pos hk]
  exact splitCheck_topLevel hs

/-- The last byte of a 32-bit extension (R185). -/
theorem byte_len32_last {b : Byte} (hm : p.mode = .len32) (hk : p.k = 3) :
    p.byte m b = Tlvp.headerDone m (shiftInLen p.len b) { p with len := shiftInLen p.len b } := by
  rw [byte_of_len32 m _ hm]
  simp only [Tlvp.len32Byte, hdrConsume_topLevel hs, hk]
  rw [if_neg (by decide)]

/-! ### Whole headers, tier by tier (R81) -/

/-- The two bytes of a 16-bit length. -/
theorem feed_len16 {n : Nat} (hm : p.mode = .len16) (hk : p.k = 0) (hl : p.len = 0) (hn : n ≤ 0xFFFE) :
    p.feed m (beBytes 2 n) =
      Tlvp.headerDone m (BitVec.ofNat 32 n) { p with len := BitVec.ofNat 32 n, k := 1 } := by
  have hlen := foldl_shiftInLen_zero (k := 2) (n := n) (by omega)
  simp only [beBytes, List.foldl] at hlen
  have hmarker : BitVec.ofNat 32 n ≠ 0xFFFF := by
    simp only [ne_eq, ← BitVec.toNat_inj, BitVec.ofNat_eq_ofNat, BitVec.toNat_ofNat]
    omega
  rw [beBytes, beBytes, beBytes, Tlvp.feed_cons_silent _ (byte_len16_first hs hm hk), Tlvp.feed_singleton, hl,
    byte_len16_last (p := { p with len := _, k := 1 }) hs hm rfl (by simpa only [hlen] using hmarker)]
  simp only [hlen]

/-- The bytes of the marker 0xFFFF (R81). -/
theorem feed_marker {bs : List Byte} (hm : p.mode = .len16) (hk : p.k = 0) (hl : p.len = 0) :
    p.feed m (0xFF :: 0xFF :: bs) = Tlvp.feed m bs { p with mode := .len32, k := 0, len := 0 } := by
  have hmarker : shiftInLen (shiftInLen 0 0xFF) 0xFF = 0xFFFF := by decide
  rw [Tlvp.feed_cons_silent _ (byte_len16_first hs hm hk), hl,
    Tlvp.feed_cons_silent _ (byte_len16_marker (p := { p with len := shiftInLen 0 0xFF, k := 1 }) hs hm rfl hmarker)]

/-- The bytes of a 32-bit length that are still to come. -/
theorem feed_len32 {bs : List Byte} (hm : p.mode = .len32) (hb : bs ≠ []) (hk : p.k.toNat + bs.length = 4) :
    p.feed m bs =
      Tlvp.headerDone m (bs.foldl shiftInLen p.len) { p with len := bs.foldl shiftInLen p.len, k := 3 } := by
  induction bs generalizing p with
  | nil => exact absurd rfl hb
  | cons b bs ih =>
    cases bs with
    | nil =>
      have hk : p.k = 3 := BitVec.eq_of_toNat_eq (Nat.succ.inj hk)
      rw [Tlvp.feed_singleton, byte_len32_last hs hm hk]
      simp only [List.foldl, hk]
    | cons b' bs =>
      have hlt : p.k < 3 := by
        simp only [List.length_cons] at hk
        bv_omega
      have hnext : (p.k + 1).toNat + (b' :: bs).length = 4 := by
        simp only [List.length_cons] at hk ⊢
        bv_omega
      rw [Tlvp.feed_cons_silent _ (byte_len32_more hs hm hlt),
        ih (p := { p with len := shiftInLen p.len b, k := p.k + 1 }) hs hm (List.cons_ne_nil _ _) hnext]
      rfl

/-- The header of a top-level record leads to `header_done` of its length, whatever tier it is written in. -/
theorem feed_headerBytes {f : Family} {tier : SizeTier} {n : Nat} (hm : p.mode = .tag) (hn : tier.fits n = true) :
    ∃ (mode : PMode) (k : BitVec 2) (len : Word32), p.feed m (headerBytes f tier n) =
      Tlvp.headerDone m (BitVec.ofNat 32 n) { p with fam := f, mode := mode, k := k, len := len } := by
  cases tier with
  | inline =>
    have hn : n ≤ 30 := of_decide_eq_true hn
    refine ⟨p.mode, p.k, p.len, ?_⟩
    rw [headerBytes, Tlvp.feed_singleton, byte_tagOf_inline hs hm hn]
  | ext16 =>
    have hn : n ≤ 0xFFFE := of_decide_eq_true hn
    refine ⟨.len16, 1, BitVec.ofNat 32 n, ?_⟩
    rw [headerBytes, Tlvp.feed_cons_silent _ (byte_tagOf_extended hs hm)]
    exact feed_len16 (p := { p with fam := f, mode := .len16, k := 0, len := 0 }) hs rfl rfl rfl hn
  | ext32 =>
    have hn : n ≤ 0xFFFFFFFF := of_decide_eq_true hn
    refine ⟨.len32, 3, BitVec.ofNat 32 n, ?_⟩
    rw [headerBytes, Tlvp.feed_cons_silent _ (byte_tagOf_extended hs hm),
      feed_marker (p := { p with fam := f, mode := .len16, k := 0, len := 0 }) hs rfl rfl rfl,
      ← foldl_shiftInLen_zero (k := 4) (n := n) (by omega)]
    exact feed_len32 (p := { p with fam := f, mode := .len32, k := 0, len := 0 }) (bs := beBytes 4 n) hs rfl
      (List.cons_ne_nil _ _) rfl

/-- A complete header of a top-level String or Bytes record is accepted, and its content awaited (R187). -/
theorem headerDone_awaits_content {f : Family} {len : Word32} (hf : f = .string ∨ f = .bytes) (hpf : p.fam = f)
    (hl : len ≠ 0) :
    p.headerDone m len =
      ({ p with len := len, mode := .content, cnt := len, acc := 0, utf := .start }, [.hdr f len 0]) := by
  have hwidth : legalWidth p.fam len = true := by
    obtain rfl | rfl := hf <;> rw [hpf] <;> rfl
  have hscalar : p.fam.isContainer = false := by
    obtain rfl | rfl := hf <;> rw [hpf] <;> rfl
  have hover : p.overruns len = false := by
    simp only [Tlvp.overruns, hs]
  have haccept : p.headerDone m len = Tlvp.acceptHeader len { p with len := len } := by
    obtain ⟨h, -⟩ | ⟨-, h, -⟩ | ⟨-, -, ⟨h, -⟩, -⟩ | ⟨-, -, -, h⟩ := headerDone_cases m len p
    · cases hwidth.symm.trans h
    · cases hover.symm.trans h
    · cases hscalar.symm.trans h
    · exact h
  rw [haccept]
  obtain ⟨h, -⟩ | ⟨h, -⟩ | ⟨-, h, -⟩ | ⟨-, -, h⟩ := acceptHeader_cases len { p with len := len }
  · cases hscalar.symm.trans h
  · cases hscalar.symm.trans h
  · exact absurd h hl
  · rw [h]
    simp [hs, hpf, Tlvp.depth, depthByte]

end TopLevel

/-- Settles O45: the header's bytes assemble the length tier by tier, and a complete header awaits its content. -/
theorem sizeExtensionsAreBigEndian : Obligations.SizeExtensionsAreBigEndian := by
  intro s f tier n hf hm hs hfit hpos
  have hlt : n < 2 ^ 32 := by
    cases tier <;> exact Nat.lt_of_le_of_lt (of_decide_eq_true hfit) (by decide)
  have hlen : (BitVec.ofNat 32 n).toNat = n := (BitVec.toNat_ofNat ..).trans (Nat.mod_eq_of_lt hlt)
  have hne : BitVec.ofNat 32 n ≠ 0 := by
    rw [ne_eq, ← BitVec.toNat_inj, hlen]; exact Nat.ne_of_gt hpos
  obtain ⟨mode, k, len, hfeed⟩ := feed_headerBytes (m := s.cfg.maxDepth) (f := f) hs hm hfit
  rw [headerDone_awaits_content (p := { s.tlv with fam := f, mode := mode, k := k, len := len }) hs hf rfl hne] at hfeed
  refine ⟨_, performs_map_pByte s _, ?_⟩
  rw [hfeed]
  exact ⟨rfl, rfl, rfl, hlen, hlen, rfl, rfl, hs, rfl⟩

end Sys2Proof.Machine
end

section
/-! PROOFS. The CRC (40_crc.md): its two commands, its properties R115 and R116, and the loop of R112 as division by the
generator -/

namespace Sys2Proof.Machine

open Polynomial

/-! ### The commands (R113, R114) -/

/-- Settles O22: the two words decode to their commands, and each command is its pseudocode. -/
theorem crcCommandsWriteCrcVal : Obligations.CrcCommandsWriteCrcVal := fun _ d =>
  ⟨decode_commandWord .crcClr d, rfl, decode_commandWord .crcUpd d, rfl⟩

/-! ### Leading zero bytes (R115) -/

theorem step8_zero_zero : step8 0 0 = 0 := by decide

theorem crc16_replicate_zero (k : Nat) : crc16 (List.replicate k 0x00) = 0 := by
  induction k with
  | zero => rfl
  | succ k ih => exact (congrArg (crcFold · _) step8_zero_zero).trans ih

/-- Settles O24: the zero bytes leave the remainder at CRC_INIT, from which the rest is folded. -/
theorem leadingZerosDoNotChangeTheCrc : Obligations.LeadingZerosDoNotChangeTheCrc := by
  intro k p
  rw [crc16_append, crc16_replicate_zero]
  rfl

/-! ### The residue (R116) -/

/-- As long as no bit leaves at the top, the turns of the loop only shift. -/
theorem crcShiftTimes_of_lt {n : Nat} {c : Crc} (h : c.toNat * 2 ^ n < 2 ^ 16) : crcShiftTimes n c = c <<< n := by
  induction n generalizing c with
  | zero => exact (BitVec.shiftLeft_zero c).symm
  | succ n ih =>
    have hrest : c.toNat * 2 * 2 ^ n < 2 ^ 16 := by rwa [mul_assoc, ← pow_succ']
    have hfirst : c.toNat * 2 < 2 ^ 16 := (Nat.le_mul_of_pos_right _ (Nat.two_pow_pos n)).trans_lt hrest
    have hmsb : c.msb = false := BitVec.msb_eq_false_iff_two_mul_lt.2 (by omega)
    have hdouble : (c <<< 1).toNat = c.toNat * 2 := by bv_omega
    rw [crcShiftTimes, crcShift, hmsb, if_neg Bool.false_ne_true, ih (by rwa [hdouble]), ← BitVec.shiftLeft_add,
      Nat.add_comm]

/-- The remainder's own high byte cancels it, and its low byte moves up. -/
theorem step8_hiByte (c : Crc) : step8 c (hiByte c) = (loByte c).setWidth 16 <<< 8 := by
  have hcancel : c ^^^ ((hiByte c).setWidth 16 <<< 8) = (loByte c).setWidth 16 := by
    ext i hi
    obtain hlow | hhigh := Nat.lt_or_ge i 8
    · simp [hiByte, loByte, hlow, BitVec.getLsbD_eq_getElem hi]
    · simp [hiByte, loByte, Nat.not_lt.2 hhigh, Nat.add_sub_cancel' hhigh, BitVec.getLsbD_eq_getElem hi,
        (by omega : i - 8 < 8)]
  have hbyte := (loByte c).isLt
  rw [step8, hcancel, crcShiftTimes_of_lt]
  rw [BitVec.toNat_setWidth_of_le (by decide)]
  omega

theorem step8_setWidth_shiftLeft_self (d : Byte) : step8 (d.setWidth 16 <<< 8) d = 0 := by
  rw [step8, BitVec.xor_self]
  rfl

/-- Settles O25: the CRC's two bytes cancel its two bytes, one after the other. -/
theorem crcResidueIsZero : Obligations.CrcResidueIsZero := by
  intro p
  rw [crc16_append, crc16be, crcFold_cons, crcFold_cons, crcFold_nil, step8_hiByte, step8_setWidth_shiftLeft_self]

/-! ### Words as polynomials -/

/-- The bits of a word as the coefficients of a polynomial over the field of two elements: `crcPolynomial` at width 16,
and the bits of one byte in `messagePolynomial`. -/
noncomputable def bitPolynomial {w : Nat} (x : BitVec w) : (ZMod 2)[X] :=
  ∑ i ∈ Finset.range w, if x.getLsbD i then X ^ i else 0

theorem crcPolynomial_eq (c : Crc) : crcPolynomial c = bitPolynomial c := rfl

theorem messagePolynomial_append_singleton (p : List Byte) (b : Byte) :
    messagePolynomial (p ++ [b]) = messagePolynomial p * X ^ 8 + bitPolynomial b := by
  rw [messagePolynomial, List.foldl_append]
  rfl

theorem coeff_bitPolynomial {w : Nat} (x : BitVec w) (n : Nat) :
    (bitPolynomial x).coeff n = if x.getLsbD n then 1 else 0 := by
  have hterm (i : Nat) : (if x.getLsbD i then (X : (ZMod 2)[X]) ^ i else 0).coeff n =
      if n = i then (if x.getLsbD n then 1 else 0) else 0 := by
    obtain rfl | hne := eq_or_ne n i
    · simp [apply_ite (coeff · n)]
    · simp [apply_ite (coeff · n), coeff_X_pow, hne]
  simp only [bitPolynomial, finsetSum_coeff, hterm, Finset.sum_ite_eq, Finset.mem_range]
  obtain hlt | hge := Nat.lt_or_ge n w
  · rw [if_pos hlt]
  · simp [BitVec.getLsbD_of_ge x n hge]

/-- Exclusive OR is addition. -/
theorem bitPolynomial_xor {w : Nat} (x y : BitVec w) : bitPolynomial (x ^^^ y) = bitPolynomial x + bitPolynomial y := by
  ext n
  simp only [coeff_add, coeff_bitPolynomial, BitVec.getLsbD_xor]
  cases x.getLsbD n <;> cases y.getLsbD n <;> simp [CharTwo.add_self_eq_zero]

/-- A shift that loses no bit is a multiplication. -/
theorem bitPolynomial_setWidth_shiftLeft {w : Nat} (x : BitVec w) (k : Nat) :
    bitPolynomial (x.setWidth (w + k) <<< k) = bitPolynomial x * X ^ k := by
  ext n
  simp only [coeff_mul_X_pow', coeff_bitPolynomial, BitVec.getLsbD_shiftLeft, BitVec.getLsbD_setWidth]
  obtain hlow | hge := Nat.lt_or_ge n k
  · simp [hlow, Nat.not_le.2 hlow]
  · obtain hlt | hhigh := Nat.lt_or_ge n (w + k)
    · simp [hge, hlt, Nat.not_lt.2 hge, (by omega : n - k < w + k)]
    · simp [hge, BitVec.getLsbD_of_ge x (n - k) (by omega)]

/-- A shift by one place loses bit 15. -/
theorem bitPolynomial_shiftLeft_one (c : Crc) :
    bitPolynomial (c <<< 1) = bitPolynomial c * X + if c.msb then X ^ 16 else 0 := by
  ext n
  cases n with
  | zero => simp [coeff_bitPolynomial, apply_ite (coeff · 0)]
  | succ n =>
    simp only [coeff_add, coeff_mul_X, coeff_bitPolynomial, apply_ite (coeff · (n + 1)), coeff_X_pow, coeff_zero]
    obtain hlt | rfl | hgt := lt_trichotomy n 15
    · simp [hlt.ne, Nat.succ_lt_succ hlt, BitVec.getLsbD_eq_getElem (Nat.lt_succ_of_lt hlt)]
    · simp [BitVec.msb_eq_getLsbD_last, CharTwo.add_self_eq_zero]
    · simp [hgt.ne', BitVec.getLsbD_of_ge c n hgt]

/-- CRC_POLY leaves the generator's leading term implicit. -/
theorem crcGenerator_eq : crcGenerator = X ^ 16 + bitPolynomial Config.crcPoly := by
  have hpoly : bitPolynomial Config.crcPoly = 1 + X ^ 5 + X ^ 12 := by
    simp [bitPolynomial, Finset.sum_range_succ, Config.crcPoly]
  rw [crcGenerator, hpoly]
  ring

/-! ### The loop of R112 is division by the generator -/

/-- One turn multiplies the remainder by x, and subtracts the generator when the degree reached 16. -/
theorem bitPolynomial_crcShift (c : Crc) :
    bitPolynomial (crcShift c) = bitPolynomial c * X + if c.msb then crcGenerator else 0 := by
  cases hm : c.msb with
  | true => simp [crcShift, hm, bitPolynomial_xor, bitPolynomial_shiftLeft_one, crcGenerator_eq, add_assoc]
  | false => simp [crcShift, hm, bitPolynomial_shiftLeft_one]

/-- The invariant of the loop: `c` stays congruent to the part of the dividend `m` brought down so far. -/
theorem crcGenerator_dvd_crcShiftTimes {n : Nat} {m : (ZMod 2)[X]} {c : Crc} (h : crcGenerator ∣ m + bitPolynomial c) :
    crcGenerator ∣ m * X ^ n + bitPolynomial (crcShiftTimes n c) := by
  induction n generalizing m c with
  | zero => simpa [crcShiftTimes] using h
  | succ n ih =>
    have hturn : crcGenerator ∣ m * X + bitPolynomial (crcShift c) := by
      rw [bitPolynomial_crcShift, ← add_assoc, ← add_mul]
      refine (h.mul_right X).add ?_
      split
      · exact dvd_rfl
      · exact dvd_zero _
    rw [pow_succ', ← mul_assoc]
    exact ih hturn

/-- A byte is brought down: the message so far moves up by eight places, and the remainder with it. -/
theorem crcGenerator_dvd_step8 {m : (ZMod 2)[X]} {c : Crc} (d : Byte)
    (h : crcGenerator ∣ m * X ^ 16 + bitPolynomial c) :
    crcGenerator ∣ (m * X ^ 8 + bitPolynomial d) * X ^ 16 + bitPolynomial (step8 c d) := by
  have henter : m * X ^ 16 + bitPolynomial c =
      (m * X ^ 8 + bitPolynomial d) * X ^ 8 + bitPolynomial (c ^^^ (d.setWidth 16 <<< 8)) := by
    rw [bitPolynomial_xor, bitPolynomial_setWidth_shiftLeft d 8]
    linear_combination -CharTwo.add_self_eq_zero (bitPolynomial d * X ^ 8)
  rw [pow_add _ 8 8, ← mul_assoc]
  exact crcGenerator_dvd_crcShiftTimes (henter ▸ h)

/-- Settles O23, by induction on the message from its end: each byte keeps the remainder congruent to it. -/
theorem crcIsTheRemainderByTheGenerator : Obligations.CrcIsTheRemainderByTheGenerator := by
  intro p
  rw [crcPolynomial_eq]
  induction p using List.reverseRecOn with
  | nil => simp [messagePolynomial, bitPolynomial]
  | append_singleton p b ih =>
    rw [messagePolynomial_append_singleton, crc16_append]
    exact crcGenerator_dvd_step8 b ih

end Sys2Proof.Machine
end

section
/-! PROOFS. The frame encoder (41_framer_tx.md): its three commands, the commands of TX.FRAME, and the shape of the
bytes between the delimiters -/

namespace Sys2Proof.Machine

/-! ### The commands (R132 to R134) -/

/-- `esc` with the AND mask of R6 evaluated at the two reserved bytes (R133). -/
theorem escByte_eq (b : Byte) :
    escByte b = if b = 0x7E then [0x7D, 0x5E] else if b = 0x7D then [0x7D, 0x5D] else [b] := by
  split
  case isTrue h => rw [h, escByte_flag]
  case isFalse hflag =>
    split
    case isTrue h => rw [h, escByte_esc]
    case isFalse hesc => exact escByte_of_ne hflag hesc

theorem escaped_pair (x y : Byte) : escaped [x, y] = escByte x ++ escByte y := by
  simp [escaped_cons]

/-- Settles O27: each command by TX_INFRAME. -/
theorem txCommandsDoAsTheirRules : Obligations.TxCommandsDoAsTheirRules := by
  refine fun s d => ⟨decode_commandWord .txSof d, decode_commandWord .txData d, decode_commandWord .txEof d,
    fun h => ⟨exec_txSof_outside h, exec_txData_outside d h, exec_txEof_outside h⟩,
    fun h => ⟨exec_txSof_inFrame h, ?_, ?_⟩⟩
  · rw [exec_txData_inFrame d h, escByte_eq]
    rfl
  · rw [exec_txEof_inFrame h, escaped_pair, List.append_assoc s.lineTx]
    rfl

/-! ### TX.FRAME (R136) -/

/-- TX.DATA for each byte, in a frame, sends the escaped bytes and folds the bytes themselves into TX_CRC (R133). -/
theorem performs_map_txData (s : State) (c : Crc) (p : List Byte) :
    State.performs (p.map .txData) { s with tx := ⟨true, c⟩ } =
      .next { s with lineTx := s.lineTx ++ escaped p, tx := ⟨true, crcFold c p⟩ } := by
  induction p generalizing s c with
  | nil => rw [escaped_nil, List.append_nil]; rfl
  | cons d p ih =>
    rw [escaped_cons, ← List.append_assoc]
    exact (performs_of_exec _ (exec_txData_inFrame d rfl)).trans (ih { s with lineTx := s.lineTx ++ escByte d } _)

/-- Settles O28: TX.SOF opens the frame with TX_CRC at CRC_INIT, the bytes are sent and folded in, and TX.EOF sends what
TX_CRC then holds. -/
theorem txFrameSendsTheWireFrame : Obligations.TxFrameSendsTheWireFrame := by
  intro s p h
  have hdata := performs_map_txData (s.emitLine [0x7E]) 0 p
  rw [performs_of_exec _ (exec_txSof_outside h)]
  refine (performs_append (fun i _ => decode_encode i) exec_goes_on hdata).trans ?_
  rw [performs_of_exec _ (exec_txEof_inFrame rfl), performs_nil, escaped_append, crc16be, escaped_pair]
  simp only [State.emitLine, List.append_assoc]
  rfl

/-! ### The bytes between the delimiters (R135) -/

theorem flag_notMem_escByte (b : Byte) : 0x7E ∉ escByte b := by
  obtain ⟨hflag, -, h⟩ | ⟨-, x, rfl | rfl, -, h⟩ := escByte_cases b <;> rw [h]
  · simpa using hflag.symm
  all_goals decide

theorem flag_notMem_escaped (bs : List Byte) : 0x7E ∉ escaped bs := by
  intro h
  obtain ⟨b, -, hb⟩ := List.mem_flatMap.1 h
  exact flag_notMem_escByte b hb

theorem escaped_esc_followed (bs : List Byte) (i : Nat) (h : (escaped bs)[i]? = some 0x7D) :
    (escaped bs)[i + 1]? = some 0x5E ∨ (escaped bs)[i + 1]? = some 0x5D := by
  induction bs generalizing i with
  | nil => cases h
  | cons b bs ih =>
    rw [escaped_cons] at h ⊢
    obtain ⟨-, hesc, hb⟩ | ⟨-, x, hx, -, hb⟩ := escByte_cases b <;> rw [hb] at h ⊢
    · match i with
      | 0 => exact absurd (Option.some.inj h) hesc
      | i + 1 => exact ih i h
    · match i with
      | 0 => exact hx.imp (congrArg some) (congrArg some)
      | 1 =>
        obtain rfl : x = 0x7D := Option.some.inj h
        exact absurd hx (by decide)
      | i + 2 => exact ih i h

theorem length_escByte (b : Byte) : (escByte b).length = 1 + if b = 0x7E ∨ b = 0x7D then 1 else 0 := by
  obtain ⟨hflag, hesc, h⟩ | ⟨hres, x, -, -, h⟩ := escByte_cases b
  · rw [h, if_neg (not_or.2 ⟨hflag, hesc⟩)]
    rfl
  · rw [h, if_pos hres]
    rfl

/-- A reserved byte takes two bytes on the line, any other byte one. -/
theorem length_escaped (bs : List Byte) :
    (escaped bs).length = bs.length + bs.countP (fun b => b = 0x7E || b = 0x7D) := by
  induction bs with
  | nil => rfl
  | cons b bs ih =>
    simp only [escaped_cons, List.length_append, length_escByte, ih, List.length_cons, List.countP_cons,
      Bool.or_eq_true, decide_eq_true_eq]
    omega

/-- Settles O29: what lies between the delimiters is the escaped payload and CRC. -/
theorem sentFrameHasNoInnerDelimiter : Obligations.SentFrameHasNoInnerDelimiter := by
  intro s t p hs ht
  cases ht.symm.trans (txFrameSendsTheWireFrame s p hs)
  refine ⟨escaped (p ++ crc16be p), rfl, flag_notMem_escaped _, escaped_esc_followed _, ?_⟩
  have hcrc : (crc16be p).length = 2 := rfl
  simp only [List.length_append, List.length_singleton, length_escaped, List.countP_append, hcrc]
  omega

end Sys2Proof.Machine
end

section
/-! PROOFS. The frame decoder (42_framer_rx.md): its two commands, the bytes that stand on the line for data, and the
frames it delivers -/

namespace Sys2Proof.Machine

/-! ### The procedures, branch by branch (R151 to R155) -/

section Branches
variable {m : Word32} {r : Frx}

theorem Frx.append_of_discard (v : Byte) (hd : r.discard = true) : r.append m v = (r, []) := if_pos hd

theorem Frx.append_of_full (v : Byte) (hd : r.discard = false) (hl : r.buf.length = m.toNat) :
    r.append m v = (⟨[], r.esc, true⟩, [.rxerr .overflow m 0]) := by
  simp [Frx.append, hd, hl]

theorem Frx.append_of_room (v : Byte) (hd : r.discard = false) (hl : r.buf.length ≠ m.toNat) :
    r.append m v = (⟨r.buf ++ [v], r.esc, false⟩, []) := by
  simp [Frx.append, hd, hl]

theorem Frx.byte_of_esc (x : Byte) (he : r.esc = true) :
    r.byte m x = Frx.append m (unescByte x) { r with esc := false } := if_pos he

theorem Frx.byte_plain {x : Byte} (he : r.esc = false) (hx : x ≠ 0x7D ∧ x ≠ 0x7E) : r.byte m x = r.append m x := by
  rw [Frx.byte, he, if_neg Bool.false_ne_true, Config.escByte, Config.flagByte, if_neg hx.1, if_neg hx.2]

theorem Frx.byte_escByte (he : r.esc = false) : r.byte m 0x7D = ({ r with esc := true }, []) := by
  simp [Frx.byte, he, Config.escByte]

theorem Frx.byte_flag_of_discard (he : r.esc = false) (hd : r.discard = true) :
    r.byte m 0x7E = ({ r with discard := false }, []) := by
  simp [Frx.byte, he, hd, Config.escByte, Config.flagByte]

theorem Frx.byte_flag_of_empty (he : r.esc = false) (hd : r.discard = false) (hb : r.buf = []) :
    r.byte m 0x7E = (r, []) := by
  simp [Frx.byte, he, hd, hb, Config.escByte, Config.flagByte]

theorem Frx.byte_flag_of_buffered (he : r.esc = false) (hd : r.discard = false) (hb : r.buf ≠ []) :
    r.byte m 0x7E = (⟨[], false, false⟩, [frameVerdict r.buf]) := by
  simp [Frx.byte, he, hd, hb, Frx.endFrame, Config.escByte, Config.flagByte]

/-- A data byte: the byte after an escape, unescaped, or a byte that is not reserved (R153, R158). -/
theorem Frx.byte_data {x v : Byte}
    (h : (r.esc = true ∧ v = x ||| 0x20) ∨ (r.esc = false ∧ x ≠ 0x7D ∧ x ≠ 0x7E ∧ v = x)) :
    r.byte m x = Frx.append m v { r with esc := false } := by
  obtain ⟨he, rfl⟩ | ⟨he, hesc, hflag, rfl⟩ := h
  · exact Frx.byte_of_esc x he
  · rw [Frx.byte_plain he ⟨hesc, hflag⟩, ← he]

end Branches

/-! ### RX.BYTE and RX.TMO -/

/-- RX.BYTE by the registers and the events of its procedure. -/
theorem exec_rxByte {s : State} {x : Byte} {r : Frx} {evs : List RxEvent} (h : s.rx.byte s.cfg.rxMax x = (r, evs)) :
    exec (.rxByte x) s = .next { s with rx := r, rxOut := s.rxOut ++ evs } :=
  congrArg (fun q => Host.Outcome.next (s.applyFrx q)) h

theorem exec_rxByte_silent {s : State} {x : Byte} {r : Frx} (h : s.rx.byte s.cfg.rxMax x = (r, [])) :
    exec (.rxByte x) s = .next { s with rx := r } := by
  rw [exec_rxByte h, List.append_nil]

/-- A closing delimiter reports its verdict on the buffer (R155). -/
theorem exec_rxByte_flag {s : State} (he : s.rx.esc = false) (hd : s.rx.discard = false) (hb : s.rx.buf ≠ []) :
    exec (.rxByte 0x7E) s =
      .next { s with rx := ⟨[], false, false⟩, rxOut := s.rxOut ++ [frameVerdict s.rx.buf] } :=
  exec_rxByte (Frx.byte_flag_of_buffered he hd hb)

/-- Settles O30: a data byte goes to `rx_append`, by its three branches. -/
theorem rxDataByteIsAppended : Obligations.RxDataByteIsAppended := by
  intro s x v h
  have hdata := Frx.byte_data (m := s.cfg.rxMax) h
  refine ⟨fun hd => exec_rxByte_silent ?_, fun hd hl => exec_rxByte ?_, fun hd hl => exec_rxByte_silent ?_⟩
  · rw [hdata, hd, Frx.append_of_discard v rfl]
  · exact hdata.trans (Frx.append_of_full v hd hl)
  · exact hdata.trans (Frx.append_of_room v hd hl)

/-- Settles O31: the reserved bytes outside an escape, where they do not close a frame. -/
theorem rxEscapeResyncAndIdle : Obligations.RxEscapeResyncAndIdle := by
  refine fun s he => ⟨exec_rxByte_silent (Frx.byte_escByte he), fun hd => ?_, fun hd hb => ?_⟩
  · rw [exec_rxByte_silent (Frx.byte_flag_of_discard he hd), he]
  · exact exec_rxByte_silent (Frx.byte_flag_of_empty he hd hb)

/-- Settles O32: the verdict on one byte, and on a payload and two bytes. -/
theorem rxDelimiterEndsTheFrame : Obligations.RxDelimiterEndsTheFrame := by
  refine fun s he hd => ⟨fun b hb => ?_, fun p h l hb hcrc => ?_, fun p h l hb hcrc => ?_⟩ <;>
    rw [exec_rxByte_flag he hd (by simp [hb]), hb]
  · rw [frameVerdict_short]
  · rw [frameVerdict_split, if_pos hcrc]
  · rw [frameVerdict_split, if_neg hcrc]

/-- Settles O33: RX.TMO has one branch. -/
theorem rxTimeoutDiscardsTheBuffer : Obligations.RxTimeoutDiscardsTheBuffer := fun _ d =>
  ⟨decode_commandWord .rxTmo d, rfl⟩

/-- The OR mask of the receiver hides bit 5 of the line byte (R162). -/
theorem unescByte_xor_mask (x : Byte) : unescByte (x ^^^ 0x20) = unescByte x := by
  ext i hi
  simp only [unescByte, Config.escMaskRx, BitVec.getElem_or, BitVec.getElem_xor]
  cases (0x20 : Byte)[i] <;> simp

/-- Settles O40: the byte after an escape is taken unescaped only. -/
theorem escapedBitFiveFlipIsUndetected : Obligations.EscapedBitFiveFlipIsUndetected := by
  intro s x he
  have hbyte : s.rx.byte s.cfg.rxMax (x ^^^ 0x20) = s.rx.byte s.cfg.rxMax x := by
    rw [Frx.byte_of_esc _ he, Frx.byte_of_esc _ he, unescByte_xor_mask]
  exact exec_rxByte hbyte

/-! ### FRAME events (R155, D14) -/

/-- FRAME is reported of a payload followed by its big-endian CRC, and of nothing else. -/
theorem frameVerdict_eq_frame_iff (buf p : List Byte) : frameVerdict buf = .frame p ↔ buf = p ++ crc16be p := by
  constructor
  · intro hv
    by_cases hl : buf.length < 2
    · simp [frameVerdict, hl] at hv
    · obtain ⟨q, h, l, rfl⟩ := buffer_splits (Nat.le_of_not_lt hl)
      rw [frameVerdict_split] at hv
      split at hv
      · next hcrc =>
        cases hv
        rw [crc16be, hcrc, hiByte_append, loByte_append]
      · cases hv
  · rintro rfl
    rw [crc16be, frameVerdict_split]
    exact if_pos (be16_hiByte_loByte (crc16 p)).symm

/-- `rx_append` reports nothing but OVERFLOW. -/
theorem Frx.append_ne_frame (m : Word32) (v : Byte) (r : Frx) (p : List Byte) : (r.append m v).2 ≠ [.frame p] := by
  obtain ⟨-, he⟩ | ⟨-, -, he⟩ | ⟨-, -, he⟩ := Frx.append_cases m v r <;> simp [he]

/-- Of the branches of RX.BYTE only the closing delimiter reports FRAME. -/
theorem Frx.byte_frame {m : Word32} {x : Byte} {r : Frx} {p : List Byte} (h : (r.byte m x).2 = [.frame p]) :
    x = 0x7E ∧ r.esc = false ∧ r.discard = false ∧ r.buf = p ++ crc16be p ∧ (r.byte m x).1.buf = [] := by
  obtain ⟨-, hr⟩ | ⟨-, -, hr⟩ | ⟨-, -, -, hr⟩ | ⟨-, -, -, -, hr⟩ | ⟨he, hx, hd, -, hr⟩ | ⟨-, -, -, hr⟩ :=
    Frx.byte_cases m x r <;> rw [hr] at h ⊢
  · exact absurd h (Frx.append_ne_frame _ _ _ _)
  · cases h
  · cases h
  · cases h
  · exact ⟨hx, he, hd, (frameVerdict_eq_frame_iff _ _).1 (List.singleton_inj.1 h), rfl⟩
  · exact absurd h (Frx.append_ne_frame _ _ _ _)

/-- Settles O34: of the commands only RX.BYTE and RX.TMO write RX_OUT, and RX.TMO reports TIMEOUT. -/
theorem deliveredFramePassedItsCrc : Obligations.DeliveredFramePassedItsCrc := by
  intro s t i p h hout
  cases i with
  | rxByte x =>
    cases h
    obtain ⟨rfl, hrest⟩ := Frx.byte_frame (List.append_cancel_left hout)
    exact ⟨rfl, hrest⟩
  | rxTmo =>
    cases h
    cases List.append_cancel_left hout
  | nop | rdreg n | crcClr | crcUpd d | txSof | txData d | txEof | pStart | pByte b | pEnd =>
    cases exec_unitEffect h with
    | frx hu => nomatch hu
    | control | crc | ftx | tlvp => simp at hout

/-! ### The bytes that stand on the line for one data byte (R78, R151, R158) -/

/-- The line bytes `u` carry the data byte `v`: `v` itself when it is not reserved, or 0x7D and a byte that unescapes to
`v`. -/
def Carries (u : List Byte) (v : Byte) : Prop :=
  (u = [v] ∧ v ≠ 0x7D ∧ v ≠ 0x7E) ∨ ∃ x : Byte, u = [0x7D, x] ∧ v = unescByte x

theorem carries_escByte (b : Byte) : Carries (escByte b) b := by
  obtain ⟨hflag, hesc, h⟩ | ⟨-, x, -, hx, h⟩ := escByte_cases b
  · exact .inl ⟨h, hesc, hflag⟩
  · exact .inr ⟨x, h, hx.symm⟩

theorem rxFeedCommands_append (xs ys : List Byte) :
    rxFeedCommands (xs ++ ys) = rxFeedCommands xs ++ rxFeedCommands ys := List.map_append

/-- Outside an escape, the line bytes of a data byte hand it to `rx_append`. -/
theorem performs_carries {s : State} {u : List Byte} {v : Byte} (cs : List Instr) (he : s.rx.esc = false)
    (hu : Carries u v) :
    s.performs (rxFeedCommands u ++ cs) = (s.applyFrx (s.rx.append s.cfg.rxMax v)).performs cs := by
  obtain ⟨rfl, hv⟩ | ⟨x, rfl, rfl⟩ := hu
  · exact performs_of_exec cs (exec_rxByte (Frx.byte_plain he hv))
  · refine (performs_of_exec _ (exec_rxByte_silent (Frx.byte_escByte he))).trans ?_
    refine (performs_of_exec cs (exec_rxByte (Frx.byte_of_esc x rfl))).trans ?_
    rw [← he]
    rfl

/-! ### Unescaping (R161) -/

/-- Outside discard mode, with room, the escaped bytes go into the buffer. -/
theorem performs_escaped (s : State) (buf bs : List Byte) (cs : List Instr)
    (hl : buf.length + bs.length ≤ s.cfg.rxMax.toNat) :
    State.performs (rxFeedCommands (escaped bs) ++ cs) { s with rx := ⟨buf, false, false⟩ } =
      State.performs cs { s with rx := ⟨buf ++ bs, false, false⟩ } := by
  induction bs generalizing buf with
  | nil => rw [List.append_nil]; rfl
  | cons b bs ih =>
    rw [List.length_cons] at hl
    have hroom : buf.length ≠ s.cfg.rxMax.toNat := by omega
    rw [escaped_cons, rxFeedCommands_append, List.append_assoc, performs_carries _ rfl (carries_escByte b),
      Frx.append_of_room b rfl hroom, State.applyFrx, List.append_nil]
    refine (ih (buf ++ [b]) (by rw [List.length_append, List.length_singleton]; omega)).trans ?_
    rw [List.append_assoc, List.singleton_append]

/-- Settles O38: the bytes go into the buffer one after the other. -/
theorem unescapingInvertsEscaping : Obligations.UnescapingInvertsEscaping := by
  intro s bs he hd hl
  have hbytes := performs_escaped s s.rx.buf bs [] hl
  have hs : s = { s with rx := ⟨s.rx.buf, s.rx.esc, s.rx.discard⟩ } := rfl
  rw [he, hd] at hs
  rwa [← hs, List.append_nil, performs_nil] at hbytes

/-! ### Whole frames (R159, R160) -/

/-- From the start state, a wire frame without its opening delimiter delivers its payload. -/
theorem performs_frameTail {s : State} {p : List Byte} (hs : s.rx = ⟨[], false, false⟩)
    (hp : p.length + 2 ≤ s.cfg.rxMax.toNat) :
    s.performs (rxFeedCommands (escaped (p ++ crc16be p) ++ [0x7E])) =
      .next { s with rxOut := s.rxOut ++ [.frame p] } := by
  have hlen : (p ++ crc16be p).length = p.length + 2 := by simp [crc16be]
  have hne : p ++ crc16be p ≠ [] := by simp [crc16be]
  have hbytes := performs_escaped s [] (p ++ crc16be p) (rxFeedCommands [0x7E]) (by simpa [hlen] using hp)
  rw [← hs, List.nil_append] at hbytes
  rw [rxFeedCommands_append, hbytes]
  refine (performs_of_exec [] (exec_rxByte_flag rfl rfl hne)).trans ?_
  rw [performs_nil, (frameVerdict_eq_frame_iff _ p).2 rfl, ← hs]

/-- Settles O36: the opening delimiter is idle in the start state (R154). -/
theorem rxReceivesTheWireFrame : Obligations.RxReceivesTheWireFrame := by
  intro s p hs hp
  have hidle : s.rx.byte s.cfg.rxMax 0x7E = (s.rx, []) := by rw [hs]; exact Frx.byte_flag_of_empty rfl rfl rfl
  rw [List.append_assoc]
  exact (performs_of_exec _ (exec_rxByte_silent hidle)).trans (performs_frameTail hs hp)

theorem escaped_of_plain {bs : List Byte} (h : ∀ x ∈ bs, x ≠ 0x7D ∧ x ≠ 0x7E) : escaped bs = bs := by
  induction bs with
  | nil => rfl
  | cons b bs ih =>
    obtain ⟨⟨hesc, hflag⟩, hrest⟩ := List.forall_mem_cons.1 h
    rw [escaped_cons, escByte_of_ne hflag hesc, ih hrest, List.singleton_append]

/-- A verdict other than FRAME is an error report. -/
theorem frameVerdict_isError {buf : List Byte} (h : ∀ q : List Byte, buf ≠ q ++ crc16be q) :
    (frameVerdict buf).isError = true := by
  cases hv : frameVerdict buf with
  | frame q => exact absurd ((frameVerdict_eq_frame_iff buf q).1 hv) (h q)
  | rxerr => rfl

/-- Settles O37: the noise is buffered, the opening delimiter reports its verdict on it and leaves the start state, and
the rest of the frame follows. -/
theorem lineNoiseEndsAtTheOpeningDelimiter : Obligations.LineNoiseEndsAtTheOpeningDelimiter := by
  intro s noise p hs hne hplain hnoise hp
  refine ⟨frameVerdict noise, ?_, frameVerdict_isError⟩
  have hbuffered := performs_escaped s [] noise (rxFeedCommands ([0x7E] ++ escaped (p ++ crc16be p) ++ [0x7E]))
    (by simpa using hnoise)
  rw [← hs, List.nil_append, escaped_of_plain hplain] at hbuffered
  rw [rxFeedCommands_append, hbuffered, List.append_assoc]
  refine (performs_of_exec _ (exec_rxByte_flag rfl rfl hne)).trans ?_
  have htail := performs_frameTail (s := { s with rxOut := s.rxOut ++ [frameVerdict noise] }) hs hp
  rw [List.append_assoc s.rxOut, List.singleton_append] at htail
  rwa [hs] at htail ⊢

/-! ### Discard mode (R152) -/

/-- In discard mode, line bytes that carry data leave the state as it is. -/
theorem performs_discarded {s : State} {units : List (List Byte)} (cs : List Instr) (hs : s.rx = ⟨[], false, true⟩)
    (hu : ∀ u ∈ units, ∃ v, Carries u v) : s.performs (rxFeedCommands units.flatten ++ cs) = s.performs cs := by
  induction units with
  | nil => rfl
  | cons u units ih =>
    obtain ⟨⟨v, hv⟩, hrest⟩ := List.forall_mem_cons.1 hu
    rw [List.flatten_cons, rxFeedCommands_append, List.append_assoc, performs_carries _ (by rw [hs]) hv,
      Frx.append_of_discard v (by rw [hs]), State.applyFrx, List.append_nil]
    exact ih hrest

/-- Settles O39: plain bytes and escape pairs carry data, which is dropped; then the delimiter or RX.TMO. -/
theorem discardModeEndsAtTheNextDelimiter : Obligations.DiscardModeEndsAtTheNextDelimiter := by
  intro s units hs hu
  have hdata : ∀ u ∈ units, ∃ v, Carries u v := by
    intro u hmem
    obtain ⟨x, rfl, hx⟩ | ⟨x, rfl⟩ := hu u hmem
    · exact ⟨x, .inl ⟨rfl, hx⟩⟩
    · exact ⟨unescByte x, .inr ⟨x, rfl, rfl⟩⟩
  have hflag : s.rx.byte s.cfg.rxMax 0x7E = (⟨[], false, false⟩, []) := by
    rw [hs]; exact Frx.byte_flag_of_discard rfl rfl
  refine ⟨?_, ?_, ?_⟩
  · simpa using performs_discarded [] hs hdata
  · rw [rxFeedCommands_append, performs_discarded _ hs hdata]
    exact performs_of_exec [] (exec_rxByte_silent hflag)
  · rw [performs_discarded _ hs hdata, performs_of_exec [] (rxTimeoutDiscardsTheBuffer s 0).2, hs]
    rfl

end Sys2Proof.Machine
end

section
/-! PROOFS. The record parser at any depth (43_tlv_parser.md R182 to R193): a header byte, a checked header, a content
byte and the completion of a record, said once each with the room the innermost container has left -/

namespace Sys2Proof.Machine

/-! ### What the innermost container has left (R183, R187, R189) -/

/-- The innermost container, if one is open, has at least `n` bytes left. -/
def Room (n : Nat) (stack : List StackEntry) : Prop := ∀ top below, stack = top :: below → n ≤ top.rem.toNat

@[simp] theorem room_nil (n : Nat) : Room n [] := fun _ _ h => nomatch h

@[simp] theorem room_cons (n : Nat) (top : StackEntry) (below : List StackEntry) :
    Room n (top :: below) ↔ n ≤ top.rem.toNat :=
  ⟨fun h => h top below rfl, fun h _ _ he => (List.cons.inj he).1 ▸ h⟩

theorem hasRoom_iff (stack : List StackEntry) : HasRoom stack ↔ Room 1 stack :=
  forall₃_congr fun top _ _ => (one_le_toNat_iff top.rem).symm

theorem Room.mono {k n : Nat} {stack : List StackEntry} (hkn : k ≤ n) (h : Room n stack) : Room k stack :=
  fun top below hs => Nat.le_trans hkn (h top below hs)

theorem taken_rem_toNat (r : Word32) (n : Nat) : (BitVec.ofNat 32 (r.toNat - n)).toNat = r.toNat - n := by
  have := r.isLt
  rw [BitVec.toNat_ofNat]; omega

@[simp] theorem length_taken (n : Nat) (stack : List StackEntry) : (taken n stack).length = stack.length := by
  cases stack <;> rfl

@[simp] theorem taken_zero (stack : List StackEntry) : taken 0 stack = stack := by
  cases stack <;> simp [taken]

/-- Bytes counted one after another count together. -/
@[simp] theorem taken_taken (k n : Nat) (stack : List StackEntry) : taken n (taken k stack) = taken (k + n) stack := by
  cases stack with
  | nil => rfl
  | cons top below => simp only [taken, taken_rem_toNat, Nat.sub_sub]

theorem Room.taken {k n : Nat} {stack : List StackEntry} (h : Room (k + n) stack) : Room n (taken k stack) := by
  cases stack with
  | nil => exact room_nil n
  | cons top below =>
    rw [room_cons] at h
    rw [Machine.taken, room_cons, taken_rem_toNat]; omega

/-- A subtraction from the innermost container that it has room for is one of numbers. -/
theorem takeFromTop_of_room {p : Tlvp} {n : Word32} (h : Room n.toNat p.stack) :
    p.takeFromTop n = { p with stack := taken n.toNat p.stack } := by
  cases hs : p.stack with
  | nil => rw [takeFromTop_nil _ hs, taken, ← hs]
  | cons top below =>
    rw [hs, room_cons] at h
    have hrem : top.rem - n = BitVec.ofNat 32 (top.rem.toNat - n.toNat) :=
      BitVec.eq_of_toNat_eq (by rw [taken_rem_toNat, BitVec.toNat_sub_of_le h])
    rw [takeFromTop_cons _ hs, hrem, taken]

theorem hdrConsume_of_room {p : Tlvp} (h : Room 1 p.stack) : p.hdrConsume = { p with stack := taken 1 p.stack } :=
  takeFromTop_of_room h

theorem overruns_eq_false_iff (p : Tlvp) (len : Word32) : p.overruns len = false ↔ Room len.toNat p.stack := by
  unfold Tlvp.overruns
  cases p.stack with
  | nil => simp
  | cons top below => simp [BitVec.not_lt, BitVec.le_def]

theorem splitCheck_of_room {p : Tlvp} (h : Room 1 p.stack) : p.splitCheck = (p, []) := by
  obtain ⟨-, he⟩ | ⟨top, below, hs, hr, -⟩ := splitCheck_cases p
  · exact he
  · exact absurd hr ((hasRoom_iff _).2 h top below hs)

/-! ### A header byte (R182, R184, R185) -/

/-- The parser reads a header byte next. -/
def Tlvp.InHeader (p : Tlvp) : Prop := p.mode = .tag ∨ p.mode = .len16 ∨ p.mode = .len32

/-- P_MODE, P_K, P_FAM and P_LEN after a header byte, and whether it completes the header. -/
def Tlvp.readHeader (b : Byte) (p : Tlvp) : Tlvp × Bool :=
  match p.mode with
  | .tag =>
    if tagSize b ≤ 30 then ({ p with fam := tagFamily b, len := (tagSize b).setWidth 32 }, true)
    else ({ p with mode := .len16, k := 0, fam := tagFamily b, len := 0 }, false)
  | .len16 =>
    if p.k = 0 then ({ p with k := 1, len := shiftInLen p.len b }, false)
    else if shiftInLen p.len b ≠ 0xFFFF then ({ p with len := shiftInLen p.len b }, true)
    else ({ p with mode := .len32, k := 0, len := 0 }, false)
  | .len32 =>
    if p.k < 3 then ({ p with k := p.k + 1, len := shiftInLen p.len b }, false)
    else ({ p with len := shiftInLen p.len b }, true)
  | .content | .error => (p, false)

/-- A header byte is read and counted against the innermost container; then the header is checked if it is complete, and
the container if it is not (R183, R187). -/
theorem byte_of_inHeader {p : Tlvp} (m b : Byte) (hm : p.InHeader) :
    p.byte m b =
      if (p.readHeader b).2 then
        Tlvp.headerDone m (p.readHeader b).1.len { (p.readHeader b).1 with stack := p.hdrConsume.stack }
      else Tlvp.splitCheck { (p.readHeader b).1 with stack := p.hdrConsume.stack } := by
  have hframe : p.hdrConsume = { p with stack := p.hdrConsume.stack } := (takeFromTop_frame 1 p).1
  obtain hm | hm | hm := hm
  · rw [byte_of_tag m b hm, Tlvp.tagByte, hframe]
    simp only [Tlvp.readHeader, hm]
    split <;> rfl
  · rw [byte_of_len16 m b hm, Tlvp.len16Byte, hframe]
    simp only [Tlvp.readHeader, hm]
    split
    · rfl
    · split <;> rfl
  · rw [byte_of_len32 m b hm, Tlvp.len32Byte, hframe]
    simp only [Tlvp.readHeader, hm]
    split <;> rfl

/-- The header is read alike whatever containers are open. -/
theorem readHeader_withStack (b : Byte) (p : Tlvp) (st : List StackEntry) :
    Tlvp.readHeader b { p with stack := st } =
      ({ (p.readHeader b).1 with stack := st }, (p.readHeader b).2) := by
  cases hm : p.mode with
  | tag | len32 => simp only [Tlvp.readHeader, hm]; split <;> rfl
  | len16 => simp only [Tlvp.readHeader, hm]; split_ifs <;> rfl
  | content | error => simp only [Tlvp.readHeader, hm]

section HeaderByte
variable {p q : Tlvp} {m b : Byte} {st : List StackEntry} (hm : p.InHeader) (hr : Room 1 st)
include hm hr

/-- The byte completes a header. -/
theorem byte_header_last (h : p.readHeader b = (q, true)) :
    Tlvp.byte m b { p with stack := st } = Tlvp.headerDone m q.len { q with stack := taken 1 st } := by
  rw [byte_of_inHeader (p := { p with stack := st }) m b hm, readHeader_withStack, h, hdrConsume_of_room hr]; rfl

/-- The byte leaves its header incomplete. -/
theorem byte_header_more (h : p.readHeader b = (q, false)) :
    Tlvp.byte m b { p with stack := st } = Tlvp.splitCheck { q with stack := taken 1 st } := by
  rw [byte_of_inHeader (p := { p with stack := st }) m b hm, readHeader_withStack, h, hdrConsume_of_room hr]; rfl

end HeaderByte

/-- The tag byte of an inline length completes its header. -/
theorem readHeader_inline {p : Tlvp} {f : Family} {n : Nat} (hm : p.mode = .tag) (hn : n ≤ 30) :
    p.readHeader (tagOf f n) = ({ p with fam := f, len := BitVec.ofNat 32 n }, true) := by
  have hle : BitVec.ofNat 5 n ≤ 30 := by
    simp only [BitVec.le_def, BitVec.ofNat_eq_ofNat, BitVec.toNat_ofNat]
    omega
  have hlen : (BitVec.ofNat 5 n).setWidth 32 = BitVec.ofNat 32 n := by
    apply BitVec.eq_of_toNat_eq
    simp only [BitVec.toNat_setWidth, BitVec.toNat_ofNat]
    omega
  simp only [Tlvp.readHeader, hm, tagFamily_tagOf, tagSize_tagOf, if_pos hle, hlen]

/-- The tag byte of an extended length. -/
theorem readHeader_extended {p : Tlvp} {f : Family} (hm : p.mode = .tag) :
    p.readHeader (tagOf f 31) = ({ p with mode := .len16, k := 0, fam := f, len := 0 }, false) := by
  simp only [Tlvp.readHeader, hm, tagFamily_tagOf, tagSize_tagOf]
  rw [if_neg (by decide)]

theorem readHeader_len16_first {p : Tlvp} (b : Byte) (hm : p.mode = .len16) (hk : p.k = 0) :
    p.readHeader b = ({ p with k := 1, len := shiftInLen p.len b }, false) := by
  simp only [Tlvp.readHeader, hm, if_pos hk]

theorem readHeader_len16_last {p : Tlvp} {b : Byte} (hm : p.mode = .len16) (hk : p.k = 1)
    (hl : shiftInLen p.len b ≠ 0xFFFF) : p.readHeader b = ({ p with len := shiftInLen p.len b }, true) := by
  simp only [Tlvp.readHeader, hm]
  rw [if_neg (by rw [hk]; decide), if_pos hl]

theorem readHeader_len16_marker {p : Tlvp} {b : Byte} (hm : p.mode = .len16) (hk : p.k = 1)
    (hl : shiftInLen p.len b = 0xFFFF) : p.readHeader b = ({ p with mode := .len32, k := 0, len := 0 }, false) := by
  simp only [Tlvp.readHeader, hm]
  rw [if_neg (by rw [hk]; decide), if_neg (not_not_intro hl)]

theorem readHeader_len32_more {p : Tlvp} (b : Byte) (hm : p.mode = .len32) (hk : p.k < 3) :
    p.readHeader b = ({ p with k := p.k + 1, len := shiftInLen p.len b }, false) := by
  simp only [Tlvp.readHeader, hm, if_pos hk]

theorem readHeader_len32_last {p : Tlvp} (b : Byte) (hm : p.mode = .len32) (hk : p.k = 3) :
    p.readHeader b = ({ p with len := shiftInLen p.len b }, true) := by
  simp only [Tlvp.readHeader, hm]
  rw [if_neg (by rw [hk]; decide)]

/-! ### A complete header (R187 to R190) -/

/-- A header that passes the three checks is accepted. -/
theorem headerDone_of_checked {p : Tlvp} {m : Byte} {len : Word32} (hw : legalWidth p.fam len = true)
    (hr : Room len.toNat p.stack) (hd : ¬ (p.fam.isContainer = true ∧ len ≠ 0 ∧ p.stack.length = m.toNat)) :
    p.headerDone m len = Tlvp.acceptHeader len { p with len := len } := by
  have ho := (overruns_eq_false_iff p len).2 hr
  obtain ⟨h, -⟩ | ⟨-, h, -⟩ | ⟨-, -, h, -⟩ | ⟨-, -, -, h⟩ := headerDone_cases m len p
  · cases hw.symm.trans h
  · cases ho.symm.trans h
  · exact absurd h hd
  · exact h

section Accept
variable {p : Tlvp} {len : Word32}

theorem takeFromTop_zero (p : Tlvp) : p.takeFromTop 0 = p := by
  rw [takeFromTop_of_room fun _ _ _ => Nat.zero_le _]; exact congrArg (fun st => { p with stack := st }) (taken_zero _)

/-- An empty List or Map is complete at once. -/
theorem acceptHeader_empty_container (hf : p.fam.isContainer = true) (hl : len = 0) :
    p.acceptHeader len =
      emitBefore [.hdr p.fam len (depthByte p.stack.length), .close (depthByte p.stack.length)] p.complete := by
  subst hl
  obtain ⟨-, -, h⟩ | ⟨-, h, -⟩ | ⟨h, -⟩ | ⟨h, -⟩ := acceptHeader_cases 0 p
  · rwa [takeFromTop_zero] at h
  · exact absurd rfl h
  all_goals cases hf.symm.trans h

/-- An empty record of another family emits its value and is complete. -/
theorem acceptHeader_empty_scalar (hf : p.fam.isContainer = false) (hl : len = 0) :
    p.acceptHeader len =
      emitBefore (.hdr p.fam len (depthByte p.stack.length) :: Tlvp.finishScalar { p with acc := 0 })
        (Tlvp.complete { p with acc := 0 }) := by
  subst hl
  obtain ⟨h, -⟩ | ⟨h, -⟩ | ⟨-, -, h⟩ | ⟨-, h, -⟩ := acceptHeader_cases 0 p
  · cases hf.symm.trans h
  · cases hf.symm.trans h
  · rwa [takeFromTop_zero] at h
  · exact absurd rfl h

/-- A List or Map with content is opened, its content claimed from the container around it. -/
theorem acceptHeader_opens (hf : p.fam.isContainer = true) (hl : len ≠ 0) (hr : Room len.toNat p.stack) :
    p.acceptHeader len =
      ({ p with mode := .tag, stack := ⟨p.fam.kind, len, false⟩ :: taken len.toNat p.stack },
        [.hdr p.fam len (depthByte p.stack.length)]) := by
  obtain ⟨-, h, -⟩ | ⟨-, -, h⟩ | ⟨h, -⟩ | ⟨h, -⟩ := acceptHeader_cases len p
  · exact absurd h hl
  · rwa [takeFromTop_of_room hr] at h
  all_goals cases hf.symm.trans h

/-- Another record with content awaits it, claimed from the container around it. -/
theorem acceptHeader_awaits (hf : p.fam.isContainer = false) (hl : len ≠ 0) (hr : Room len.toNat p.stack) :
    p.acceptHeader len =
      ({ p with mode := .content, cnt := len, acc := 0, utf := .start, stack := taken len.toNat p.stack },
        [.hdr p.fam len (depthByte p.stack.length)]) := by
  obtain ⟨h, -⟩ | ⟨h, -⟩ | ⟨-, h, -⟩ | ⟨-, -, h⟩ := acceptHeader_cases len p
  · cases hf.symm.trans h
  · cases hf.symm.trans h
  · exact absurd h hl
  · rwa [takeFromTop_of_room hr] at h

end Accept

/-! ### A content byte (R191) -/

/-- The BYTE events of content bytes: a String's or a Bytes record's, none for other families. -/
def delivered (fam : Family) (bs : List Byte) : List PEvent :=
  if fam = .string ∨ fam = .bytes then bs.map .byte else []

theorem delivered_cons (fam : Family) (b : Byte) (bs : List Byte) :
    delivered fam (b :: bs) = delivered fam [b] ++ delivered fam bs := by
  unfold delivered; split <;> rfl

theorem word_pred_eq_zero_iff (x : Word32) : x - 1 = 0 ↔ x = 1 := BitVec.sub_eq_iff_eq_add

/-- A byte that spoils a String is reported and not delivered. -/
theorem contentByte_of_spoils {p : Tlvp} {b : Byte} (h : SpoilsText p b) :
    p.contentByte b = Tlvp.perr .utf8 { p with cnt := p.cnt - 1, acc := shiftInAcc p.acc b } := by
  obtain ⟨-, hf, h⟩ := h
  obtain ⟨-, he, -⟩ | ⟨u, -, hu, hgood, -⟩ | ⟨hf', -⟩ | ⟨hf', -⟩ := contentByte_cases b p
  · exact he
  · obtain h | ⟨hc, v, hv, hneed⟩ := h
    · cases hu.symm.trans h
    · cases hu.symm.trans hv
      exact absurd ⟨(word_pred_eq_zero_iff _).2 hc, hneed⟩ hgood
  · cases hf.symm.trans hf'
  · exact absurd hf hf'

/-- Any other byte is delivered, and the record goes on or ends. -/
theorem contentByte_of_not_spoils {p : Tlvp} {b : Byte} (hm : p.mode = .content) (h : ¬ SpoilsText p b) :
    ∃ u : Utf8, (if p.fam = .string then utf8Step p.utf b = some u else u = p.utf) ∧
      p.contentByte b = emitBefore (delivered p.fam [b])
        (Tlvp.contentEnd { p with cnt := p.cnt - 1, acc := shiftInAcc p.acc b, utf := u }) := by
  obtain ⟨hf, -, hbad⟩ | ⟨u, hf, hu, -, he⟩ | ⟨hf, he⟩ | ⟨hs, hb, he⟩ := contentByte_cases b p
  · refine absurd ⟨hm, hf, hbad.imp_right ?_⟩ h
    rintro ⟨u, hu, hc, hneed⟩
    exact ⟨(word_pred_eq_zero_iff _).1 hc, u, hu, hneed⟩
  · exact ⟨u, by rwa [if_pos hf], by rw [he, hf]; rfl⟩
  · exact ⟨p.utf, by rw [if_neg (by simp [hf])], by rw [he, hf]; rfl⟩
  · exact ⟨p.utf, by rw [if_neg hs], by rw [he, delivered, if_neg (by simp [hs, hb])]; rfl⟩

theorem contentEnd_last {p : Tlvp} (h : p.cnt = 0) : p.contentEnd = emitBefore p.finishScalar p.complete := if_pos h

theorem contentEnd_more {p : Tlvp} (h : p.cnt ≠ 0) : p.contentEnd = (p, []) := if_neg h

/-! ### The completion of a record (R193) -/

theorem completeIn_stack (p : Tlvp) (x st : List StackEntry) :
    Tlvp.completeIn { p with stack := x } st = p.completeIn st := by
  induction st with
  | nil => rfl
  | cons e below ih => simp only [Tlvp.completeIn, ih]

section Complete
variable {p : Tlvp} {e : StackEntry} {below : List StackEntry}

theorem complete_top (hs : p.stack = []) :
    p.complete = ({ p with mode := .tag, ntop := p.ntop + 1 }, [.top (p.ntop + 1)]) := by
  rw [Tlvp.complete, hs, Tlvp.completeIn, ← hs]

theorem complete_goes_on (hs : p.stack = e :: below) (hr : e.rem ≠ 0) :
    p.complete = ({ p with mode := .tag, stack := { e with odd := !e.odd } :: below }, []) := by
  simp only [Tlvp.complete, hs, Tlvp.completeIn, ne_eq, hr, not_false_eq_true, if_true]

theorem complete_lacks_value (hs : p.stack = e :: below) (h : LacksValue e) :
    p.complete = Tlvp.perr .mapOdd { p with stack := { e with odd := true } :: below } := by
  obtain ⟨hr, hk, ho⟩ := h
  simp [Tlvp.complete, hs, Tlvp.completeIn, hr, hk, ho]

theorem complete_closes (hs : p.stack = e :: below) (hr : e.rem = 0) (h : ¬ LacksValue e) :
    p.complete = emitBefore [.close (depthByte below.length)] (Tlvp.complete { p with stack := below }) := by
  have hodd : ¬ (e.kind = .map ∧ (!e.odd) = true) := fun ⟨hk, ho⟩ => h ⟨hr, hk, by simpa using ho⟩
  simp only [Tlvp.complete, hs, completeIn_stack]
  simp only [Tlvp.completeIn, hr, ne_eq, not_true_eq_false, if_false, if_neg hodd]

end Complete

end Sys2Proof.Machine
end

section
/-! PROOFS. Whole records (43_tlv_parser.md R198, first half): the parser fed the bytes of a record tree, by induction on
the tree -/

namespace Sys2Proof.Machine

/-! ### Feeding -/

theorem Tlvp.feed_append (m : Byte) (xs ys : List Byte) (p : Tlvp) :
    p.feed m (xs ++ ys) = emitBefore (p.feed m xs).2 (Tlvp.feed m ys (p.feed m xs).1) := by
  induction xs generalizing p with
  | nil => rfl
  | cons b xs ih => simp [Tlvp.feed, ih]

theorem Tlvp.feed_cons (m b : Byte) (bs : List Byte) (p : Tlvp) :
    p.feed m (b :: bs) = emitBefore (p.byte m b).2 (Tlvp.feed m bs (p.byte m b).1) := rfl

/-! ### Headers, tier by tier (R81) -/

/-- The bytes `bs` are the rest of a header that the registers `p` have read so far, and complete it with the registers
`q`, the count against the innermost container left aside. -/
inductive HeaderReads : Tlvp → List Byte → Tlvp → Prop
  | last {p q : Tlvp} {b : Byte} (hm : p.InHeader) (h : p.readHeader b = (q, true)) : HeaderReads p [b] q
  | more {p q r : Tlvp} {b : Byte} {bs : List Byte} (hm : p.InHeader) (h : p.readHeader b = (q, false))
    (hr : HeaderReads q bs r) : HeaderReads p (b :: bs) r

theorem HeaderReads.length_pos {p q : Tlvp} {bs : List Byte} (h : HeaderReads p bs q) : 1 ≤ bs.length := by
  cases h <;> simp

/-- The bytes of a header that the innermost container has room for lead to `header_done`. -/
theorem HeaderReads.feed {p q : Tlvp} {bs : List Byte} (m : Byte) (h : HeaderReads p bs q) (st : List StackEntry)
    (hr : Room bs.length st) :
    Tlvp.feed m bs { p with stack := st } = Tlvp.headerDone m q.len { q with stack := taken bs.length st } := by
  induction h generalizing st with
  | last hm h => rw [Tlvp.feed_singleton, byte_header_last hm hr h]; rfl
  | @more p q r b bs hm h hrest ih =>
    have hlen := hrest.length_pos
    rw [List.length_cons, Nat.add_comm] at hr ⊢
    have hbyte : Tlvp.byte m b { p with stack := st } = ({ q with stack := taken 1 st }, []) := by
      rw [byte_header_more hm (hr.mono (by omega)) h]
      exact splitCheck_of_room (Room.taken (hr.mono (by omega)))
    rw [Tlvp.feed_cons_silent _ hbyte, ih _ hr.taken, taken_taken]

/-- The four bytes of a 32-bit length. -/
theorem HeaderReads.ext32 (p : Tlvp) (a b c d : Byte) :
    HeaderReads { p with mode := .len32, k := 0, len := 0 } [a, b, c, d]
      { p with mode := .len32, k := 3, len := [a, b, c, d].foldl shiftInLen 0 } :=
  .more (.inr (.inr rfl)) (readHeader_len32_more a rfl (by simp)) <|
  .more (.inr (.inr rfl)) (readHeader_len32_more b rfl (by simp)) <|
  .more (.inr (.inr rfl)) (readHeader_len32_more c rfl (by simp)) <|
  .last (.inr (.inr rfl)) (readHeader_len32_last d rfl (by simp))

/-- The header bytes of a family and a length, whatever tier it is written in. -/
theorem headerReads_headerBytes {p : Tlvp} {f : Family} {tier : SizeTier} {n : Nat} (hm : p.mode = .tag)
    (hn : tier.fits n = true) : ∃ (mode : PMode) (k : BitVec 2),
      HeaderReads p (headerBytes f tier n) { p with fam := f, mode := mode, k := k, len := BitVec.ofNat 32 n } := by
  cases tier with
  | inline => exact ⟨p.mode, p.k, .last (.inl hm) (readHeader_inline hm (of_decide_eq_true hn))⟩
  | ext16 =>
    have hn : n ≤ 0xFFFE := of_decide_eq_true hn
    have hlen := foldl_shiftInLen_zero (k := 2) (n := n) (by omega)
    simp only [beBytes, List.foldl] at hlen
    have hmarker : BitVec.ofNat 32 n ≠ 0xFFFF := by
      simp only [ne_eq, ← BitVec.toNat_inj, BitVec.ofNat_eq_ofNat, BitVec.toNat_ofNat]
      omega
    refine ⟨.len16, 1, .more (.inl hm) (readHeader_extended hm) <|
      .more (.inr (.inl rfl)) (readHeader_len16_first _ rfl rfl) <| .last (.inr (.inl rfl)) ?_⟩
    refine (readHeader_len16_last rfl rfl ?_).trans ?_
    · simpa only [hlen] using hmarker
    · simp only [hlen]
  | ext32 =>
    have hn : n ≤ 0xFFFFFFFF := of_decide_eq_true hn
    refine ⟨.len32, 3, .more (.inl hm) (readHeader_extended hm) <|
      .more (.inr (.inl rfl)) (readHeader_len16_first _ rfl rfl) <|
      .more (.inr (.inl rfl)) (readHeader_len16_marker rfl rfl (by simp [shiftInLen, zext32])) ?_⟩
    rw [← foldl_shiftInLen_zero (k := 4) (n := n) (by omega)]
    exact HeaderReads.ext32 { p with fam := f } _ _ _ _

/-! ### Content (R191, R192) -/

theorem utf8Run_cons (u : Utf8) (b : Byte) (bs : List Byte) :
    utf8Run u (b :: bs) = (utf8Step u b).bind fun v => utf8Run v bs := rfl

/-- The content of a record, to its last byte: it is delivered, accumulated, and the record's value emitted. -/
theorem feed_content {p : Tlvp} {m : Byte} {bs : List Byte} (hm : p.mode = .content) (hb : bs ≠ [])
    (hc : p.cnt.toNat = bs.length)
    (hu : p.fam = .string → ∃ u, utf8Run p.utf bs = some u ∧ u.need = 0) :
    ∃ q : Tlvp, p.feed m bs = emitBefore (delivered p.fam bs ++ q.finishScalar) q.complete ∧
      q.fam = p.fam ∧ q.len = p.len ∧ q.acc = bs.foldl shiftInAcc p.acc ∧ q.stack = p.stack ∧ q.ntop = p.ntop := by
  induction bs generalizing p with
  | nil => exact absurd rfl hb
  | cons b bs ih =>
    have hgood : ¬ SpoilsText p b := by
      rintro ⟨-, hf, h⟩
      obtain ⟨v, hv, hneed⟩ := hu hf
      obtain h | ⟨h1, u, h, hne⟩ := h
      · rw [utf8Run_cons, h] at hv; cases hv
      · have hbs : bs = [] := by
          rw [h1] at hc
          exact List.length_eq_zero_iff.1 (Nat.succ.inj hc).symm
        rw [utf8Run_cons, h, hbs] at hv
        cases hv
        exact hne hneed
    obtain ⟨u, hstep, he⟩ := contentByte_of_not_spoils hm hgood
    rw [Tlvp.feed_cons, byte_of_content m b hm]
    cases bs with
    | nil =>
      rw [(word_pred_eq_zero_iff _).2 (BitVec.eq_of_toNat_eq hc), contentEnd_last rfl, emitBefore_emitBefore] at he
      exact ⟨{ p with cnt := 0, acc := shiftInAcc p.acc b, utf := u }, by rw [he]; simp [emitBefore],
        rfl, rfl, rfl, rfl, rfl⟩
    | cons b' bs =>
      have hc' : (p.cnt - 1).toNat = (b' :: bs).length := by
        rw [List.length_cons] at hc
        rw [BitVec.toNat_sub_of_le (by rw [BitVec.le_def, hc]; simp), hc]; rfl
      have hne : p.cnt - 1 ≠ 0 := by
        rw [ne_eq, ← BitVec.toNat_inj, hc']; simp
      obtain ⟨q, hq, hregs⟩ := ih (p := { p with cnt := p.cnt - 1, acc := shiftInAcc p.acc b, utf := u }) hm
        (List.cons_ne_nil _ _) hc' fun hf => by
          obtain ⟨v, hv, hneed⟩ := hu hf
          rw [if_pos hf] at hstep
          rw [utf8Run_cons, hstep] at hv
          exact ⟨v, hv, hneed⟩
      refine ⟨q, ?_, hregs⟩
      rw [contentEnd_more hne] at he
      simp only [he, emitBefore_fst, emitBefore_snd, List.append_nil, hq, emitBefore_emitBefore,
        delivered_cons p.fam b (b' :: bs), List.append_assoc]

end Sys2Proof.Machine
end

section
/-! PROOFS. Record trees (43_tlv_parser.md R198): the value of a leaf's content, and the events of a record's bytes by
induction on the tree -/

namespace Sys2Proof.Machine

/-! ### Values (R82, R192) -/

/-- Content bytes accumulate their big-endian number. -/
theorem foldl_shiftInAcc (a : Nat) (bs : List Byte) :
    bs.foldl shiftInAcc (BitVec.ofNat 64 a) = BitVec.ofNat 64 (bs.foldl (fun n b => n * 256 + b.toNat) a) := by
  induction bs generalizing a with
  | nil => rfl
  | cons b bs ih =>
    have hbyte : shiftInAcc (BitVec.ofNat 64 a) b = BitVec.ofNat 64 (a * 256 + b.toNat) := by
      rw [shiftInAcc_eq]
      apply BitVec.eq_of_toNat_eq
      simp only [BitVec.toNat_ofNat]
      omega
    rw [List.foldl_cons, hbyte, ih, List.foldl_cons]

theorem foldl_shiftInAcc_zero (bs : List Byte) : bs.foldl shiftInAcc 0 = BitVec.ofNat 64 (beNat bs) :=
  foldl_shiftInAcc 0 bs

theorem beNat_append_singleton (bs : List Byte) (b : Byte) : beNat (bs ++ [b]) = beNat bs * 256 + b.toNat := by
  simp [beNat]

theorem beNat_lt (bs : List Byte) : beNat bs < 256 ^ bs.length := by
  induction bs using List.reverseRecOn with
  | nil => decide
  | append_singleton bs b ih =>
    have := b.isLt
    rw [beNat_append_singleton, List.length_append, List.length_singleton, Nat.pow_succ]
    omega

/-- The two's-complement value is the number balanced around 0 (R82). -/
theorem beInt_eq_bmod (bs : List Byte) : beInt bs = Int.bmod (beNat bs) (256 ^ bs.length) := by
  have hlt := beNat_lt bs
  have hmod : ((beNat bs : Int) % (256 ^ bs.length : Nat)) = beNat bs := by
    rw [← Int.natCast_mod, Nat.mod_eq_of_lt hlt]
  rw [beInt, Int.bmod_def, hmod]
  split <;> split <;> omega

/-- `sext_64(P_ACC[8n-1:0])` as a number (R192). -/
theorem sextBytes_toInt {n : Nat} (hn : n ≤ 8) (acc : Word64) :
    (sextBytes n acc).toInt = Int.bmod acc.toNat (2 ^ (8 * n)) := by
  rw [sextBytes, Nat.min_eq_left hn, BitVec.toInt_signExtend_of_le (by omega), BitVec.toInt_setWidth]

theorem sextBytes_ofNat_beNat {bs : List Byte} (h : bs.length ≤ 8) :
    sextBytes bs.length (BitVec.ofNat 64 (beNat bs)) = BitVec.ofInt 64 (beInt bs) := by
  have hlt : beNat bs < 2 ^ 64 :=
    Nat.lt_of_lt_of_le (beNat_lt bs) (Nat.pow_le_pow_right (n := 256) (by decide) h)
  rw [← BitVec.ofInt_toInt (x := sextBytes _ _), sextBytes_toInt h, BitVec.toNat_ofNat, Nat.mod_eq_of_lt hlt,
    beInt_eq_bmod, Nat.pow_mul]

section FinishScalar
variable {p : Tlvp}

theorem finishScalar_none (hf : p.fam = .none) : p.finishScalar = [.nil] := by
  simp only [Tlvp.finishScalar, hf]

theorem finishScalar_boolean (hf : p.fam = .boolean) : p.finishScalar = [.bool (decide (p.acc.toNat ≠ 0))] := by
  have hzero : p.acc = 0#64 ↔ p.acc.toNat = 0 := BitVec.toNat_inj.symm
  by_cases hz : p.acc.toNat = 0 <;> simp [Tlvp.finishScalar, hf, hzero, hz]

/-- The empty Integer is no exception: no bits extend to 0. -/
theorem finishScalar_integer (hf : p.fam = .integer) : p.finishScalar = [.int (sextBytes p.len.toNat p.acc)] := by
  by_cases hz : p.len = 0
  · have hext : sextBytes 0 p.acc = 0 := by
      apply BitVec.eq_of_toInt_eq
      rw [sextBytes_toInt (by decide)]
      exact Int.bmod_one _
    simp [Tlvp.finishScalar, hf, hz, hext]
  · simp only [Tlvp.finishScalar, hf, if_neg hz]

theorem finishScalar_real (hf : p.fam = .real) : p.finishScalar = [.real p.len p.acc] := by
  simp only [Tlvp.finishScalar, hf]

theorem finishScalar_text (hf : p.fam = .string ∨ p.fam = .bytes) : p.finishScalar = [] := by
  obtain hf | hf := hf <;> simp only [Tlvp.finishScalar, hf]

end FinishScalar

/-- The BYTE events of a leaf's content and its value are the events R198 gives it. -/
theorem delivered_finishScalar {p : Tlvp} {content : List Byte} (hf : p.fam.isContainer = false)
    (hw : WidthAllowed p.fam content.length) (hl : p.len = BitVec.ofNat 32 content.length)
    (ha : p.acc = BitVec.ofNat 64 (beNat content)) :
    delivered p.fam content ++ p.finishScalar = leafEvents p.fam content := by
  cases h : p.fam with rw [h] at hf hw
  | none => rw [finishScalar_none h]; rfl
  | boolean =>
    have hlt := beNat_lt content
    have hsmall : beNat content < 2 ^ 64 := by
      obtain hw | hw := hw <;> rw [hw] at hlt <;> omega
    rw [finishScalar_boolean h, ha, BitVec.toNat_ofNat, Nat.mod_eq_of_lt hsmall]; rfl
  | integer =>
    have h8 : content.length ≤ 8 := by
      unfold WidthAllowed at hw; omega
    rw [finishScalar_integer h, hl, BitVec.toNat_ofNat, Nat.mod_eq_of_lt (by omega), ha, sextBytes_ofNat_beNat h8]; rfl
  | real => rw [finishScalar_real h, hl, ha]; rfl
  | string | bytes => rw [finishScalar_text (by simp [h])]; exact List.append_nil _
  | list | map => nomatch hf

theorem utf8Valid_iff (bs : List Byte) : utf8Valid bs = true ↔ ∃ u, utf8Run .start bs = some u ∧ u.need = 0 := by
  unfold utf8Valid
  cases utf8Run .start bs <;> simp

/-! ### One record -/

/-- The registers `q` are those of `p` after `n` bytes of a record in the innermost container, but for the registers that
only the record being read uses. -/
def Reached (n : Nat) (p q : Tlvp) : Prop := q.stack = taken n p.stack ∧ q.ntop = p.ntop

theorem SizeTier.lt_of_fits {tier : SizeTier} {n : Nat} (h : tier.fits n = true) : n < 2 ^ 32 := by
  cases tier <;> exact Nat.lt_of_le_of_lt (of_decide_eq_true h) (by decide)

theorem word_ofNat_toNat {n : Nat} (h : n < 2 ^ 32) : (BitVec.ofNat 32 n).toNat = n := by
  rw [BitVec.toNat_ofNat, Nat.mod_eq_of_lt h]

theorem word_ofNat_eq_zero_iff {n : Nat} (h : n < 2 ^ 32) : BitVec.ofNat 32 n = 0 ↔ n = 0 := by
  rw [← BitVec.toNat_inj, word_ofNat_toNat h]; rfl

/-- A header that fits its container and passes the checks, then fed on: the header's bytes lead to `acceptHeader`. -/
theorem feed_header {p : Tlvp} {m : Byte} {f : Family} {tier : SizeTier} {n : Nat} (hm : p.mode = .tag)
    (hn : tier.fits n = true) (hw : legalWidth f (BitVec.ofNat 32 n) = true)
    (hr : Room ((headerBytes f tier n).length + n) p.stack)
    (hd : ¬ (f.isContainer = true ∧ n ≠ 0 ∧ p.stack.length = m.toNat)) :
    ∃ q : Tlvp, p.feed m (headerBytes f tier n) = q.acceptHeader (BitVec.ofNat 32 n) ∧
      q.fam = f ∧ q.len = BitVec.ofNat 32 n ∧ Reached (headerBytes f tier n).length p q := by
  have hlt := SizeTier.lt_of_fits hn
  obtain ⟨mode, k, hreads⟩ := headerReads_headerBytes (f := f) hm hn
  have hfeed := hreads.feed m p.stack (hr.mono (Nat.le_add_right _ _))
  rw [headerDone_of_checked hw (by rw [word_ofNat_toNat hlt]; exact hr.taken)
    (by rwa [length_taken, ne_eq, word_ofNat_eq_zero_iff hlt])] at hfeed
  exact ⟨_, hfeed, rfl, rfl, rfl, rfl⟩

/-- A complete header of a leaf, then its content, emit the leaf's events and complete it. -/
theorem feed_leaf_content {p : Tlvp} {m : Byte} {content : List Byte} (hf : p.fam.isContainer = false)
    (hw : WidthAllowed p.fam content.length) (hlt : content.length < 2 ^ 32)
    (hl : p.len = BitVec.ofNat 32 content.length) (ht : p.fam = .string → utf8Valid content = true)
    (hr : Room content.length p.stack) :
    ∃ q : Tlvp, emitBefore (p.acceptHeader p.len).2 (Tlvp.feed m content (p.acceptHeader p.len).1) =
        emitBefore (.hdr p.fam p.len (depthByte p.stack.length) :: leafEvents p.fam content) q.complete ∧
      Reached content.length p q := by
  have hnat : p.len.toNat = content.length := by rw [hl, word_ofNat_toNat hlt]
  by_cases hz : p.len = 0
  · have hnil : content = [] := by rw [hz] at hnat; exact List.length_eq_zero_iff.1 hnat.symm
    subst hnil
    refine ⟨{ p with acc := 0 }, ?_, (taken_zero _).symm, rfl⟩
    rw [acceptHeader_empty_scalar hf hz, ← delivered_finishScalar (p := { p with acc := 0 }) hf hw hl rfl]
    simp [delivered, emitBefore]
  · have hne : content ≠ [] := fun h => hz (by rw [hl, h]; rfl)
    rw [acceptHeader_awaits hf hz (hnat ▸ hr)]
    obtain ⟨q, hfeed, hqf, hql, hqa, hqs, hqn⟩ := feed_content (m := m) (bs := content)
      (p := { p with mode := .content, cnt := p.len, acc := 0, utf := .start, stack := taken p.len.toNat p.stack })
      rfl hne hnat fun hs => (utf8Valid_iff content).1 (ht hs)
    refine ⟨q, ?_, by rw [hqs, hnat], hqn⟩
    have hvalue := delivered_finishScalar (p := q) (content := content) (by rwa [hqf]) (by rwa [hqf]) (hql.trans hl)
      (hqa.trans (foldl_shiftInAcc_zero content))
    rw [hqf] at hvalue
    rw [hfeed, hvalue]
    simp [emitBefore]

/-- The bytes of a leaf emit its events and complete it. -/
theorem feed_leaf {p : Tlvp} {m : Byte} {f : Family} {tier : SizeTier} {content : List Byte} (hm : p.mode = .tag)
    (hv : (Rec.leaf f tier content).valid = true) (hr : Room (Rec.leaf f tier content).bytes.length p.stack) :
    ∃ q : Tlvp, p.feed m (Rec.leaf f tier content).bytes =
        emitBefore ((Rec.leaf f tier content).events p.stack.length) q.complete ∧
      Reached (Rec.leaf f tier content).bytes.length p q := by
  simp only [Rec.valid, Bool.and_eq_true, Bool.not_eq_true', Bool.or_eq_true, bne_iff_ne, ne_eq] at hv
  obtain ⟨⟨⟨hf, hn⟩, hw⟩, hutf⟩ := hv
  have hlt := SizeTier.lt_of_fits hn
  rw [Rec.bytes, List.length_append] at hr ⊢
  obtain ⟨q, hfeed, rfl, hql, hqs, hqn⟩ := feed_header (m := m) hm hn hw hr (by simp [hf])
  obtain ⟨r, hcontent, hrs, hrn⟩ := feed_leaf_content (p := q) (m := m) hf ((legalWidth_iff q.fam hlt).1 hw) hlt hql
    (fun hs => hutf.resolve_left (not_not_intro hs)) (by rw [hqs]; exact hr.taken)
  refine ⟨r, ?_, by rw [hrs, hqs, taken_taken], hrn.trans hqn⟩
  rw [Tlvp.feed_append, hfeed, ← hql, hcontent, hqs, length_taken, hql]
  rfl

@[simp] theorem ContainerKind.isContainer_family (k : ContainerKind) : k.family.isContainer = true := by cases k <;> rfl

@[simp] theorem ContainerKind.kind_family (k : ContainerKind) : k.family.kind = k := by cases k <;> rfl

theorem legalWidth_container {f : Family} (hf : f.isContainer = true) (len : Word32) : legalWidth f len = true := by
  cases f with
  | list | map => rfl
  | _ => nomatch hf

theorem headerBytes_ne_nil (f : Family) (tier : SizeTier) (n : Nat) : headerBytes f tier n ≠ [] := by
  cases tier <;> exact List.cons_ne_nil _ _

theorem Rec.bytes_ne_nil (r : Rec) : r.bytes ≠ [] := by
  cases r <;> exact List.append_ne_nil_of_left_ne_nil (headerBytes_ne_nil _ _ _) _

theorem Rec.length_bytesAll_cons_pos (r : Rec) (rs : List Rec) : 0 < (Rec.bytesAll (r :: rs)).length := by
  have := List.length_pos_of_ne_nil r.bytes_ne_nil
  rw [Rec.bytesAll, List.length_append]; omega

theorem Rec.eventsAll_cons (r : Rec) (rs : List Rec) (d : Nat) :
    Rec.eventsAll (r :: rs) d = r.events d ++ Rec.eventsAll rs d := by rw [Rec.eventsAll]

/-- The header of an empty container emits its events and completes it. -/
theorem feed_empty_container {p : Tlvp} {m : Byte} {kind : ContainerKind} {tier : SizeTier} (hm : p.mode = .tag)
    (hfit : tier.fits 0 = true) (hr : Room (headerBytes kind.family tier 0).length p.stack) :
    ∃ q : Tlvp, p.feed m (headerBytes kind.family tier 0) =
        emitBefore [.hdr kind.family 0 (depthByte p.stack.length), .close (depthByte p.stack.length)] q.complete ∧
      Reached (headerBytes kind.family tier 0).length p q := by
  obtain ⟨q, hfeed, hqf, -, hqs, hqn⟩ :=
    feed_header (m := m) hm hfit (legalWidth_container kind.isContainer_family _) hr (by simp)
  refine ⟨q, ?_, hqs, hqn⟩
  rw [hfeed, acceptHeader_empty_container (len := 0#32) (by rw [hqf, ContainerKind.isContainer_family]) rfl, hqf, hqs, length_taken]
  rfl

/-- The header of a container with content opens it. -/
theorem feed_container {p : Tlvp} {m : Byte} {kind : ContainerKind} {tier : SizeTier} {n : Nat} (hm : p.mode = .tag)
    (hfit : tier.fits n = true) (hn : n ≠ 0) (hd : p.stack.length < m.toNat)
    (hr : Room ((headerBytes kind.family tier n).length + n) p.stack) :
    ∃ q : Tlvp, p.feed m (headerBytes kind.family tier n) =
        (q, [.hdr kind.family (BitVec.ofNat 32 n) (depthByte p.stack.length)]) ∧ q.mode = .tag ∧ q.ntop = p.ntop ∧
      q.stack = ⟨kind, BitVec.ofNat 32 n, false⟩ :: taken ((headerBytes kind.family tier n).length + n) p.stack := by
  have hlt := SizeTier.lt_of_fits hfit
  obtain ⟨q, hfeed, hqf, -, hqs, hqn⟩ :=
    feed_header (m := m) hm hfit (legalWidth_container kind.isContainer_family _) hr (by omega)
  rw [acceptHeader_opens (by rw [hqf, ContainerKind.isContainer_family]) (mt (word_ofNat_eq_zero_iff hlt).1 hn)
    (by rw [hqs, word_ofNat_toNat hlt]; exact hr.taken)] at hfeed
  refine ⟨{ q with
    mode := .tag, stack := ⟨q.fam.kind, BitVec.ofNat 32 n, false⟩ :: taken (BitVec.ofNat 32 n).toNat q.stack },
    ?_, rfl, hqn, ?_⟩
  · rw [hfeed, hqf, hqs, length_taken]
  · simp [hqf, hqs, word_ofNat_toNat hlt]

mutual

/-- The bytes of a record emit its events and complete it, wherever it stands with room and depth enough. -/
theorem feed_record (r : Rec) {p : Tlvp} {m : Byte} (hm : p.mode = .tag) (hv : r.valid = true)
    (hn : r.nesting + p.stack.length ≤ m.toNat) (hr : Room r.bytes.length p.stack) :
    ∃ q : Tlvp, p.feed m r.bytes = emitBefore (r.events p.stack.length) q.complete ∧ Reached r.bytes.length p q :=
  match r with
  | .leaf f tier content => feed_leaf hm hv hr
  | .node kind tier [] => by
    simp only [Rec.valid, Bool.and_eq_true] at hv
    rw [Rec.bytes, Rec.bytesAll, List.append_nil] at hr ⊢
    exact feed_empty_container hm hv.1.1 hr
  | .node kind tier (r :: rs) => by
    simp only [Rec.valid, Bool.and_eq_true, Bool.or_eq_true, bne_iff_ne, beq_iff_eq] at hv
    obtain ⟨⟨hfit, hpairs⟩, hsubs⟩ := hv
    rw [Rec.nesting, ← Rec.nestingAll] at hn
    rw [Rec.bytes, List.length_append] at hr ⊢
    obtain ⟨q, hfeed, hqm, hqn, hqs⟩ := feed_container (m := m) hm hfit
      (Nat.ne_of_gt (Rec.length_bytesAll_cons_pos r rs)) (by omega) hr
    have hlen : q.stack.length = p.stack.length + 1 := by rw [hqs, List.length_cons, length_taken]
    obtain ⟨u, hu, hus, hun⟩ := feed_subs (r :: rs) (m := m) (List.cons_ne_nil _ _) hqm hsubs (by rw [hlen]; omega) hqs
      (word_ofNat_toNat (SizeTier.lt_of_fits hfit)) fun hk => by
        rw [hpairs.resolve_left (not_not_intro hk)]; rfl
    refine ⟨u, ?_, hus, hun.trans hqn⟩
    rw [Tlvp.feed_append, hfeed, hu, emitBefore_emitBefore, hlen, length_taken, Rec.events]
    rfl

/-- The bytes of the last sub-records of a container emit their events and close it. -/
theorem feed_subs (rs : List Rec) {p : Tlvp} {m : Byte} {e : StackEntry} {below : List StackEntry} (hne : rs ≠ [])
    (hm : p.mode = .tag) (hv : Rec.validAll rs = true) (hn : Rec.nestingAll rs + p.stack.length ≤ m.toNat)
    (hs : p.stack = e :: below) (hrem : e.rem.toNat = (Rec.bytesAll rs).length)
    (hodd : e.kind = .map → e.odd = decide (rs.length % 2 = 1)) :
    ∃ q : Tlvp, p.feed m (Rec.bytesAll rs) =
        emitBefore (Rec.eventsAll rs p.stack.length ++ [.close (depthByte below.length)]) q.complete ∧
      q.stack = below ∧ q.ntop = p.ntop :=
  match rs with
  | [] => absurd rfl hne
  | r :: rs => by
    simp only [Rec.validAll, Bool.and_eq_true] at hv
    obtain ⟨hvr, hvrs⟩ := hv
    rw [Rec.nestingAll] at hn
    rw [Rec.bytesAll, List.length_append] at hrem
    obtain ⟨q, hq, hqs, hqn⟩ := feed_record r (m := m) hm hvr (by omega) (by rw [hs, room_cons, hrem]; omega)
    rw [hs, taken] at hqs
    rw [Rec.bytesAll, Tlvp.feed_append, hq]
    have hrest : e.rem.toNat - r.bytes.length = (Rec.bytesAll rs).length := by omega
    cases rs with
    | nil =>
      refine ⟨{ q with stack := below }, ?_, rfl, hqn⟩
      rw [complete_closes hqs (by rw [hrest]; rfl) fun ⟨_, hk, ho⟩ => by cases (hodd hk).symm.trans ho]
      simp [Rec.bytesAll, Rec.eventsAll, emitBefore]
    | cons r' rs =>
      have hpos := Rec.length_bytesAll_cons_pos r' rs
      have hremNat := taken_rem_toNat e.rem r.bytes.length
      generalize BitVec.ofNat 32 (e.rem.toNat - r.bytes.length) = rem at hqs hremNat
      rw [complete_goes_on hqs fun (h : rem = 0) => by rw [h] at hremNat; simp at hremNat; omega]
      obtain ⟨u, hu, hus, hun⟩ := feed_subs (r' :: rs) (m := m) (List.cons_ne_nil _ _)
        (p := { q with mode := .tag, stack := ⟨e.kind, rem, !e.odd⟩ :: below }) rfl hvrs
        (by rw [hs] at hn; simp only [List.length_cons] at hn ⊢; omega) rfl (hremNat.trans hrest) fun hk => by
          rw [hodd hk, ← decide_not, decide_eq_decide, List.length_cons]; omega
      refine ⟨u, ?_, hus, hun.trans hqn⟩
      simp only [emitBefore_fst, emitBefore_snd, List.append_nil]
      rw [hu, emitBefore_emitBefore, hs, Rec.eventsAll_cons r, List.append_assoc]
      rfl

end

/-! ### A whole buffer (R198) -/

/-- The bytes of top-level records emit their events, each with its TOP, and leave the parser between records. -/
theorem feed_topLevel (rs : List Rec) {p : Tlvp} {m : Byte} {k : Nat} (hm : p.mode = .tag) (hs : p.stack = [])
    (hk : p.ntop = BitVec.ofNat 32 k) (hv : Rec.validAll rs = true) (hn : Rec.nestingAll rs ≤ m.toNat) :
    ∃ q : Tlvp, p.feed m (Rec.bytesAll rs) = (q, topLevelEvents rs k) ∧
      q.mode = .tag ∧ q.stack = [] ∧ q.ntop = BitVec.ofNat 32 (k + rs.length) := by
  induction rs generalizing p k with
  | nil => exact ⟨p, by rw [Rec.bytesAll, topLevelEvents, Tlvp.feed_nil], hm, hs, hk⟩
  | cons r rs ih =>
    simp only [Rec.validAll, Bool.and_eq_true] at hv
    rw [Rec.nestingAll] at hn
    obtain ⟨q, hq, hqs, hqn⟩ := feed_record r (m := m) hm hv.1 (by rw [hs, List.length_nil]; omega)
      (by rw [hs]; exact room_nil _)
    rw [hs] at hq hqs
    have hcount : q.ntop + 1 = BitVec.ofNat 32 (k + 1) := by rw [hqn, hk, BitVec.ofNat_add]; rfl
    obtain ⟨u, hu, hum, hus, hun⟩ := ih (p := { q with mode := .tag, ntop := q.ntop + 1 }) (k := k + 1) rfl hqs hcount
      hv.2 (by omega)
    refine ⟨u, ?_, hum, hus, by rw [hun, List.length_cons]; congr 1; omega⟩
    rw [Rec.bytesAll, Tlvp.feed_append, hq, complete_top hqs, emitBefore_fst, emitBefore_snd, hu, hcount,
      topLevelEvents]
    simp [emitBefore]

/-- P.PARSE of some bytes: the reset parser is fed them, and P.END reports and resets it. -/
theorem performs_pParse (s : State) (bs : List Byte) :
    s.performs (pParseCommands bs) = .next { s with
      tlv := .reset
      pOut := s.pOut ++ ((Tlvp.reset.feed s.cfg.maxDepth bs).2 ++ (Tlvp.reset.feed s.cfg.maxDepth bs).1.endEvents) } := by
  rw [pParseCommands, performs_of_exec _ rfl,
    performs_append (fun i _ => decode_encode i) exec_goes_on (performs_map_pByte _ bs), performs_of_exec [] rfl,
    performs_nil]
  simp [State.applyTlvp]

/-- Settles O50: the records' bytes leave the parser between records, where P.END reports END. -/
theorem parserEmitsTheRecordsOfItsBuffer : Obligations.ParserEmitsTheRecordsOfItsBuffer := by
  intro s rs hv hn
  obtain ⟨q, hq, hm, hs, hk⟩ := feed_topLevel rs (p := .reset) (m := s.cfg.maxDepth) (k := 0) rfl rfl rfl hv hn
  rw [performs_pParse, hq, bufferEvents]
  simp [Tlvp.endEvents, Tlvp.depth, hm, hs, hk]

end Sys2Proof.Machine
end

section
/-! PROOFS. Verdicts (43_tlv_parser.md R186, R194, R195, 60_exceptions.md R255): a parse reports at most one error, last,
and P.END adds the verdict that is still missing -/

namespace Sys2Proof.Machine

/-- None of the events is a verdict: an error report or END. -/
def Plain (evs : List PEvent) : Prop := evs.all (fun e => !e.isError && !e.isEnd) = true

theorem plain_append {xs ys : List PEvent} : Plain (xs ++ ys) ↔ Plain xs ∧ Plain ys := by
  simp only [Plain, List.all_append, Bool.and_eq_true]

/-- A procedure of the parser goes on without a verdict, or reports one error, last, and enters ERROR mode. -/
def ReportsOnce (r : Tlvp × List PEvent) : Prop :=
  (r.1.mode ≠ .error ∧ Plain r.2) ∨ (r.1.mode = .error ∧ ∃ evs c, r.2 = evs ++ [.perr c] ∧ Plain evs)

theorem reportsOnce_silent {p : Tlvp} (h : p.mode ≠ .error) : ReportsOnce (p, []) := .inl ⟨h, rfl⟩

theorem reportsOnce_perr (c : PErr) (p : Tlvp) : ReportsOnce (p.perr c) := .inr ⟨rfl, [], c, rfl, rfl⟩

theorem ReportsOnce.emitBefore {evs : List PEvent} {r : Tlvp × List PEvent} (he : Plain evs) (h : ReportsOnce r) :
    ReportsOnce (emitBefore evs r) := by
  obtain ⟨hm, hp⟩ | ⟨hm, xs, c, hx, hp⟩ := h
  · exact .inl ⟨hm, plain_append.2 ⟨he, hp⟩⟩
  · exact .inr ⟨hm, evs ++ xs, c, by rw [emitBefore_snd, hx, List.append_assoc], plain_append.2 ⟨he, hp⟩⟩

theorem reportsOnce_splitCheck {p : Tlvp} (h : p.mode ≠ .error) : ReportsOnce p.splitCheck := by
  obtain ⟨-, he⟩ | ⟨-, -, -, -, he⟩ := splitCheck_cases p <;> rw [he]
  · exact reportsOnce_silent h
  · exact reportsOnce_perr _ _

theorem reportsOnce_complete (p : Tlvp) : ReportsOnce p.complete := by
  have hcloses := closesFrom_plain p.stack.length
  unfold Tlvp.complete
  obtain ⟨n, -, ⟨-, he⟩ | ⟨top, below, -, -, he⟩ | ⟨top, below, -, -, -, -, he⟩⟩ := completeIn_cases p p.stack <;>
    rw [he]
  · exact .inl ⟨nofun, plain_append.2 ⟨hcloses n, rfl⟩⟩
  · exact .inl ⟨nofun, hcloses n⟩
  · exact .inr ⟨rfl, _, _, rfl, hcloses n⟩

theorem reportsOnce_acceptHeader (len : Word32) (p : Tlvp) : ReportsOnce (p.acceptHeader len) := by
  obtain ⟨-, -, he⟩ | ⟨-, -, he⟩ | ⟨-, -, he⟩ | ⟨-, -, he⟩ := acceptHeader_cases len p <;> rw [he]
  · exact (reportsOnce_complete _).emitBefore rfl
  · exact .inl ⟨nofun, rfl⟩
  · exact (reportsOnce_complete _).emitBefore (plain_append (xs := [_]) |>.2 ⟨rfl, finishScalar_plain _⟩)
  · exact .inl ⟨nofun, rfl⟩

theorem reportsOnce_headerDone (m : Byte) (len : Word32) (p : Tlvp) : ReportsOnce (p.headerDone m len) := by
  obtain ⟨-, he⟩ | ⟨-, -, he⟩ | ⟨-, -, -, he⟩ | ⟨-, -, -, he⟩ := headerDone_cases m len p <;> rw [he]
  · exact reportsOnce_perr _ _
  · exact reportsOnce_perr _ _
  · exact reportsOnce_perr _ _
  · exact reportsOnce_acceptHeader _ _

theorem reportsOnce_contentEnd {p : Tlvp} (h : p.mode ≠ .error) : ReportsOnce p.contentEnd := by
  obtain ⟨-, he⟩ | ⟨-, he⟩ := contentEnd_cases p <;> rw [he]
  · exact reportsOnce_silent h
  · exact (reportsOnce_complete p).emitBefore (finishScalar_plain p)

theorem reportsOnce_contentByte {p : Tlvp} (b : Byte) (h : p.mode ≠ .error) : ReportsOnce (p.contentByte b) := by
  have hend (u : Utf8) :=
    reportsOnce_contentEnd (p := { p with cnt := p.cnt - 1, acc := shiftInAcc p.acc b, utf := u }) h
  obtain ⟨-, he, -⟩ | ⟨u, -, -, -, he⟩ | ⟨-, he⟩ | ⟨-, -, he⟩ := contentByte_cases b p <;> rw [he]
  · exact reportsOnce_perr _ _
  · exact (hend u).emitBefore rfl
  · exact (hend p.utf).emitBefore rfl
  · exact hend p.utf

/-- Reading a header byte does not lead to ERROR mode by itself. -/
theorem readHeader_mode {p : Tlvp} (b : Byte) (hm : p.InHeader) : (p.readHeader b).1.InHeader := by
  unfold Tlvp.readHeader
  obtain h | h | h := hm <;> rw [h] <;> dsimp only
  · split <;> simp [Tlvp.InHeader]
  · split_ifs <;> simp [Tlvp.InHeader]
  · split <;> simp [Tlvp.InHeader]

theorem Tlvp.InHeader.ne_error {p : Tlvp} (h : p.InHeader) : p.mode ≠ .error := by
  rintro he
  obtain h | h | h := h <;> cases he.symm.trans h

theorem reportsOnce_byte {p : Tlvp} (m b : Byte) (h : p.mode ≠ .error) : ReportsOnce (p.byte m b) := by
  have header (hm : p.InHeader) : ReportsOnce (p.byte m b) := by
    rw [byte_of_inHeader m b hm]
    split
    · exact reportsOnce_headerDone _ _ _
    · exact reportsOnce_splitCheck (readHeader_mode b hm).ne_error
  cases hm : p.mode with
  | tag => exact header (.inl hm)
  | len16 => exact header (.inr (.inl hm))
  | len32 => exact header (.inr (.inr hm))
  | content => rw [byte_of_content m b hm]; exact reportsOnce_contentByte b h
  | error => exact absurd hm h

/-- In ERROR mode bytes are ignored (R195). -/
theorem feed_of_error {p : Tlvp} (m : Byte) (bs : List Byte) (h : p.mode = .error) : p.feed m bs = (p, []) := by
  induction bs with
  | nil => rfl
  | cons b bs ih => rw [Tlvp.feed_cons_silent bs (byte_of_error m b h), ih]

theorem reportsOnce_feed {p : Tlvp} (m : Byte) (bs : List Byte) (h : p.mode ≠ .error) : ReportsOnce (p.feed m bs) := by
  induction bs generalizing p with
  | nil => exact reportsOnce_silent h
  | cons b bs ih =>
    rw [Tlvp.feed_cons]
    obtain ⟨hm, hp⟩ | ⟨hm, evs, c, he, hp⟩ := reportsOnce_byte m b h
    · exact (ih hm).emitBefore hp
    · rw [feed_of_error m bs hm]
      exact .inr ⟨hm, evs, c, by rw [emitBefore_snd, List.append_nil, he], hp⟩

/-- Everything P.END can report (R194). -/
theorem endEvents_cases (p : Tlvp) :
    (p.mode = .error ∧ p.endEvents = []) ∨
    (p.mode = .tag ∧ p.stack = [] ∧ p.endEvents = [.endBuffer p.ntop]) ∨
    (p.mode ≠ .error ∧ (p.mode ≠ .tag ∨ p.stack ≠ []) ∧ p.endEvents = [.perr .trunc]) := by
  by_cases he : p.mode = .error
  · exact .inl ⟨he, if_pos he⟩
  · by_cases hd : p.mode = .tag ∧ p.stack = []
    · exact .inr (.inl ⟨hd.1, hd.2, by simp [Tlvp.endEvents, Tlvp.depth, hd]⟩)
    · refine .inr (.inr ⟨he, not_and_or.1 hd, ?_⟩)
      simp only [Tlvp.endEvents, Tlvp.depth, List.length_eq_zero_iff, if_neg he, if_neg hd]

/-- A buffer's events end in its only verdict: END when the parser is between top-level records, else an error. -/
theorem feed_endEvents {p : Tlvp} (m : Byte) (bs : List Byte) (h : p.mode ≠ .error) :
    ∃ evs e, (p.feed m bs).2 ++ (p.feed m bs).1.endEvents = evs ++ [e] ∧ Plain evs ∧
      ((∃ c, e = .perr c) ∨
        ((p.feed m bs).1.mode = .tag ∧ (p.feed m bs).1.stack = [] ∧ e = .endBuffer (p.feed m bs).1.ntop)) := by
  have hr := reportsOnce_feed m bs h
  obtain ⟨hm, he⟩ | ⟨hm, hs, he⟩ | ⟨hm, -, he⟩ := endEvents_cases (p.feed m bs).1 <;> rw [he]
  · obtain ⟨hm', -⟩ | ⟨-, evs, c, hx, hp⟩ := hr
    · exact absurd hm hm'
    · exact ⟨evs, _, by rw [List.append_nil, hx], hp, .inl ⟨c, rfl⟩⟩
  · obtain ⟨-, hp⟩ | ⟨hm', -⟩ := hr
    · exact ⟨_, _, rfl, hp, .inr ⟨hm, hs, rfl⟩⟩
    · cases hm.symm.trans hm'
  · obtain ⟨-, hp⟩ | ⟨hm', -⟩ := hr
    · exact ⟨_, _, rfl, hp, .inl ⟨_, rfl⟩⟩
    · exact absurd hm' hm

/-- Settles O52: the bytes report at most one error, and P.END reports exactly when they reported none. -/
theorem everyParseEndsInOneVerdict : Obligations.EveryParseEndsInOneVerdict := by
  intro s bs
  obtain ⟨evs, e, he, hp, hv⟩ := feed_endEvents (p := .reset) s.cfg.maxDepth bs nofun
  refine ⟨evs, e, by rw [performs_pParse, he], ?_, hp⟩
  obtain ⟨c, rfl⟩ | ⟨-, -, rfl⟩ := hv <;> rfl

end Sys2Proof.Machine
end

section
/-! PROOFS. Buffers that do not decode (43_tlv_parser.md R198, second half): while the parser reports no error, the bytes it
has read are complete records, the beginnings of the containers that are open, and the beginning of one more record -/

namespace Sys2Proof.Machine

/-! ### Records appended one at a time -/

@[simp] theorem Rec.bytesAll_append (rs : List Rec) (r : Rec) : Rec.bytesAll (rs ++ [r]) = Rec.bytesAll rs ++ r.bytes := by
  induction rs with
  | nil => simp [Rec.bytesAll]
  | cons r' rs ih => simp only [List.cons_append, Rec.bytesAll, ih, List.append_assoc]

@[simp] theorem Rec.validAll_append (rs : List Rec) (r : Rec) : Rec.validAll (rs ++ [r]) = (Rec.validAll rs && r.valid) := by
  induction rs with
  | nil => simp [Rec.validAll]
  | cons r' rs ih => simp only [List.cons_append, Rec.validAll, ih, Bool.and_assoc]

@[simp] theorem Rec.nestingAll_append (rs : List Rec) (r : Rec) :
    Rec.nestingAll (rs ++ [r]) = max (Rec.nestingAll rs) r.nesting := by
  induction rs with
  | nil => simp [Rec.nestingAll]
  | cons r' rs ih => simp only [List.cons_append, Rec.nestingAll, ih, Nat.max_assoc]

theorem Rec.nesting_node_le (kind : ContainerKind) (tier : SizeTier) (rs : List Rec) :
    (Rec.node kind tier rs).nesting ≤ 1 + Rec.nestingAll rs := by
  cases rs with
  | nil => rw [Rec.nesting]; exact Nat.zero_le _
  | cons r rs => rw [Rec.nesting, Rec.nestingAll]

/-! ### Big-endian numbers (R8) -/

theorem beNat_cons (b : Byte) (bs : List Byte) : beNat (b :: bs) = b.toNat * 256 ^ bs.length + beNat bs := by
  induction bs using List.reverseRecOn with
  | nil => simp [beNat]
  | append_singleton bs c ih =>
    rw [← List.cons_append, beNat_append_singleton, ih, beNat_append_singleton, List.length_append,
      List.length_singleton, Nat.pow_succ]
    ring

theorem beBytes_add_mul (k a n : Nat) : beBytes k (a * 256 ^ k + n) = beBytes k n := by
  induction k generalizing a with
  | zero => rfl
  | succ k ih =>
    have hmul : a * 256 ^ (k + 1) = a * 256 * 256 ^ k := by rw [Nat.pow_succ]; ring
    have hdiv : (a * 256 * 256 ^ k + n) / 256 ^ k = a * 256 + n / 256 ^ k := by
      rw [Nat.add_comm, Nat.add_mul_div_right _ _ (by positivity), Nat.add_comm]
    have hbyte : BitVec.ofNat 8 (a * 256 + n / 256 ^ k) = BitVec.ofNat 8 (n / 256 ^ k) := by
      apply BitVec.eq_of_toNat_eq
      simp only [BitVec.toNat_ofNat]; omega
    rw [beBytes, beBytes, hmul, ih, hdiv, hbyte]

/-- Big-endian bytes are those of the number they denote. -/
theorem beBytes_beNat (bs : List Byte) : beBytes bs.length (beNat bs) = bs := by
  induction bs with
  | nil => rfl
  | cons b bs ih =>
    have hdiv : (b.toNat * 256 ^ bs.length + beNat bs) / 256 ^ bs.length = b.toNat := by
      rw [Nat.add_comm, Nat.add_mul_div_right _ _ (by positivity), Nat.div_eq_of_lt (beNat_lt bs), Nat.zero_add]
    rw [List.length_cons, beBytes, beNat_cons, beBytes_add_mul, ih, hdiv, BitVec.ofNat_toNat, BitVec.setWidth_eq]

theorem shiftInLen_beNat {len : Word32} {xs : List Byte} (h : len.toNat = beNat xs) (hx : xs.length ≤ 3) (b : Byte) :
    (shiftInLen len b).toNat = beNat (xs ++ [b]) := by
  have hlt := beNat_lt (xs ++ [b])
  have hpow : 256 ^ (xs ++ [b]).length ≤ 256 ^ 4 := Nat.pow_le_pow_right (by decide) (by simp; omega)
  rw [shiftInLen_eq, h, ← beNat_append_singleton, BitVec.toNat_ofNat, Nat.mod_eq_of_lt (by omega)]

/-! ### A header in progress -/

/-- The header bytes `hb` are read and more are to come. -/
inductive HeaderSoFar (p : Tlvp) : List Byte → Prop
  | tag (hm : p.mode = .tag) : HeaderSoFar p []
  | len16 (hm : p.mode = .len16) (xs : List Byte) (hk : p.k.toNat = xs.length) (hx : xs.length ≤ 1)
    (hl : p.len.toNat = beNat xs) : HeaderSoFar p (tagOf p.fam 31 :: xs)
  | len32 (hm : p.mode = .len32) (xs : List Byte) (hk : p.k.toNat = xs.length) (hl : p.len.toNat = beNat xs) :
    HeaderSoFar p (tagOf p.fam 31 :: 0xFF :: 0xFF :: xs)

theorem HeaderSoFar.inHeader {p : Tlvp} {hb : List Byte} (h : HeaderSoFar p hb) : p.InHeader := by
  cases h with
  | tag hm => exact .inl hm
  | len16 hm => exact .inr (.inl hm)
  | len32 hm => exact .inr (.inr hm)

theorem HeaderSoFar.withStack {p : Tlvp} {hb : List Byte} (h : HeaderSoFar p hb) (st : List StackEntry) :
    HeaderSoFar { p with stack := st } hb := by
  cases h with
  | tag hm => exact .tag hm
  | len16 hm xs hk hx hl => exact .len16 (p := { p with stack := st }) hm xs hk hx hl
  | len32 hm xs hk hl => exact .len32 (p := { p with stack := st }) hm xs hk hl

/-- The byte `b` after the header bytes `hb` goes on with the header, or completes one that some tier can write. -/
def HeaderGoesOn (p : Tlvp) (hb : List Byte) (b : Byte) : Prop :=
  ∃ q, (p.readHeader b = (q, false) ∧ HeaderSoFar q (hb ++ [b])) ∨
    (p.readHeader b = (q, true) ∧
      ∃ tier, SizeTier.fits tier q.len.toNat = true ∧ hb ++ [b] = headerBytes q.fam tier q.len.toNat)

/-- A tag byte is that of an inline length, or announces an extension. -/
theorem headerGoesOn_tag {p : Tlvp} (hm : p.mode = .tag) (b : Byte) : HeaderGoesOn p [] b := by
  have hb := tagOf_fields b
  by_cases hs : (tagSize b).toNat ≤ 30
  · have hlen := word_ofNat_toNat (n := (tagSize b).toNat) (by omega)
    rw [← hb]
    exact ⟨_, .inr ⟨readHeader_inline hm hs, .inline, by rw [hlen]; exact decide_eq_true hs, by rw [hlen]; rfl⟩⟩
  · have hs : (tagSize b).toNat = 31 := by have := (tagSize b).isLt; omega
    rw [← hb, hs]
    exact ⟨_, .inl ⟨readHeader_extended hm, .len16 rfl [] rfl (by decide) rfl⟩⟩

/-- The second byte of a 16-bit extension completes a length below 0xFFFF, or the marker. -/
theorem headerGoesOn_len16_second {p : Tlvp} (hm : p.mode = .len16) (hk : p.k = 1) (x b : Byte)
    (hl : p.len.toNat = beNat [x]) : HeaderGoesOn p [tagOf p.fam 31, x] b := by
  have hlen := shiftInLen_beNat hl (Nat.le_of_ble_eq_true rfl) b
  have hbytes : beBytes 2 (beNat [x, b]) = [x, b] := beBytes_beNat [x, b]
  by_cases hmarker : shiftInLen p.len b = 0xFFFF
  · rw [← show beNat ([x] ++ [b]) = beNat [x, b] from rfl, ← hlen, hmarker] at hbytes
    refine ⟨_, .inl ⟨readHeader_len16_marker hm hk hmarker, ?_⟩⟩
    rw [List.cons_append, List.singleton_append, ← hbytes]
    exact .len32 rfl [] rfl rfl
  · refine ⟨_, .inr ⟨readHeader_len16_last hm hk hmarker, .ext16, ?_, ?_⟩⟩
    · have hlt := beNat_lt [x, b]
      rw [← BitVec.toNat_inj, hlen] at hmarker
      rw [hlen]
      simp [SizeTier.fits] at hmarker hlt ⊢
      omega
    · rw [hlen, headerBytes]
      exact congrArg (tagOf p.fam 31 :: ·) hbytes.symm

/-- A byte of a 32-bit extension is one of the first three, or completes any length. -/
theorem headerGoesOn_len32 {p : Tlvp} (hm : p.mode = .len32) (xs : List Byte) (hk : p.k.toNat = xs.length)
    (hl : p.len.toNat = beNat xs) (b : Byte) : HeaderGoesOn p (tagOf p.fam 31 :: 0xFF :: 0xFF :: xs) b := by
  have hlen := shiftInLen_beNat hl (by have := p.k.isLt; omega) b
  by_cases hlt : p.k < 3
  · refine ⟨_, .inl ⟨readHeader_len32_more b hm hlt,
      .len32 (p := { p with k := p.k + 1, len := shiftInLen p.len b }) hm (xs ++ [b]) ?_ hlen⟩⟩
    rw [List.length_append, ← hk]
    exact BitVec.toNat_add_of_lt (by rw [BitVec.lt_def] at hlt; simp at hlt ⊢; omega)
  · have h3 : p.k = 3 := by bv_omega
    have h4 : (xs ++ [b]).length = 4 := by rw [h3] at hk; simp at hk ⊢; omega
    have hbytes := beBytes_beNat (xs ++ [b])
    rw [h4] at hbytes
    refine ⟨_, .inr ⟨readHeader_len32_last b hm h3, .ext32, ?_, ?_⟩⟩
    · have := (shiftInLen p.len b).isLt
      simp only [SizeTier.fits, decide_eq_true_eq]
      omega
    · rw [hlen, headerBytes, hbytes]; rfl

theorem HeaderSoFar.goesOn {p : Tlvp} {hb : List Byte} (h : HeaderSoFar p hb) (b : Byte) : HeaderGoesOn p hb b := by
  cases h with
  | tag hm => exact headerGoesOn_tag hm b
  | len32 hm xs hk hl => exact headerGoesOn_len32 hm xs hk hl b
  | len16 hm xs hk hx hl =>
    match xs with
    | [] =>
      exact ⟨_, .inl ⟨readHeader_len16_first b hm (BitVec.eq_of_toNat_eq hk),
        .len16 (p := { p with k := 1, len := shiftInLen p.len b }) hm [b] rfl (Nat.le_refl 1)
          (shiftInLen_beNat hl (Nat.zero_le 3) b)⟩⟩
    | [x] => exact headerGoesOn_len16_second hm (BitVec.eq_of_toNat_eq hk) x b hl

/-! ### Containers in progress -/

/-- A container whose header is read, and its sub-records that are complete so far. -/
structure OpenRec where
  kind : ContainerKind
  tier : SizeTier
  len : Nat
  subs : List Rec

def OpenRec.header (f : OpenRec) : List Byte := headerBytes f.kind.family f.tier f.len

/-- `e` is the stack entry of the container `f`, which `depth` containers enclose, when `claimed` bytes beyond its complete
sub-records have been counted against it. -/
structure OpenRec.Fits (m depth claimed : Nat) (f : OpenRec) (e : StackEntry) : Prop where
  kind : e.kind = f.kind
  odd : e.odd = decide (f.subs.length % 2 = 1)
  count : e.rem.toNat + claimed + (Rec.bytesAll f.subs).length = f.len
  tier : f.tier.fits f.len = true
  valid : Rec.validAll f.subs = true
  nesting : Rec.nestingAll f.subs + (depth + 1) ≤ m

/-- The container with one more complete sub-record. -/
def OpenRec.add (r : Rec) (f : OpenRec) : OpenRec := { f with subs := f.subs ++ [r] }

/-- The container as a record, when its content is used up. -/
def OpenRec.record (f : OpenRec) : Rec := .node f.kind f.tier f.subs

/-- The bytes counted beyond the complete sub-records are one more complete sub-record. -/
theorem OpenRec.Fits.add {m depth claimed : Nat} {f : OpenRec} {e : StackEntry} {r : Rec} (he : f.Fits m depth claimed e)
    (hc : r.bytes.length = claimed) (hv : r.valid = true) (hn : r.nesting + (depth + 1) ≤ m) :
    (f.add r).Fits m depth 0 { e with odd := !e.odd } where
  kind := he.kind
  tier := he.tier
  odd := by
    show (!e.odd) = decide ((f.subs ++ [r]).length % 2 = 1)
    rw [he.odd, ← decide_not, decide_eq_decide, List.length_append, List.length_singleton]; omega
  count := by
    have := he.count
    show e.rem.toNat + 0 + (Rec.bytesAll (f.subs ++ [r])).length = f.len
    rw [Rec.bytesAll_append, List.length_append]; omega
  valid := by
    show Rec.validAll (f.subs ++ [r]) = true
    rw [Rec.validAll_append, he.valid, hv]; rfl
  nesting := by
    have := he.nesting
    show Rec.nestingAll (f.subs ++ [r]) + (depth + 1) ≤ m
    rw [Rec.nestingAll_append]; omega

/-- A container whose content is used up, a Map after a value, is a record. -/
theorem OpenRec.Fits.closed {m depth : Nat} {f : OpenRec} {e : StackEntry}
    (he : f.Fits m depth 0 { e with odd := !e.odd }) (hr : e.rem = 0) (hodd : e.kind = .map → e.odd = true) :
    (Rec.bytesAll f.subs).length = f.len ∧ f.record.valid = true := by
  have hlen : (Rec.bytesAll f.subs).length = f.len := by simpa [hr] using he.count
  have hpairs (hk : f.kind = .map) : f.subs.length % 2 = 0 := by
    have ho : false = decide (f.subs.length % 2 = 1) := by rw [← he.odd, hodd (he.kind.trans hk)]; rfl
    have := of_decide_eq_false ho.symm
    omega
  refine ⟨hlen, ?_⟩
  simp only [OpenRec.record, Rec.valid, hlen, he.tier, he.valid, Bool.true_and, Bool.and_true, Bool.or_eq_true,
    bne_iff_ne, beq_iff_eq]
  exact not_or_of_imp hpairs

/-- The stack's entries are those of the containers, innermost first; each container's whole record is counted against the
one around it. -/
inductive Opened (m : Nat) : Nat → List OpenRec → List StackEntry → Prop
  | nil (claimed : Nat) : Opened m claimed [] []
  | cons {claimed : Nat} {f : OpenRec} {fs : List OpenRec} {e : StackEntry} {below : List StackEntry}
    (he : f.Fits m below.length claimed e) (hb : Opened m (f.header.length + f.len) fs below) :
    Opened m claimed (f :: fs) (e :: below)

/-- Complete top-level records, then of each open container the header and the complete sub-records. -/
def bytesSoFar (done : List Rec) : List OpenRec → List Byte
  | [] => Rec.bytesAll done
  | f :: fs => bytesSoFar done fs ++ (f.header ++ Rec.bytesAll f.subs)

/-- The bytes `bs` end between records, with the containers of `stack` open and `claimed` bytes beyond `bs` counted
against the innermost. -/
def Between (m claimed : Nat) (bs : List Byte) (stack : List StackEntry) : Prop :=
  ∃ done fs, Rec.validAll done = true ∧ Rec.nestingAll done ≤ m ∧ Opened m claimed fs stack ∧ bs = bytesSoFar done fs

theorem Between.taken {m k n : Nat} {bs : List Byte} {stack : List StackEntry} (h : Between m k bs stack)
    (hr : Room n stack) : Between m (k + n) bs (taken n stack) := by
  obtain ⟨done, fs, hv, hn, ho, hb⟩ := h
  refine ⟨done, fs, hv, hn, ?_, hb⟩
  cases ho with
  | nil => exact .nil _
  | cons he hbelow =>
    rw [room_cons] at hr
    refine .cons { he with count := ?_ } hbelow
    have := he.count
    rw [taken_rem_toNat]
    omega

/-- A container's header, its content claimed, opens it. -/
theorem Between.opens {m : Nat} {bs : List Byte} {stack : List StackEntry} {kind : ContainerKind} {tier : SizeTier}
    {len : Word32} (ht : tier.fits len.toNat = true) (hd : stack.length < m)
    (h : Between m ((headerBytes kind.family tier len.toNat).length + len.toNat) bs stack) :
    Between m 0 (bs ++ headerBytes kind.family tier len.toNat) (⟨kind, len, false⟩ :: stack) := by
  obtain ⟨done, fs, hv, hn, ho, hb⟩ := h
  refine ⟨done, ⟨kind, tier, len.toNat, []⟩ :: fs, hv, hn, .cons ?_ ho, ?_⟩
  · exact ⟨rfl, rfl, rfl, ht, rfl, by simpa [Rec.nestingAll] using hd⟩
  · rw [bytesSoFar, ← hb, Rec.bytesAll, List.append_nil]; rfl

/-! ### What the parser has read -/

/-- The record being read is a leaf whose header, of the tier `tier`, is complete, and whose content so far is `c`. -/
structure ContentSoFar (p : Tlvp) (tier : SizeTier) (c : List Byte) : Prop where
  mode : p.mode = .content
  leaf : p.fam.isContainer = false
  tier : tier.fits p.len.toNat = true
  width : legalWidth p.fam p.len = true
  count : c.length + p.cnt.toNat = p.len.toNat
  text : p.fam = .string → utf8Run .start c = some p.utf

/-- What the bytes `bs` are when the parser that has read them holds the registers `p`. -/
inductive Decoding (m : Nat) (bs : List Byte) (p : Tlvp) : Prop
  | failed (h : p.mode = .error)
  | header (pre hb : List Byte) (hbs : bs = pre ++ hb) (hh : HeaderSoFar p hb) (h : Between m hb.length pre p.stack)
  | content (pre : List Byte) (tier : SizeTier) (c : List Byte) (hbs : bs = pre ++ (headerBytes p.fam tier p.len.toNat ++ c))
    (hc : ContentSoFar p tier c)
    (h : Between m ((headerBytes p.fam tier p.len.toNat).length + p.len.toNat) pre p.stack)

/-- A record is complete: it joins the innermost container, which it may complete, or the top-level records (R193). -/
theorem Between.complete {m : Nat} {bs : List Byte} {p : Tlvp} {r : Rec} (h : Between m r.bytes.length bs p.stack)
    (hv : r.valid = true) (hn : r.nesting + p.stack.length ≤ m) : Decoding m (bs ++ r.bytes) p.complete.1 := by
  obtain ⟨done, fs, hvd, hnd, ho, rfl⟩ := h
  generalize hs : p.stack = stack at ho hn
  generalize hclaimed : r.bytes.length = claimed at ho
  induction ho generalizing p r with
  | nil =>
    rw [complete_top hs]
    refine .header _ [] (List.append_nil _).symm (.tag rfl) ⟨done ++ [r], [], ?_, ?_, ?_, ?_⟩
    · rw [Rec.validAll_append, hvd, hv]; rfl
    · rw [Rec.nestingAll_append]; exact Nat.max_le.2 ⟨hnd, by simpa using hn⟩
    · rw [hs]; exact .nil _
    · rw [bytesSoFar, bytesSoFar, Rec.bytesAll_append]
  | @cons _ f fs e below he hb ih =>
    have hadd := he.add hclaimed hv hn
    by_cases hr : e.rem = 0
    · by_cases hl : LacksValue e
      · rw [complete_lacks_value hs hl]; exact .failed rfl
      · obtain ⟨hlen, hvalid⟩ := hadd.closed hr fun hk => by
          by_contra ho
          exact hl ⟨hr, hk, by simpa using ho⟩
        have hbytes : (f.add r).record.bytes = f.header ++ Rec.bytesAll (f.add r).subs := by
          rw [OpenRec.record, Rec.bytes, hlen]; rfl
        have hnest := Rec.nesting_node_le (f.add r).kind (f.add r).tier (f.add r).subs
        have hclosed := ih (p := { p with stack := below }) (r := (f.add r).record) hvalid rfl
          (by have := hadd.nesting; unfold OpenRec.record; omega)
          (by rw [hbytes, List.length_append, hlen]; rfl)
        rw [complete_closes hs hr hl, emitBefore_fst, bytesSoFar, List.append_assoc, List.append_assoc,
          ← Rec.bytesAll_append]
        rwa [hbytes] at hclosed
    · rw [complete_goes_on hs hr]
      refine .header _ [] (List.append_nil _).symm (.tag rfl) ⟨done, f.add r :: fs, hvd, hnd, .cons hadd hb, ?_⟩
      simp [bytesSoFar, OpenRec.header, OpenRec.add]

/-- A header is complete: it is refused, or its record is begun or complete. -/
theorem Between.headerDone {m : Byte} {pre : List Byte} {p : Tlvp} {tier : SizeTier} {len : Word32}
    (ht : tier.fits len.toNat = true) (hd : p.stack.length ≤ m.toNat)
    (h : Between m.toNat (headerBytes p.fam tier len.toNat).length pre p.stack) :
    Decoding m.toNat (pre ++ headerBytes p.fam tier len.toNat) (p.headerDone m len).1 := by
  obtain ⟨-, he⟩ | ⟨-, -, he⟩ | ⟨-, -, -, he⟩ | ⟨hw, hov, hdeep, he⟩ := headerDone_cases m len p <;> rw [he]
  · exact .failed rfl
  · exact .failed rfl
  · exact .failed rfl
  have hroom := (overruns_eq_false_iff p len).1 hov
  cases hc : p.fam.isContainer with
  | true =>
    obtain ⟨kind, hk⟩ : ∃ kind : ContainerKind, p.fam = kind.family := by
      cases hf : p.fam with rw [hf] at hc
      | list => exact ⟨.list, rfl⟩
      | map => exact ⟨.map, rfl⟩
      | _ => nomatch hc
    by_cases hl : len = 0
    · have hbytes : (Rec.node kind tier []).bytes = headerBytes p.fam tier len.toNat := by
        rw [hk, hl]; exact List.append_nil _
      rw [acceptHeader_empty_container (p := { p with len := len }) hc hl, emitBefore_fst, ← hbytes]
      rw [← hbytes] at h
      rw [hl] at ht
      refine h.complete (p := { p with len := len }) ?_ (by rwa [Rec.nesting, Nat.zero_add])
      simpa [Rec.valid, Rec.validAll, Rec.bytesAll] using ht
    · rw [acceptHeader_opens (p := { p with len := len }) hc hl hroom]
      have hlt : p.stack.length < m.toNat := Nat.lt_of_le_of_ne hd fun hd => hdeep ⟨hc, hl, hd⟩
      have hopen := Between.opens (kind := kind) ht (by rwa [length_taken]) (hk ▸ h.taken hroom)
      refine .header _ [] (List.append_nil _).symm (.tag rfl) ?_
      simpa [hk] using hopen
  | false =>
    by_cases hl : len = 0
    · have hbytes : (Rec.leaf p.fam tier []).bytes = headerBytes p.fam tier len.toNat := by
        rw [hl]; exact List.append_nil _
      rw [acceptHeader_empty_scalar (p := { p with len := len }) hc hl, emitBefore_fst, ← hbytes]
      rw [← hbytes] at h
      rw [hl] at ht hw
      refine h.complete (p := { p with len := len, acc := 0 }) ?_ (by rwa [Rec.nesting, Nat.zero_add])
      simp only [Rec.valid, hc, List.length_nil, Bool.not_false, Bool.true_and, Bool.and_eq_true, Bool.or_eq_true]
      exact ⟨⟨ht, hw⟩, .inr rfl⟩
    · rw [acceptHeader_awaits (p := { p with len := len }) hc hl hroom]
      exact .content pre tier [] (by rw [List.append_nil]) ⟨rfl, hc, ht, hw, Nat.zero_add _, fun _ => rfl⟩ (h.taken hroom)

theorem utf8Run_append_singleton (u : Utf8) (c : List Byte) (b : Byte) :
    utf8Run u (c ++ [b]) = (utf8Run u c).bind fun v => utf8Step v b := by
  induction c generalizing u with
  | nil => simp [utf8Run]
  | cons x c ih =>
    rw [List.cons_append, utf8Run_cons, utf8Run_cons]
    cases utf8Step u x with
    | none => rfl
    | some v => exact ih v

/-- A content byte spoils its text, or the content goes on, or the leaf is complete. -/
theorem ContentSoFar.byte {m : Byte} {pre : List Byte} {p : Tlvp} {tier : SizeTier} {c : List Byte}
    (hc : ContentSoFar p tier c) (hcnt : p.cnt ≠ 0) (hd : p.stack.length ≤ m.toNat) (b : Byte)
    (h : Between m.toNat ((headerBytes p.fam tier p.len.toNat).length + p.len.toNat) pre p.stack) :
    Decoding m.toNat (pre ++ (headerBytes p.fam tier p.len.toNat ++ (c ++ [b]))) (p.byte m b).1 := by
  rw [byte_of_content m b hc.mode]
  by_cases hs : SpoilsText p b
  · rw [contentByte_of_spoils hs]; exact .failed rfl
  obtain ⟨u, hu, he⟩ := contentByte_of_not_spoils hc.mode hs
  have htext (hf : p.fam = .string) : utf8Run .start (c ++ [b]) = some u := by
    rw [utf8Run_append_singleton, hc.text hf]
    rwa [if_pos hf] at hu
  have hcount := hc.count
  have hpos : 1 ≤ p.cnt.toNat := (one_le_toNat_iff _).2 hcnt
  have hless : (p.cnt - 1).toNat = p.cnt.toNat - 1 := BitVec.toNat_sub_of_le hpos
  rw [he, emitBefore_fst]
  by_cases hlast : p.cnt - 1 = 0
  · rw [contentEnd_last (p := { p with cnt := p.cnt - 1, acc := _, utf := u }) hlast, emitBefore_fst]
    have h1 : p.cnt = 1 := (word_pred_eq_zero_iff _).1 hlast
    have hlen : (c ++ [b]).length = p.len.toNat := by
      rw [h1] at hcount; simpa using hcount
    have hbytes : (Rec.leaf p.fam tier (c ++ [b])).bytes = headerBytes p.fam tier p.len.toNat ++ (c ++ [b]) := by
      rw [Rec.bytes, hlen]
    rw [← hbytes]
    refine Between.complete (p := { p with cnt := p.cnt - 1, acc := _, utf := u })
      (by rwa [hbytes, List.length_append, hlen]) ?_ (by rwa [Rec.nesting, Nat.zero_add])
    simp only [Rec.valid, hc.leaf, hlen, hc.tier, BitVec.ofNat_toNat, BitVec.setWidth_eq, hc.width, Bool.not_false,
      Bool.true_and, Bool.or_eq_true, bne_iff_ne]
    refine not_or_of_imp fun hf => (utf8Valid_iff _).2 ⟨u, htext hf, ?_⟩
    rw [if_pos hf] at hu
    by_contra hneed
    exact hs ⟨hc.mode, hf, .inr ⟨h1, u, hu, hneed⟩⟩
  · rw [contentEnd_more (p := { p with cnt := p.cnt - 1, acc := _, utf := u }) hlast]
    refine .content pre tier (c ++ [b]) rfl ⟨hc.mode, hc.leaf, hc.tier, hc.width, ?_, htext⟩ h
    show (c ++ [b]).length + (p.cnt - 1).toNat = p.len.toNat
    rw [List.length_append, List.length_singleton, hless]
    omega

theorem Decoding.byte {m : Byte} {bs : List Byte} {p : Tlvp} (h : Decoding m.toNat bs p) (hp : p.Sound m) (b : Byte) :
    Decoding m.toNat (bs ++ [b]) (p.byte m b).1 := by
  cases h with
  | failed h => rw [byte_of_error m b h]; exact .failed h
  | content pre tier c hbs hc h =>
    rw [hbs, List.append_assoc, List.append_assoc]
    exact hc.byte (hp.cnt hc.mode) hp.depth b h
  | header pre hb hbs hh h =>
    have hroom : Room 1 p.stack := (hasRoom_iff _).1 (hp.hasRoom hh.inHeader)
    have htaken : Between m.toNat (hb ++ [b]).length pre (Machine.taken 1 p.stack) := by
      rw [List.length_append]; exact h.taken hroom
    rw [hbs, List.append_assoc]
    obtain ⟨q, ⟨hq, hmore⟩ | ⟨hq, tier, ht, hlast⟩⟩ := hh.goesOn b
    · rw [show p.byte m b = _ from byte_header_more (st := p.stack) hh.inHeader hroom hq]
      obtain ⟨-, he⟩ | ⟨-, -, -, -, he⟩ := splitCheck_cases { q with stack := Machine.taken 1 p.stack } <;> rw [he]
      · exact .header pre _ rfl (hmore.withStack _) htaken
      · exact .failed rfl
    · rw [show p.byte m b = _ from byte_header_last (st := p.stack) hh.inHeader hroom hq]
      rw [hlast] at htaken ⊢
      exact Between.headerDone (p := { q with stack := Machine.taken 1 p.stack }) ht
        (by rw [length_taken]; exact hp.depth) htaken

theorem decoding_feed {m : Byte} {bs cs : List Byte} {p : Tlvp} (h : Decoding m.toNat bs p) (hp : p.Sound m) :
    Decoding m.toNat (bs ++ cs) (p.feed m cs).1 := by
  induction cs generalizing bs p with
  | nil => rwa [List.append_nil]
  | cons c cs ih =>
    rw [Tlvp.feed_cons, emitBefore_fst, List.append_cons]
    exact ih (h.byte hp c) (hp.byte c)

/-- Bytes that leave the parser between top-level records are those of records. -/
theorem Decoding.records {m : Nat} {bs : List Byte} {p : Tlvp} (h : Decoding m bs p) (hm : p.mode = .tag)
    (hs : p.stack = []) : ∃ rs, Rec.validAll rs = true ∧ Rec.nestingAll rs ≤ m ∧ Rec.bytesAll rs = bs := by
  cases h with
  | failed h => cases hm.symm.trans h
  | content pre tier c hbs hc => cases hm.symm.trans hc.mode
  | header pre hb hbs hh h =>
    obtain ⟨done, fs, hv, hn, ho, hpre⟩ := h
    rw [hs] at ho
    cases ho
    cases hh with
    | tag => exact ⟨done, hv, hn, by rw [hbs, hpre, List.append_nil]; rfl⟩
    | len16 h => cases hm.symm.trans h
    | len32 h => cases hm.symm.trans h

/-- Settles O51: P.END reports END only between top-level records, and then the bytes are those of records. -/
theorem parserReportsBuffersThatDoNotDecode : Obligations.ParserReportsBuffersThatDoNotDecode := by
  intro s bs hbs
  have hstart : Decoding s.cfg.maxDepth.toNat [] .reset :=
    .header [] [] rfl (.tag rfl) ⟨[], [], rfl, Nat.zero_le _, .nil _, rfl⟩
  obtain ⟨evs, e, he, hp, ⟨c, rfl⟩ | ⟨hm, hs, -⟩⟩ := feed_endEvents (p := .reset) s.cfg.maxDepth bs nofun
  · exact ⟨evs, c, by rw [performs_pParse, he], hp⟩
  · obtain ⟨rs, hv, hn, hb⟩ := (decoding_feed (cs := bs) hstart (Tlvp.sound_reset _)).records hm hs
    exact absurd hb (hbs rs hv hn)

end Sys2Proof.Machine
end

section
/-! PROOFS. The String validator (43_tlv_parser.md R196): the byte sequences it accepts, character by character, are the
UTF-8 forms of Unicode scalar values -/

namespace Sys2Proof.Machine

/-! ### Acceptance, byte by byte -/

/-- From the validator state `v`, the bytes pass and end between characters. -/
def Accepts (v : Utf8) (bs : List Byte) : Prop := ∃ u, utf8Run v bs = some u ∧ u.need = 0

theorem accepts_nil (v : Utf8) : Accepts v [] ↔ v.need = 0 := by simp [Accepts, utf8Run]

theorem accepts_cons (v : Utf8) (b : Byte) (bs : List Byte) :
    Accepts v (b :: bs) ↔ ∃ w, utf8Step v b = some w ∧ Accepts w bs := by
  rw [Accepts, utf8Run_cons]
  cases utf8Step v b <;> simp [Accepts]

/-- Inside a character, a continuation byte in the range must come. -/
theorem accepts_inside {k j : BitVec 2} (hk : k ≠ 0 ∧ k - 1 = j) (lo hi : Byte) (bs : List Byte) :
    Accepts ⟨k, lo, hi⟩ bs ↔
      ∃ c rest, bs = c :: rest ∧ (lo.toNat ≤ c.toNat ∧ c.toNat ≤ hi.toNat) ∧ Accepts ⟨j, 0x80, 0xBF⟩ rest := by
  cases bs with
  | nil => exact iff_of_false (mt (accepts_nil _).1 hk.1) fun ⟨_, _, h, _⟩ => nomatch h
  | cons c rest =>
    have hstep : utf8Step ⟨k, lo, hi⟩ c = if lo ≤ c ∧ c ≤ hi then some ⟨j, 0x80, 0xBF⟩ else none := by
      rw [← hk.2]; exact if_neg hk.1
    rw [accepts_cons, hstep]
    constructor
    · rintro ⟨w, hw, hrest⟩
      obtain ⟨h, hw⟩ := Option.ite_none_right_eq_some.1 hw
      cases hw
      exact ⟨c, rest, rfl, h, hrest⟩
    · rintro ⟨_, _, he, h, hrest⟩
      obtain ⟨rfl, rfl⟩ := List.cons.inj he
      exact ⟨_, if_pos h, hrest⟩

/-! ### The table of well-formed byte sequences -/

/-- A byte that may follow in any character. -/
def IsTail (c : Byte) : Prop := 0x80 ≤ c.toNat ∧ c.toNat ≤ 0xBF

/-- The rows of the Unicode table for one character, by the number of bytes: no overlong form (E0, F0), no surrogate (ED),
nothing above U+10FFFF (F4). -/
inductive WellFormedChar : List Byte → Prop
  | one {b : Byte} (hb : b.toNat < 0x80) : WellFormedChar [b]
  | two {b c : Byte} (hb : 0xC2 ≤ b.toNat ∧ b.toNat < 0xE0) (hc : IsTail c) : WellFormedChar [b, c]
  | three {b c d : Byte} (hb : 0xE0 ≤ b.toNat ∧ b.toNat < 0xF0)
    (hc : IsTail c ∧ (b.toNat = 0xE0 → 0xA0 ≤ c.toNat) ∧ (b.toNat = 0xED → c.toNat ≤ 0x9F)) (hd : IsTail d) :
    WellFormedChar [b, c, d]
  | four {b c d e : Byte} (hb : 0xF0 ≤ b.toNat ∧ b.toNat < 0xF5)
    (hc : IsTail c ∧ (b.toNat = 0xF0 → 0x90 ≤ c.toNat) ∧ (b.toNat = 0xF4 → c.toNat ≤ 0x8F)) (hd : IsTail d)
    (he : IsTail e) : WellFormedChar [b, c, d, e]

section FirstByte
variable {b : Byte}

/-- What the first byte of a character asks of its next byte, row by row. -/
theorem utf8Step_start (b : Byte) :
    utf8Step .start b =
      if b.toNat < 0x80 then some .start
      else if 0xC2 ≤ b.toNat ∧ b.toNat < 0xE0 then some ⟨1, 0x80, 0xBF⟩
      else if 0xE0 ≤ b.toNat ∧ b.toNat < 0xF0 then
        some ⟨2, if b.toNat = 0xE0 then 0xA0 else 0x80, if b.toNat = 0xED then 0x9F else 0xBF⟩
      else if 0xF0 ≤ b.toNat ∧ b.toNat < 0xF5 then
        some ⟨3, if b.toNat = 0xF0 then 0x90 else 0x80, if b.toNat = 0xF4 then 0x8F else 0xBF⟩
      else none := by
  revert b; decide

theorem utf8Step_one (hb : b.toNat < 0x80) : utf8Step .start b = some .start := by
  rw [utf8Step_start, if_pos hb]

theorem utf8Step_two (hb : 0xC2 ≤ b.toNat ∧ b.toNat < 0xE0) : utf8Step .start b = some ⟨1, 0x80, 0xBF⟩ := by
  rw [utf8Step_start, if_neg (by omega), if_pos hb]

theorem utf8Step_three (hb : 0xE0 ≤ b.toNat ∧ b.toNat < 0xF0) : ∃ lo hi : Byte, utf8Step .start b = some ⟨2, lo, hi⟩ ∧
    ∀ c : Byte, (lo.toNat ≤ c.toNat ∧ c.toNat ≤ hi.toNat) ↔
      IsTail c ∧ (b.toNat = 0xE0 → 0xA0 ≤ c.toNat) ∧ (b.toNat = 0xED → c.toNat ≤ 0x9F) := by
  refine ⟨_, _, by rw [utf8Step_start, if_neg (by omega), if_neg (by omega), if_pos hb], fun c => ?_⟩
  unfold IsTail
  split_ifs <;> simp <;> omega

theorem utf8Step_four (hb : 0xF0 ≤ b.toNat ∧ b.toNat < 0xF5) : ∃ lo hi : Byte, utf8Step .start b = some ⟨3, lo, hi⟩ ∧
    ∀ c : Byte, (lo.toNat ≤ c.toNat ∧ c.toNat ≤ hi.toNat) ↔
      IsTail c ∧ (b.toNat = 0xF0 → 0x90 ≤ c.toNat) ∧ (b.toNat = 0xF4 → c.toNat ≤ 0x8F) := by
  refine ⟨_, _, by rw [utf8Step_start, if_neg (by omega), if_neg (by omega), if_neg (by omega), if_pos hb],
    fun c => ?_⟩
  unfold IsTail
  split_ifs <;> simp <;> omega

end FirstByte

/-- The validator accepts a well-formed character before what it accepts. -/
theorem WellFormedChar.accepts {x rest : List Byte} (hx : WellFormedChar x) (h : Accepts .start rest) :
    Accepts .start (x ++ rest) := by
  cases hx with
  | one hb => exact (accepts_cons _ _ _).2 ⟨_, utf8Step_one hb, h⟩
  | @two b c hb hc =>
    exact (accepts_cons _ _ _).2 ⟨_, utf8Step_two hb, (accepts_inside (by decide) _ _ _).2 ⟨c, rest, rfl, hc, h⟩⟩
  | @three b c d hb hc hd =>
    obtain ⟨lo, hi, hstep, hrange⟩ := utf8Step_three hb
    have hlast : Accepts ⟨1, 0x80, 0xBF⟩ (d :: rest) := (accepts_inside (by decide) _ _ _).2 ⟨d, rest, rfl, hd, h⟩
    exact (accepts_cons _ _ _).2
      ⟨_, hstep, (accepts_inside (by decide) _ _ _).2 ⟨c, d :: rest, rfl, (hrange c).2 hc, hlast⟩⟩
  | @four b c d e hb hc hd he =>
    obtain ⟨lo, hi, hstep, hrange⟩ := utf8Step_four hb
    have hlast : Accepts ⟨1, 0x80, 0xBF⟩ (e :: rest) := (accepts_inside (by decide) _ _ _).2 ⟨e, rest, rfl, he, h⟩
    have hthird : Accepts ⟨2, 0x80, 0xBF⟩ (d :: e :: rest) :=
      (accepts_inside (by decide) _ _ _).2 ⟨d, e :: rest, rfl, hd, hlast⟩
    exact (accepts_cons _ _ _).2
      ⟨_, hstep, (accepts_inside (by decide) _ _ _).2 ⟨c, d :: e :: rest, rfl, (hrange c).2 hc, hthird⟩⟩

/-- What the validator accepts at the start of a character begins with a well-formed one. -/
theorem Accepts.wellFormedChar {b : Byte} {bs : List Byte} (h : Accepts .start (b :: bs)) :
    ∃ x rest, WellFormedChar x ∧ b :: bs = x ++ rest ∧ Accepts .start rest := by
  obtain ⟨w, hw, h⟩ := (accepts_cons _ _ _).1 h
  by_cases h1 : b.toNat < 0x80
  · cases (utf8Step_one h1).symm.trans hw
    exact ⟨_, bs, .one h1, rfl, h⟩
  by_cases h2 : 0xC2 ≤ b.toNat ∧ b.toNat < 0xE0
  · cases (utf8Step_two h2).symm.trans hw
    obtain ⟨c, rest, rfl, hc, h⟩ := (accepts_inside (j := 0) (by decide) _ _ _).1 h
    exact ⟨_, rest, .two h2 hc, rfl, h⟩
  by_cases h3 : 0xE0 ≤ b.toNat ∧ b.toNat < 0xF0
  · obtain ⟨lo, hi, hstep, hrange⟩ := utf8Step_three h3
    cases hstep.symm.trans hw
    obtain ⟨c, rest, rfl, hc, h⟩ := (accepts_inside (j := 1) (by decide) _ _ _).1 h
    obtain ⟨d, rest, rfl, hd, h⟩ := (accepts_inside (j := 0) (by decide) _ _ _).1 h
    exact ⟨_, rest, .three h3 ((hrange c).1 hc) hd, rfl, h⟩
  by_cases h4 : 0xF0 ≤ b.toNat ∧ b.toNat < 0xF5
  · obtain ⟨lo, hi, hstep, hrange⟩ := utf8Step_four h4
    cases hstep.symm.trans hw
    obtain ⟨c, rest, rfl, hc, h⟩ := (accepts_inside (j := 2) (by decide) _ _ _).1 h
    obtain ⟨d, rest, rfl, hd, h⟩ := (accepts_inside (j := 1) (by decide) _ _ _).1 h
    obtain ⟨e, rest, rfl, he, h⟩ := (accepts_inside (j := 0) (by decide) _ _ _).1 h
    exact ⟨_, rest, .four h4 ((hrange c).1 hc) hd he, rfl, h⟩
  · rw [utf8Step_start, if_neg h1, if_neg h2, if_neg h3, if_neg h4] at hw
    cases hw

/-! ### The table and Unicode -/

/-- A well-formed character has the UTF-8 bytes of a scalar value. -/
theorem WellFormedChar.codePoint {x : List Byte} (h : WellFormedChar x) :
    ∃ n : Nat, n.isValidChar ∧ x.map BitVec.toNat = utf8OfCodePoint n := by
  cases h with
  | @one b hb => exact ⟨b.toNat, .inl (by omega), by simp [utf8OfCodePoint, hb]⟩
  | @two b c hb hc =>
    unfold IsTail at hc
    refine ⟨(b.toNat - 0xC0) * 64 + (c.toNat - 0x80), .inl (by omega), ?_⟩
    rw [utf8OfCodePoint, if_neg (by omega), if_pos (by omega)]
    simp; omega
  | @three b c d hb hc hd =>
    unfold IsTail at hc hd
    refine ⟨(b.toNat - 0xE0) * 4096 + (c.toNat - 0x80) * 64 + (d.toNat - 0x80), ?_, ?_⟩
    · unfold Nat.isValidChar; omega
    · rw [utf8OfCodePoint, if_neg (by omega), if_neg (by omega), if_pos (by omega)]
      simp; omega
  | @four b c d e hb hc hd he =>
    unfold IsTail at hc hd he
    refine ⟨(b.toNat - 0xF0) * 262144 + (c.toNat - 0x80) * 4096 + (d.toNat - 0x80) * 64 + (e.toNat - 0x80), ?_, ?_⟩
    · unfold Nat.isValidChar; omega
    · rw [utf8OfCodePoint, if_neg (by omega), if_neg (by omega), if_neg (by omega)]
      simp; omega

/-- The UTF-8 bytes of a scalar value are a well-formed character. -/
theorem wellFormedChar_of_codePoint {n : Nat} {x : List Byte} (hn : n.isValidChar)
    (hx : x.map BitVec.toNat = utf8OfCodePoint n) : WellFormedChar x := by
  unfold Nat.isValidChar at hn
  unfold utf8OfCodePoint at hx
  split_ifs at hx with h1 h2 h3
  · obtain ⟨b, _, rfl, hb, hx⟩ := List.map_eq_cons_iff.1 hx
    cases List.map_eq_nil_iff.1 hx
    exact .one (by omega)
  · obtain ⟨b, _, rfl, hb, hx⟩ := List.map_eq_cons_iff.1 hx
    obtain ⟨c, _, rfl, hc, hx⟩ := List.map_eq_cons_iff.1 hx
    cases List.map_eq_nil_iff.1 hx
    refine .two (by omega) ?_
    unfold IsTail; omega
  · obtain ⟨b, _, rfl, hb, hx⟩ := List.map_eq_cons_iff.1 hx
    obtain ⟨c, _, rfl, hc, hx⟩ := List.map_eq_cons_iff.1 hx
    obtain ⟨d, _, rfl, hd, hx⟩ := List.map_eq_cons_iff.1 hx
    cases List.map_eq_nil_iff.1 hx
    refine .three (by omega) ?_ ?_ <;> unfold IsTail <;> omega
  · obtain ⟨b, _, rfl, hb, hx⟩ := List.map_eq_cons_iff.1 hx
    obtain ⟨c, _, rfl, hc, hx⟩ := List.map_eq_cons_iff.1 hx
    obtain ⟨d, _, rfl, hd, hx⟩ := List.map_eq_cons_iff.1 hx
    obtain ⟨e, _, rfl, he, hx⟩ := List.map_eq_cons_iff.1 hx
    cases List.map_eq_nil_iff.1 hx
    refine .four (by omega) ?_ ?_ ?_ <;> unfold IsTail <;> omega

/-- The well-formed characters are the UTF-8 forms of Lean's characters. -/
theorem wellFormedChar_iff (x : List Byte) : WellFormedChar x ↔ ∃ c : Char, x = utf8Bytes [c] := by
  have hbytes (c : Char) : (utf8Bytes [c]).map BitVec.toNat = utf8OfCodePoint c.toNat := by
    rw [← utf8EncodeChar_toNat]; simp [utf8Bytes]
  constructor
  · intro h
    obtain ⟨n, hn, hx⟩ := h.codePoint
    refine ⟨Char.ofNat n, List.map_injective_iff.2 (fun _ _ => BitVec.eq_of_toNat_eq) ?_⟩
    rw [hx, hbytes, Char.toNat_ofNat, if_pos hn]
  · rintro ⟨c, rfl⟩
    exact wellFormedChar_of_codePoint c.valid (hbytes c)

theorem utf8Bytes_cons (c : Char) (cs : List Char) : utf8Bytes (c :: cs) = utf8Bytes [c] ++ utf8Bytes cs := by
  simp [utf8Bytes]

theorem accepts_utf8Bytes (cs : List Char) : Accepts .start (utf8Bytes cs) := by
  induction cs with
  | nil => exact (accepts_nil _).2 rfl
  | cons c cs ih => rw [utf8Bytes_cons]; exact ((wellFormedChar_iff _).2 ⟨c, rfl⟩).accepts ih

theorem WellFormedChar.length_pos {x : List Byte} (h : WellFormedChar x) : 0 < x.length := by
  cases h <;> simp

/-- The bytes that the validator accepts are those of a text, character by character. -/
theorem Accepts.text {bs : List Byte} (h : Accepts .start bs) : ∃ cs : List Char, bs = utf8Bytes cs :=
  match bs with
  | [] => ⟨[], rfl⟩
  | b :: bs => by
    obtain ⟨x, rest, hx, he, hrest⟩ := h.wellFormedChar
    have hlen : rest.length ≤ bs.length := by
      have := hx.length_pos
      have := congrArg List.length he
      rw [List.length_append, List.length_cons] at this
      omega
    obtain ⟨c, rfl⟩ := (wellFormedChar_iff x).1 hx
    obtain ⟨cs, rfl⟩ := Accepts.text hrest
    exact ⟨c :: cs, by rw [he, utf8Bytes_cons c cs]⟩
termination_by bs.length

/-- Settles O49: character by character, the validator's table and Lean's encoder agree. -/
theorem validatorAcceptsExactlyUtf8 : Obligations.ValidatorAcceptsExactlyUtf8 := by
  intro bs
  rw [utf8Valid_iff]
  exact ⟨Accepts.text, fun ⟨cs, hcs⟩ => hcs ▸ accepts_utf8Bytes cs⟩

end Sys2Proof.Machine
end

section
/-! PROOFS. The parser's commands (43_tlv_parser.md): P.START, P.END and P.BYTE, and the outcome of a byte that completes
a header, leaves one incomplete, or is content -/

namespace Sys2Proof.Machine

/-! ### The commands (R180, R181, R194, R195) -/

theorem exec_pByte {s : State} {b : Byte} {r : Tlvp × List PEvent} (h : s.tlv.byte s.cfg.maxDepth b = r) :
    exec (.pByte b) s = .next (s.applyTlvp r) := by
  rw [exec, execPByte, h]

theorem exec_pEnd {s : State} {evs : List PEvent} (h : s.tlv.endEvents = evs) :
    exec .pEnd s = .next { s with tlv := .reset, pOut := s.pOut ++ evs } := by
  rw [exec, execPEnd, h]; rfl

theorem exec_pEnd_of_error {s : State} (h : s.tlv.mode = .error) : exec .pEnd s = .next { s with tlv := .reset } := by
  rw [exec_pEnd (if_pos h), List.append_nil]

theorem exec_pStart (s : State) : exec .pStart s = .next { s with tlv := .reset } := by
  rw [exec, execPStart, State.applyTlvp, List.append_nil]

/-- Settles O41: what P.END reports is by P_MODE and the depth. -/
theorem parserStartAndEnd : Obligations.ParserStartAndEnd := by
  refine fun s d => ⟨decode_commandWord .pStart d, decode_commandWord .pEnd d, rfl, exec_pStart s, exec_pEnd_of_error,
    fun hm hs => exec_pEnd ?_, fun he hopen => exec_pEnd ?_⟩
  all_goals obtain ⟨h, -⟩ | ⟨hm', hs', h⟩ | ⟨-, hopen', h⟩ := endEvents_cases s.tlv
  · cases hm.symm.trans h
  · exact h
  · exact absurd ⟨hm, hs⟩ (not_and_or.2 hopen')
  · exact absurd h he
  · exact absurd ⟨hm', hs'⟩ (not_and_or.2 hopen)
  · exact h

theorem performs_map_pByte_of_error {s : State} (bs : List Byte) (h : s.tlv.mode = .error) :
    s.performs (bs.map .pByte) = .next s := by
  rw [performs_map_pByte, feed_of_error _ bs h, State.applyTlvp, List.append_nil]

/-- Settles O42: the bytes leave the state as it is, and the next command finds it so. -/
theorem errorModeIgnoresBytes : Obligations.ErrorModeIgnoresBytes := by
  intro s bs h
  have hbytes := performs_map_pByte_of_error bs h
  have hthen {i : Instr} {t : State} (hi : exec i s = .next t) : s.performs (bs.map .pByte ++ [i]) = .next t := by
    rw [performs_append (fun i _ => decode_encode i) exec_goes_on hbytes, performs_of_exec [] hi, performs_nil]
  exact ⟨hbytes, hthen (exec_pEnd_of_error h), hthen (exec_pStart s), fun rest => ⟨_, step_of_reset rfl, rfl⟩⟩

theorem acceptHeader_emits (len : Word32) (p : Tlvp) : (p.acceptHeader len).2 ≠ [] := by
  obtain ⟨-, -, he⟩ | ⟨-, -, he⟩ | ⟨-, -, he⟩ | ⟨-, -, he⟩ := acceptHeader_cases len p <;> rw [he]
  all_goals exact List.cons_ne_nil _ _

theorem headerDone_emits (m : Byte) (len : Word32) (p : Tlvp) : (p.headerDone m len).2 ≠ [] := by
  obtain ⟨-, he⟩ | ⟨-, -, he⟩ | ⟨-, -, -, he⟩ | ⟨-, -, -, he⟩ := headerDone_cases m len p <;> rw [he]
  · exact List.cons_ne_nil _ _
  · exact List.cons_ne_nil _ _
  · exact List.cons_ne_nil _ _
  · exact acceptHeader_emits _ _

/-- A byte that leaves its header incomplete moves P_MODE or P_K. -/
theorem readHeader_moves {p : Tlvp} {b : Byte} (hm : p.InHeader) (h : (p.readHeader b).2 = false) :
    ((p.readHeader b).1.mode, (p.readHeader b).1.k) ≠ (p.mode, p.k) := by
  obtain hm | hm | hm := hm <;> simp only [Tlvp.readHeader, hm] at h ⊢
  · by_cases hc : tagSize b ≤ 30
    · rw [if_pos hc] at h; cases h
    · rw [if_neg hc]; simp
  · by_cases hk : p.k = 0
    · rw [if_pos hk]; simp [hk]
    · rw [if_neg hk] at h ⊢
      by_cases hc : shiftInLen p.len b ≠ 0xFFFF
      · rw [if_pos hc] at h; cases h
      · rw [if_neg hc]; simp
  · by_cases hc : p.k < 3
    · rw [if_pos hc]; simp
    · rw [if_neg hc] at h; cases h

theorem complete_mode (p : Tlvp) : p.complete.1.mode = .tag ∨ p.complete.1.mode = .error := by
  unfold Tlvp.complete
  obtain ⟨n, -, ⟨-, he⟩ | ⟨top, below, -, -, he⟩ | ⟨top, below, -, -, -, -, he⟩⟩ := completeIn_cases p p.stack <;>
    rw [he]
  · exact .inl rfl
  · exact .inl rfl
  · exact .inr rfl

/-- A content byte counts down P_CNT, or leaves CONTENT. -/
theorem contentByte_moves {p : Tlvp} (b : Byte) (hm : p.mode = .content) : (p.contentByte b).1 ≠ p := by
  have hend (q : Tlvp) (hq : q.cnt = p.cnt - 1) : q.contentEnd.1 ≠ p := by
    obtain ⟨-, he⟩ | ⟨-, he⟩ := contentEnd_cases q <;> rw [he]
    · refine ne_of_apply_ne Tlvp.cnt ?_
      rw [hq]; bv_omega
    · refine ne_of_apply_ne Tlvp.mode ?_
      obtain h | h := complete_mode q <;> simp [h, hm]
  obtain ⟨-, he, -⟩ | ⟨u, -, -, -, he⟩ | ⟨-, he⟩ | ⟨-, -, he⟩ := contentByte_cases b p <;> rw [he]
  · exact ne_of_apply_ne Tlvp.mode (by simp [hm])
  all_goals exact hend _ rfl

theorem byte_moves {p : Tlvp} (m b : Byte) (h : p.mode ≠ .error) : (p.byte m b).1 ≠ p ∨ (p.byte m b).2 ≠ [] := by
  have header (hm : p.InHeader) : (p.byte m b).1 ≠ p ∨ (p.byte m b).2 ≠ [] := by
    rw [byte_of_inHeader m b hm]
    split
    · exact .inr (headerDone_emits _ _ _)
    next hmore =>
      obtain ⟨-, he⟩ | ⟨-, -, -, -, he⟩ :=
        splitCheck_cases { (p.readHeader b).1 with stack := p.hdrConsume.stack } <;> rw [he]
      · exact .inl (ne_of_apply_ne (fun q => (q.mode, q.k)) (readHeader_moves hm (by simpa using hmore)))
      · exact .inr (List.cons_ne_nil _ _)
  cases hm : p.mode with
  | tag => exact header (.inl hm)
  | len16 => exact header (.inr (.inl hm))
  | len32 => exact header (.inr (.inr hm))
  | content => rw [byte_of_content m b hm]; exact .inl (contentByte_moves b hm)
  | error => exact absurd hm h

/-- Settles O44: P.BYTE is the parser's procedure, which only ERROR mode ignores. -/
theorem everyParserByteIsConsumed : Obligations.EveryParserByteIsConsumed := by
  refine fun s b => ⟨decode_commandWord .pByte b, (s.tlv.byte s.cfg.maxDepth b).1, (s.tlv.byte s.cfg.maxDepth b).2,
    exec_pByte rfl, fun h => ?_, byte_moves _ b⟩
  rw [byte_of_error _ b h]
  exact ⟨rfl, rfl⟩

end Sys2Proof.Machine
end

section
/-! PROOFS. The outcome of a parser byte (43_tlv_parser.md R182 to R193) as the relations of Safety.lean have it: a header
completed, a header left incomplete, a content byte -/

namespace Sys2Proof.Machine

/-! ### Completed headers (R187 to R190) -/

theorem isContainer_iff (f : Family) : f.isContainer = true ↔ f = .list ∨ f = .map := by cases f <;> simp [Family.isContainer]

theorem room_taken_iff {k n : Nat} {stack : List StackEntry} (h : Room k stack) :
    Room n (taken k stack) ↔ Room (k + n) stack := by
  refine ⟨fun hn => ?_, Room.taken⟩
  cases stack with
  | nil => exact room_nil _
  | cons top below =>
    rw [room_cons] at h ⊢
    rw [taken, room_cons, taken_rem_toNat] at hn
    omega

/-- An empty record's value (R187, R192). -/
theorem finishScalar_empty {p : Tlvp} (hf : p.fam.isContainer = false) (hl : p.len = 0) (ha : p.acc = 0) :
    p.finishScalar = emptyRecordEvents p.fam (depthByte p.stack.length) := by
  unfold Tlvp.finishScalar emptyRecordEvents
  cases h : p.fam with rw [h] at hf
  | list | map => nomatch hf
  | _ => simp [hl, ha]

/-- An empty record is complete at once, its value or its CLOSE emitted. -/
theorem acceptHeader_empty {p : Tlvp} (hl : p.len = 0) :
    p.acceptHeader 0 =
      emitBefore (.hdr p.fam 0 (depthByte p.stack.length) :: emptyRecordEvents p.fam (depthByte p.stack.length))
        (Tlvp.complete { p with acc := if p.fam = .list ∨ p.fam = .map then p.acc else 0 }) := by
  cases hc : p.fam.isContainer with
  | true =>
    have hf := (isContainer_iff p.fam).1 hc
    have hclose : emptyRecordEvents p.fam (depthByte p.stack.length) = [.close (depthByte p.stack.length)] := by
      obtain hf | hf := hf <;> rw [hf] <;> rfl
    rw [acceptHeader_empty_container hc rfl, if_pos hf, hclose]
  | false =>
    have hf : ¬ (p.fam = .list ∨ p.fam = .map) := by rw [← isContainer_iff, hc]; exact Bool.false_ne_true
    rw [acceptHeader_empty_scalar hc rfl, finishScalar_empty (p := { p with acc := 0 }) hc hl rfl, if_neg hf]

theorem headerDone_bad_width {p : Tlvp} {m : Byte} {len : Word32} (hw : legalWidth p.fam len = false) :
    p.headerDone m len = Tlvp.perr .width { p with len := len } := by
  simp [Tlvp.headerDone, hw]

theorem headerDone_overruns {p : Tlvp} {m : Byte} {len : Word32} (hw : legalWidth p.fam len = true)
    (hr : ¬ Room len.toNat p.stack) : p.headerDone m len = Tlvp.perr .container { p with len := len } := by
  rw [← overruns_eq_false_iff, Bool.not_eq_false] at hr
  obtain ⟨h, -⟩ | ⟨-, -, h⟩ | ⟨-, h, -⟩ | ⟨-, h, -⟩ := headerDone_cases m len p
  · cases hw.symm.trans h
  · exact h
  all_goals cases hr.symm.trans h

theorem headerDone_too_deep {p : Tlvp} {m : Byte} {len : Word32} (hw : legalWidth p.fam len = true)
    (hr : Room len.toNat p.stack) (hd : p.fam.isContainer = true ∧ len ≠ 0 ∧ p.stack.length = m.toNat) :
    p.headerDone m len = Tlvp.perr .depth { p with len := len } := by
  rw [← overruns_eq_false_iff] at hr
  obtain ⟨h, -⟩ | ⟨-, h, -⟩ | ⟨-, -, -, h⟩ | ⟨-, -, h, -⟩ := headerDone_cases m len p
  · cases hw.symm.trans h
  · cases hr.symm.trans h
  · exact h
  · exact absurd hd h

/-- `header_done` of a header whose bytes are counted does what R187 to R190 say. -/
theorem headerOutcome_headerDone {s : State} {f : Family} {n : Nat} (hn : n < 2 ^ 32) (hr : Room 1 s.tlv.stack) :
    HeaderOutcome s f n (s.applyTlvp (Tlvp.headerDone s.cfg.maxDepth (BitVec.ofNat 32 n)
      { s.tlv with fam := f, len := BitVec.ofNat 32 n, stack := taken 1 s.tlv.stack })) := by
  have hwidth := legalWidth_iff f hn
  have hnat := word_ofNat_toNat hn
  have hzero := word_ofNat_eq_zero_iff hn
  have hfits : Room (BitVec.ofNat 32 n).toNat (taken 1 s.tlv.stack) ↔ FitsContainer n s.tlv.stack := by
    rw [hnat]; exact room_taken_iff hr
  have hdeep : (f.isContainer = true ∧ BitVec.ofNat 32 n ≠ 0 ∧ (taken 1 s.tlv.stack).length = s.cfg.maxDepth.toNat) ↔
      NestsTooDeep s.cfg.maxDepth f n s.tlv.stack := by
    rw [isContainer_iff, ne_eq, hzero, length_taken]; rfl
  refine ⟨fun hw => ?_, fun hw hf => ?_, fun hw hf hd => ?_, fun hw hf hd => ?_⟩
  · rw [headerDone_bad_width (by rwa [← Bool.not_eq_true, hwidth])]; rfl
  · rw [headerDone_overruns (hwidth.2 hw) (mt hfits.1 hf)]; rfl
  · rw [headerDone_too_deep (hwidth.2 hw) (hfits.2 hf) (hdeep.2 hd)]; rfl
  · rw [headerDone_of_checked (hwidth.2 hw) (hfits.2 hf) (mt hdeep.1 hd)]
    refine ⟨fun h0 => ?_, fun h0 hc => ?_, fun h0 hc => ?_⟩
    · subst h0
      have he := acceptHeader_empty (p := { s.tlv with fam := f, len := 0, stack := taken 1 s.tlv.stack }) rfl
      rw [length_taken] at he
      exact ⟨_, _, complete_completion _, congrArg s.applyTlvp he⟩
    · rw [acceptHeader_opens ((isContainer_iff f).2 hc) (mt hzero.1 h0) (hfits.2 hf)]
      simp [State.applyTlvp, hnat, depthByte, Family.kind]
    · rw [acceptHeader_awaits (by rwa [← Bool.not_eq_true, isContainer_iff]) (mt hzero.1 h0) (hfits.2 hf)]
      simp [State.applyTlvp, hnat, depthByte, Utf8.start]

/-- The invariants leave room for a header byte where one may come (R183). -/
theorem State.Inv.room {s : State} (h : s.Inv) (hm : s.tlv.InHeader) : Room 1 s.tlv.stack := h.headerRoom hm

/-- P.BYTE on the last byte of a header. -/
theorem exec_pByte_header_last {s : State} {b : Byte} {f : Family} {n : Nat} (hs : s.Inv) (hm : s.tlv.InHeader)
    (hn : n < 2 ^ 32) (h : s.tlv.readHeader b = ({ s.tlv with fam := f, len := BitVec.ofNat 32 n }, true)) :
    ∃ t : State, exec (.pByte b) s = .next t ∧ HeaderOutcome s f n t := by
  have hr := hs.room hm
  exact ⟨_, exec_pByte (byte_header_last (st := s.tlv.stack) hm hr h), headerOutcome_headerDone hn hr⟩

/-- Settles O43: a tag byte with an inline length completes its header. -/
theorem inlineHeaderChecksInOrder : Obligations.InlineHeaderChecksInOrder := fun _ _ _ hs hm hn =>
  exec_pByte_header_last hs (.inl hm) (by omega) (readHeader_inline hm hn)

theorem shiftInLen_eq_beNat {len : Word32} {xs : List Byte} (h : len.toNat = beNat xs) (b : Byte) :
    shiftInLen len b = BitVec.ofNat 32 (beNat (xs ++ [b])) := by
  rw [shiftInLen_eq, h, beNat_append_singleton]

/-- Settles O53: the last byte of an extension completes the length, big-endian. -/
theorem extendedHeaderChecksInOrder : Obligations.ExtendedHeaderChecksInOrder := by
  refine fun s b hs => ⟨fun h1 hm hk hl hne => ?_, fun h3 h2 h1 hm hk hl => ?_⟩
  · have hlen := shiftInLen_eq_beNat (xs := [h1]) (hl.trans (by simp [beNat])) b
    have hlt : beNat [h1, b] < 2 ^ 32 := Nat.lt_trans (beNat_lt [h1, b]) (by simp)
    refine exec_pByte_header_last hs (.inr (.inl hm)) hlt ?_
    rw [readHeader_len16_last hm hk, hlen]
    · rfl
    · rw [hlen]
      exact fun h => hne ((word_ofNat_toNat hlt).symm.trans (congrArg BitVec.toNat h))
  · have hlt : beNat [h3, h2, h1, b] < 2 ^ 32 := Nat.lt_of_lt_of_le (beNat_lt [h3, h2, h1, b]) (by simp)
    refine exec_pByte_header_last hs (.inr (.inr hm)) hlt ?_
    rw [readHeader_len32_last b hm hk, shiftInLen_eq_beNat (xs := [h3, h2, h1]) hl b]
    rfl

/-! ### Incomplete headers (R183) -/

/-- `split_check` after a counted header byte does what R183 says. -/
theorem splitOutcome_splitCheck {s : State} {p : Tlvp} (hr : Room 1 s.tlv.stack) :
    SplitOutcome s p (s.applyTlvp (Tlvp.splitCheck { p with stack := taken 1 s.tlv.stack })) := by
  have hused {top : StackEntry} (h : top.rem ≠ 1) (hle : 1 ≤ top.rem.toNat) : 1 + 1 ≤ top.rem.toNat := by
    rw [ne_eq, ← BitVec.toNat_inj] at h
    simp at h
    omega
  refine ⟨?_, fun h => ?_⟩
  · rintro ⟨top, below, hs, h1⟩
    have hsplit : Tlvp.splitCheck { p with stack := taken 1 s.tlv.stack } =
        Tlvp.perr .container { p with stack := taken 1 s.tlv.stack } := by
      simp [Tlvp.splitCheck, hs, taken, h1]
    rw [hsplit]; rfl
  · have hroom : Room (1 + 1) s.tlv.stack := fun top below hs => hused (h top below hs) (hr top below hs)
    rw [splitCheck_of_room hroom.taken, State.applyTlvp, List.append_nil]

/-- P.BYTE on a byte that leaves its header incomplete. -/
theorem exec_pByte_header_more {s : State} {b : Byte} {q : Tlvp} (hs : s.Inv) (hm : s.tlv.InHeader)
    (h : s.tlv.readHeader b = (q, false)) : ∃ t : State, exec (.pByte b) s = .next t ∧ SplitOutcome s q t := by
  have hr := hs.room hm
  exact ⟨_, exec_pByte (byte_header_more (st := s.tlv.stack) hm hr h), splitOutcome_splitCheck hr⟩

/-- Settles O54: the four bytes that leave a header incomplete, by P_MODE and P_K. -/
theorem incompleteHeaderBytesAreChecked : Obligations.IncompleteHeaderBytesAreChecked := by
  refine fun s b hs => ⟨fun f hm hb => ?_, fun hm hk => ?_, fun hm hk hl hb => ?_, fun hm hk => ?_⟩
  · subst hb
    exact exec_pByte_header_more hs (.inl hm) (readHeader_extended hm)
  · refine exec_pByte_header_more hs (.inr (.inl hm)) ?_
    rw [readHeader_len16_first b hm hk, shiftInLen_eq]
  · refine exec_pByte_header_more hs (.inr (.inl hm)) (readHeader_len16_marker hm hk ?_)
    rw [hl, hb]; decide
  · refine exec_pByte_header_more hs (.inr (.inr hm)) ?_
    rw [readHeader_len32_more b hm hk, shiftInLen_eq]

/-! ### Content bytes (R191 to R193) -/

/-- Settles O55: a byte spoils its text or is delivered, and the last one ends its record. -/
theorem contentBytesAreDelivered : Obligations.ContentBytesAreDelivered := by
  intro s b hs hm hlist hmap acc read
  have hacc : shiftInAcc s.tlv.acc b = acc := shiftInAcc_eq _ _
  have hcnt : s.tlv.cnt - 1 = BitVec.ofNat 32 (s.tlv.cnt.toNat - 1) :=
    BitVec.eq_of_toNat_eq (by rw [taken_rem_toNat, BitVec.toNat_sub_of_le (hs.contentLeft hm)]; rfl)
  have hbyte := byte_of_content s.cfg.maxDepth b hm
  refine ⟨fun h => ?_, fun h => ?_⟩
  · rw [contentByte_of_spoils h, hacc, hcnt] at hbyte
    exact exec_pByte hbyte
  · obtain ⟨u, hu, he⟩ := contentByte_of_not_spoils hm h
    rw [he, hacc] at hbyte
    refine ⟨u, delivered s.tlv.fam [b], Tlvp.finishScalar { read with utf := u }, hu, rfl, fun hc => ?_, fun hc => ⟨?_, ?_⟩⟩
    · rw [contentEnd_more (mt (word_pred_eq_zero_iff _).1 hc), hcnt] at hbyte
      rw [exec_pByte hbyte]
      simp [State.applyTlvp, emitBefore, read]
    · split
      next hf => exact finishScalar_none hf
      next hf => exact finishScalar_boolean hf
      next hf =>
        rintro l hl hwidth
        exact ⟨_, finishScalar_integer hf, by rw [show read.len.toNat = l from hl, sextBytes_toInt (by omega)]⟩
      next hf => exact finishScalar_real hf
      next hf => exact finishScalar_text (.inl hf)
      next hf => exact finishScalar_text (.inr hf)
      all_goals trivial
    · refine ⟨_, _, complete_completion { read with utf := u }, ?_⟩
      rw [contentEnd_last ((word_pred_eq_zero_iff _).2 hc), hcnt] at hbyte
      rw [exec_pByte hbyte]
      simp [State.applyTlvp, emitBefore, read]

end Sys2Proof.Machine
end

section
/-! PROOFS. Integer records, at the top level and as the last sub-record of a container (43_tlv_parser.md R192, R193):
record trees with one leaf -/

namespace Sys2Proof.Machine

/-- The value of up to 8 content bytes loses nothing in 64 bits (R192). -/
theorem ofInt_beInt_toInt {bs : List Byte} (h : bs.length ≤ 8) : (BitVec.ofInt 64 (beInt bs)).toInt = beInt bs := by
  have hlt : beNat bs < 2 ^ 64 :=
    Nat.lt_of_lt_of_le (beNat_lt bs) (Nat.pow_le_pow_right (n := 256) (by decide) h)
  rw [← sextBytes_ofNat_beNat h, sextBytes_toInt h, BitVec.toNat_ofNat, Nat.mod_eq_of_lt hlt, beInt_eq_bmod, Nat.pow_mul]

/-- An inline Integer record of a legal width is valid (R188). -/
theorem valid_integer {content : List Byte} (h : WidthAllowed .integer content.length) :
    (Rec.leaf .integer .inline content).valid = true := by
  have hwidth := (legalWidth_iff .integer (n := content.length) (by unfold WidthAllowed at h; omega)).2 h
  simp only [Rec.valid, hwidth, SizeTier.fits, Bool.and_true, Bool.and_eq_true, decide_eq_true_eq]
  exact ⟨⟨rfl, by unfold WidthAllowed at h; omega⟩, rfl⟩

/-- Settles O46: the record is a leaf with room at the top level, where its completion is TOP. -/
theorem integerContentIsSignedBigEndian : Obligations.IntegerContentIsSignedBigEndian := by
  intro s content hm hs hwidth
  obtain ⟨q, hfeed, hqs, hqn⟩ := feed_leaf (m := s.cfg.maxDepth) hm (valid_integer hwidth)
    (by rw [hs]; exact room_nil _)
  rw [hs] at hfeed hqs
  rw [complete_top hqs] at hfeed
  refine ⟨_, performs_map_pByte s _, ?_⟩
  rw [show tagOf .integer content.length :: content = (Rec.leaf .integer .inline content).bytes from rfl, hfeed]
  refine ⟨rfl, hqs, congrArg (· + 1) hqn, _, ofInt_beInt_toInt (by omega), ?_⟩
  simp [Rec.events, leafEvents, hqn, depthByte]

/-- Settles O47: the sub-record is a leaf that leaves its container no room, so it completes it, or lacks its value. -/
theorem lastSubRecordClosesItsContainer : Obligations.LastSubRecordClosesItsContainer := by
  intro s e hm hs hrem
  obtain ⟨q, hfeed, hqs, hqn⟩ := feed_leaf (m := s.cfg.maxDepth) (content := []) hm (valid_integer (.inl rfl))
    (by rw [hs, room_cons, hrem]; decide)
  rw [show (Rec.leaf .integer .inline []).bytes = [0x40] from rfl, Tlvp.feed_singleton] at hfeed
  rw [hs] at hfeed hqs
  have hstack : q.stack = [⟨e.kind, 0, e.odd⟩] := by rw [hqs, taken, hrem]; rfl
  refine ⟨_, exec_pByte hfeed, fun h => ?_, fun ⟨hk, ho⟩ => ?_⟩
  · have hcloses : ¬ LacksValue ⟨e.kind, 0, e.odd⟩ := by
      rintro ⟨-, hk, ho⟩
      obtain h | h := h
      · cases h.symm.trans hk
      · cases h.symm.trans ho
    rw [complete_closes hstack rfl hcloses, complete_top rfl]
    refine ⟨rfl, rfl, congrArg (· + 1) hqn, ?_⟩
    simp [Rec.events, leafEvents, depthByte, beInt, beNat, hqn]
  · rw [complete_lacks_value hstack ⟨rfl, hk, ho⟩]
    refine ⟨rfl, hqn, ?_⟩
    simp [Rec.events, leafEvents, depthByte, beInt, beNat]

end Sys2Proof.Machine
end

section
/-! PROOFS. The control commands (44_control.md R230, R231): NOP, and RDREG with the value of each row of the register
map (10_state.md R34) -/

namespace Sys2Proof.Machine

/-! ### Registers packed from fields -/

@[simp] theorem toNat_flagBit (b : Bool) : (flagBit b).toNat = b.toNat := by cases b <;> rfl

/-- A register of two fields: the low one of k bits, the high one above it and within the register. -/
theorem toNat_or_shiftLeft {x y : Word32} {k : Nat} (hx : x.toNat < 2 ^ k) (hy : 2 ^ k * y.toNat < 2 ^ 32) :
    (x ||| y <<< k).toNat = x.toNat + 2 ^ k * y.toNat := by
  have hshift : (y <<< k).toNat = 2 ^ k * y.toNat := by
    rw [BitVec.toNat_shiftLeft, Nat.shiftLeft_eq, Nat.mul_comm, Nat.mod_eq_of_lt hy]
  rw [BitVec.toNat_or, hshift, Nat.or_comm, ← Nat.two_pow_add_eq_or_of_lt hx, Nat.add_comm]

/-- Register 0x03: FRX's two flags, RX_ESC in bit 0 and RX_DISC in bit 1 (R34). -/
theorem toNat_flags (a b : Bool) : (flagBit a ||| flagBit b <<< 1).toNat = a.toNat + 2 * b.toNat := by
  have ha : (flagBit a).toNat < 2 := toNat_flagBit a ▸ a.toNat_lt
  have hb : (flagBit b).toNat < 2 := toNat_flagBit b ▸ b.toNat_lt
  rw [← toNat_flagBit a, ← toNat_flagBit b]
  exact toNat_or_shiftLeft (by omega) (by omega)

theorem toNat_depthByte {d : Nat} (h : d < 256) : (depthByte d).toNat = d :=
  (BitVec.toNat_ofNat ..).trans (Nat.mod_eq_of_lt h)

/-- Register 0x05: P_MODE in bits 2..0 and the depth in bits 15..8 (R34). -/
theorem toNat_pStat (m : PMode) (d : Byte) :
    (m.code.setWidth 32 ||| d.setWidth 32 <<< 8).toNat = m.code.toNat + 256 * d.toNat := by
  have hm : (m.code.setWidth 32).toNat = m.code.toNat := BitVec.toNat_setWidth_of_le (by decide)
  have hd : (d.setWidth 32).toNat = d.toNat := BitVec.toNat_setWidth_of_le (by decide)
  rw [← hm, ← hd]
  exact toNat_or_shiftLeft (by omega) (by omega)

/-! ### NOP and RDREG -/

theorem exec_rdreg_of_regVal {s : State} {n : Byte} {v : Word32} (h : s.regVal n = some v) :
    exec (.rdreg n) s = .next (s.emitReg ⟨n, v⟩) := by
  simp only [exec, execRdreg, h]

/-- Settles O20: OP 0x00 is NOP's row of the opcode map, and its arm is the state itself. -/
theorem nopChangesNothing : Obligations.NopChangesNothing := fun _ d => ⟨decode_commandWord .nop d, rfl⟩

/-- Settles O21: up to 0x09 the map has a value, which each row reads as its fields; above, `exec_rdreg_of_gt`. -/
theorem rdregReadsTheRegisterMap : Obligations.RdregReadsTheRegisterMap := by
  intro s n
  refine ⟨decode_commandWord .rdreg n, fun hn => ?_, exec_rdreg_of_gt s⟩
  obtain ⟨v, hv⟩ := Option.ne_none_iff_exists'.1 (mt (regVal_eq_none_iff s n).1 (Nat.not_lt.2 hn))
  have value {u : Word32} (h : s.regVal n = some u) : v = u := Option.some.inj (hv.symm.trans h)
  refine ⟨v, exec_rdreg_of_regVal hv, ?crcVal, ?txOpen, ?txCrc, ?rxFlags, ?rxLen, ?pStat, ?ntop, ?err, ?rxMax,
    ?maxDepth⟩ <;> rintro rfl
  case crcVal | txCrc | err | maxDepth =>
    rw [value rfl]
    exact BitVec.toNat_setWidth_of_le (by decide)
  case txOpen =>
    rw [value rfl]
    exact toNat_flagBit _
  case rxFlags =>
    rw [value rfl]
    exact toNat_flags _ _
  case rxLen =>
    intro hlen
    rw [value rfl]
    exact (BitVec.toNat_ofNat ..).trans (Nat.mod_eq_of_lt hlen)
  case pStat =>
    intro hdepth
    rw [value rfl, toNat_pStat, Tlvp.depth, toNat_depthByte hdepth]
  case ntop | rxMax => exact value rfl

end Sys2Proof.Machine
end

section
/-! PROOFS. Errors never stop the block (60_exceptions.md R250 to R257, R265): every step goes on, a command reports at
most one error, and the table of receive errors -/

namespace Sys2Proof.Machine

/-! ### No step stops (R250, R257, R265) -/

/-- Settles O9: with nothing from the host the step has one branch. -/
theorem idleStepChangesNothing : Obligations.IdleStepChangesNothing := fun _ => step_of_idle

/-- Every step goes on, and takes the host's next input if there is one. -/
theorem step_goes_on (s : State) : ∃ t, step s = .next t ∧ t.inputs = s.inputs.tail := by
  obtain ⟨hin, hs⟩ | ⟨rest, hin, hs⟩ | ⟨w, rest, i, hin, -, hs⟩ | ⟨w, rest, e, hin, -, hs⟩ := step_cases s <;>
    rw [hin, hs]
  · exact ⟨s, rfl, hin⟩
  · exact ⟨_, rfl, rfl⟩
  · obtain ⟨t, ht⟩ := exec_goes_on i { s with inputs := rest }
    exact ⟨t, ht, exec_keeps_inputs ht⟩
  · exact ⟨_, rfl, rfl⟩

/-- Settles O10, by induction on the number of steps. -/
theorem everyStepGoesOn : Obligations.EveryStepGoesOn := by
  intro k
  induction k with
  | zero => exact fun s => ⟨s, rfl, rfl⟩
  | succ k ih =>
    intro s
    obtain ⟨u, hu, hin⟩ := step_goes_on s
    obtain ⟨t, ht, hdrop⟩ := ih u
    exact ⟨t, (runSteps_succ k hu).trans ht, by rw [hdrop, hin, List.drop_tail]⟩

/-! ### One command, one error (R254, R255) -/

/-- Only commands of FRX write RX_OUT. -/
theorem exec_rxOut {i : Instr} {s t : State} (h : exec i s = .next t) (hu : i.unit ≠ .frx) : t.rxOut = s.rxOut := by
  cases exec_unitEffect h with
  | frx hu' => exact absurd hu' hu
  | control | crc | ftx | tlvp => rfl

/-- Only commands of TLVP write P_OUT. -/
theorem exec_pOut {i : Instr} {s t : State} (h : exec i s = .next t) (hu : i.unit ≠ .tlvp) : t.pOut = s.pOut := by
  cases exec_unitEffect h with
  | tlvp hu' => exact absurd hu' hu
  | control | crc | ftx | frx => rfl

/-- FRX reports at most one event a byte. -/
theorem Frx.byte_length_le_one (m : Word32) (x : Byte) (r : Frx) : (r.byte m x).2.length ≤ 1 := by
  have happend (v : Byte) (q : Frx) : (q.append m v).2.length ≤ 1 := by
    obtain ⟨-, he⟩ | ⟨-, -, he⟩ | ⟨-, -, he⟩ := Frx.append_cases m v q <;> simp [he]
  obtain ⟨-, he⟩ | ⟨-, -, he⟩ | ⟨-, -, -, he⟩ | ⟨-, -, -, -, he⟩ | ⟨-, -, -, -, he⟩ | ⟨-, -, -, he⟩ :=
    Frx.byte_cases m x r <;> rw [he]
  · exact happend _ _
  · exact Nat.zero_le _
  · exact Nat.zero_le _
  · exact Nat.zero_le _
  · exact Nat.le_refl _
  · exact happend _ _

/-- The events hold at most one error report, and one that they hold is the last of them. -/
def OneErrorLast (evs : List PEvent) : Prop :=
  evs.countP PEvent.isError ≤ 1 ∧ (evs.countP PEvent.isError = 1 → ∃ q c, evs = q ++ [.perr c])

theorem Plain.countP {evs : List PEvent} (h : Plain evs) : evs.countP PEvent.isError = 0 := by
  refine List.countP_eq_zero.2 fun e he => ?_
  have hplain := List.all_eq_true.1 h e he
  simp only [Bool.and_eq_true, Bool.not_eq_true'] at hplain
  simp [hplain.1]

theorem Plain.oneErrorLast {evs : List PEvent} (h : Plain evs) : OneErrorLast evs := by
  simp [OneErrorLast, h.countP]

theorem Plain.oneErrorLast_perr {evs : List PEvent} (h : Plain evs) (c : PErr) : OneErrorLast (evs ++ [.perr c]) :=
  ⟨by rw [List.countP_append, h.countP]; exact Nat.le_refl _, fun _ => ⟨evs, c, rfl⟩⟩

theorem oneErrorLast_byte (m b : Byte) (p : Tlvp) : OneErrorLast (p.byte m b).2 := by
  by_cases hm : p.mode = .error
  · rw [byte_of_error m b hm]
    exact Plain.oneErrorLast rfl
  · obtain ⟨-, hp⟩ | ⟨-, evs, c, he, hp⟩ := reportsOnce_byte m b hm
    · exact hp.oneErrorLast
    · rw [he]
      exact hp.oneErrorLast_perr c

theorem oneErrorLast_endEvents (p : Tlvp) : OneErrorLast p.endEvents := by
  obtain ⟨-, he⟩ | ⟨-, -, he⟩ | ⟨-, -, he⟩ := endEvents_cases p <;> rw [he]
  · exact Plain.oneErrorLast rfl
  · exact ⟨Nat.zero_le _, nofun⟩
  · exact Plain.oneErrorLast_perr (evs := []) rfl _

/-- Settles O19: control, CRC and FTX report in ERR alone, FRX one event a command, and TLVP one error a command. -/
theorem oneCommandReportsAtMostOneError : Obligations.OneCommandReportsAtMostOneError := by
  intro i s t h
  cases i with
  | rxByte x =>
    cases h
    refine ⟨_, [], rfl, by simp, ?_, nofun⟩
    simpa using List.countP_le_length.trans (Frx.byte_length_le_one s.cfg.rxMax x s.rx)
  | rxTmo => cases h; exact ⟨_, [], rfl, by simp, by simp [Frx.timeout, RxEvent.isError], nofun⟩
  | pStart => cases h; exact ⟨[], [], by simp, by simp, by simp, nofun⟩
  | pByte b =>
    cases h
    obtain ⟨hle, hlast⟩ := oneErrorLast_byte s.cfg.maxDepth b s.tlv
    exact ⟨[], _, by simp, rfl, by simpa using hle, hlast⟩
  | pEnd =>
    cases h
    obtain ⟨hle, hlast⟩ := oneErrorLast_endEvents s.tlv
    exact ⟨[], _, by simp, rfl, by simpa using hle, hlast⟩
  | nop | rdreg n | crcClr | crcUpd d | txSof | txData d | txEof =>
    refine ⟨[], [], by simp [exec_rxOut h nofun], by simp [exec_pOut h nofun], ?_, nofun⟩
    split <;> simp

/-! ### The errors of FRX (R251) -/

/-- Everything a closing delimiter can report of a buffer that holds a byte, if it reports an error. -/
theorem frameVerdict_rxerr {buf : List Byte} {c : RxErr} {a b : Word32} (hb : buf ≠ [])
    (h : frameVerdict buf = .rxerr c a b) :
    (c = .short ∧ buf.length = 1 ∧ a = 1 ∧ b = 0) ∨
    (c = .integrity ∧ ∃ (p : List Byte) (h l : Byte), buf = p ++ [h, l] ∧ crc16 p ≠ h ++ l ∧
      a.toNat = (crc16 p).toNat ∧ b.toNat = h.toNat * 256 + l.toNat) := by
  match buf, hb with
  | [x], _ => cases h; exact .inl ⟨rfl, rfl, rfl, rfl⟩
  | x :: y :: rest, _ =>
    obtain ⟨p, hi, lo, hbuf⟩ := buffer_splits (buf := x :: y :: rest) (by simp)
    rw [hbuf, frameVerdict_split] at h
    split at h
    case isTrue => cases h
    case isFalse hcrc =>
      cases h
      refine .inr ⟨rfl, p, hi, lo, hbuf, hcrc, BitVec.toNat_setWidth_of_le (by decide), ?_⟩
      exact (BitVec.toNat_setWidth_of_le (by decide)).trans (append_value hi lo)

/-- `rx_append` reports OVERFLOW alone, of a full buffer (R153). -/
theorem Frx.append_rxerr {m : Word32} {v : Byte} {r : Frx} {c : RxErr} {a b : Word32}
    (h : (r.append m v).2 = [.rxerr c a b]) :
    c = .overflow ∧ r.buf.length = m.toNat ∧ a = m ∧ b = 0 ∧ (r.append m v).1.buf = [] ∧
      (r.append m v).1.discard = true := by
  obtain ⟨-, he⟩ | ⟨-, hl, he⟩ | ⟨-, -, he⟩ := Frx.append_cases m v r <;> rw [he] at h ⊢
  · cases h
  · cases h; exact ⟨rfl, hl, rfl, rfl, rfl, rfl⟩
  · cases h

/-- RX.BYTE reports OVERFLOW, or the verdict of a closing delimiter. -/
theorem Frx.byte_rxerr {m : Word32} {x : Byte} {r : Frx} {c : RxErr} {a b : Word32}
    (h : (r.byte m x).2 = [.rxerr c a b]) :
    (c = .overflow ∧ r.buf.length = m.toNat ∧ a = m ∧ b = 0 ∧ (r.byte m x).1.buf = [] ∧
      (r.byte m x).1.discard = true) ∨
    (x = 0x7E ∧ r.buf ≠ [] ∧ frameVerdict r.buf = .rxerr c a b ∧ (r.byte m x).1.buf = []) := by
  obtain ⟨-, he⟩ | ⟨-, -, he⟩ | ⟨-, -, -, he⟩ | ⟨-, -, -, -, he⟩ | ⟨-, hx, -, hb, he⟩ | ⟨-, -, -, he⟩ :=
    Frx.byte_cases m x r <;> rw [he] at h ⊢
  · exact .inl (Frx.append_rxerr h)
  · cases h
  · cases h
  · cases h
  · exact .inr ⟨hx, hb, List.singleton_inj.1 h, rfl⟩
  · exact .inl (Frx.append_rxerr h)

/-- Settles O35: RX.TMO reports TIMEOUT, RX.BYTE the other three, and no other command writes RX_OUT. -/
theorem receiveErrorsFollowTheirTable : Obligations.ReceiveErrorsFollowTheirTable := by
  refine ⟨rfl, rfl, rfl, rfl, fun s t i c a b h hout => ?_⟩
  cases i with
  | rxByte x =>
    cases h
    obtain ⟨rfl, hfull, ha, hb, hbuf, hdiscard⟩ | ⟨rfl, hne, hverdict, hbuf⟩ :=
      Frx.byte_rxerr (List.append_cancel_left hout)
    · exact ⟨⟨x, rfl⟩, hfull, ha, hb, hbuf, hdiscard⟩
    · obtain ⟨rfl, hlen, ha, hb⟩ | ⟨rfl, hcrc⟩ := frameVerdict_rxerr hne hverdict
      · exact ⟨rfl, hlen, ha, hb, hbuf⟩
      · exact ⟨rfl, hbuf, hcrc⟩
  | rxTmo =>
    cases h
    cases List.append_cancel_left hout
    exact ⟨rfl, rfl, rfl, rfl⟩
  | nop | rdreg n | crcClr | crcUpd d | txSof | txData d | txEof | pStart | pByte b | pEnd =>
    simp [exec_rxOut h nofun] at hout

end Sys2Proof.Machine
end

section
/-! PROOFS. The errors of TLVP (60_exceptions.md R252): which error each procedure of the parser reports, exactly, against
the 'raised by' column of the table -/

namespace Sys2Proof.Machine

/-! ### Reports among events -/

theorem perr_mem_perr_iff (c d : PErr) (p : Tlvp) : .perr c ∈ (p.perr d).2 ↔ c = d := by simp

theorem Plain.perr_notMem {evs : List PEvent} (h : Plain evs) (c : PErr) : .perr c ∉ evs := fun hc =>
  nomatch List.all_eq_true.1 h _ hc

theorem perr_mem_emitBefore_iff {evs : List PEvent} (h : Plain evs) (c : PErr) (r : Tlvp × List PEvent) :
    .perr c ∈ (emitBefore evs r).2 ↔ .perr c ∈ r.2 := by
  simp [h.perr_notMem c]

/-! ### MAP_ODD (R193) -/

/-- A record completed inside the innermost of these containers closes containers up to a Map used up by a key. -/
def EndsAtKey (stack : List StackEntry) : Prop :=
  ∃ closed e below, stack = closed ++ e :: below ∧ AllClose closed ∧ LacksValue e

theorem not_endsAtKey_nil : ¬ EndsAtKey [] := by
  rintro ⟨closed, e, below, h, -⟩
  simp at h

theorem endsAtKey_of_lacksValue {e : StackEntry} (below : List StackEntry) (h : LacksValue e) : EndsAtKey (e :: below) :=
  ⟨[], e, below, rfl, fun _ hx => (List.not_mem_nil hx).elim, h⟩

/-- A container that does not lack a value is passed if it is used up. -/
theorem endsAtKey_cons_iff {e : StackEntry} {below : List StackEntry} (h : ¬ LacksValue e) :
    EndsAtKey (e :: below) ↔ e.rem = 0 ∧ EndsAtKey below := by
  constructor
  · rintro ⟨closed, k, rest, hs, hc, hk⟩
    cases closed with
    | nil => cases hs; exact absurd hk h
    | cons x closed =>
      cases hs
      obtain ⟨⟨hrem, -⟩, hclosed⟩ := List.forall_mem_cons.1 hc
      exact ⟨hrem, closed, k, rest, rfl, hclosed, hk⟩
  · rintro ⟨hrem, closed, k, rest, rfl, hc, hk⟩
    refine ⟨e :: closed, k, rest, rfl, List.forall_mem_cons.2 ⟨⟨hrem, fun hmap => ?_⟩, hc⟩, hk⟩
    by_contra hodd
    exact h ⟨hrem, hmap, Bool.eq_false_of_not_eq_true hodd⟩

/-- Completing a record reports MAP_ODD alone. -/
theorem perr_mem_complete_iff (c : PErr) (p : Tlvp) : .perr c ∈ p.complete.2 ↔ c = .mapOdd ∧ EndsAtKey p.stack := by
  generalize hs : p.stack = st
  induction st generalizing p with
  | nil => simp [complete_top hs, not_endsAtKey_nil]
  | cons e below ih =>
    by_cases hk : LacksValue e
    · rw [complete_lacks_value hs hk, perr_mem_perr_iff]
      exact (and_iff_left (endsAtKey_of_lacksValue below hk)).symm
    · rw [endsAtKey_cons_iff hk]
      by_cases hr : e.rem = 0
      · have hplain : Plain [.close (depthByte below.length)] := rfl
        rw [complete_closes hs hr hk, perr_mem_emitBefore_iff hplain, ih _ rfl, and_iff_right hr]
      · rw [complete_goes_on hs hr]
        simp only [List.not_mem_nil, hr, false_and, and_false]

/-! ### WIDTH, CONTAINER and DEPTH (R183, R188 to R190) -/

theorem perr_mem_splitCheck_iff (c : PErr) (p : Tlvp) :
    .perr c ∈ p.splitCheck.2 ↔ c = .container ∧ ¬ HasRoom p.stack := by
  obtain ⟨hr, he⟩ | ⟨top, below, hs, hr, he⟩ := splitCheck_cases p <;> rw [he]
  · simp [show HasRoom p.stack from hr]
  · rw [perr_mem_perr_iff]
    exact (and_iff_left fun h => h top below hs hr).symm

/-- An accepted header reports an error only of an empty record, at its completion. -/
theorem perr_mem_acceptHeader_iff (c : PErr) (len : Word32) (p : Tlvp) :
    .perr c ∈ (p.acceptHeader len).2 ↔ c = .mapOdd ∧ len = 0 ∧ EndsAtKey p.stack := by
  obtain ⟨-, hl, he⟩ | ⟨-, hl, he⟩ | ⟨-, hl, he⟩ | ⟨-, hl, he⟩ := acceptHeader_cases len p <;> rw [he]
  · have hplain : Plain [.hdr p.fam len (depthByte p.depth), .close (depthByte p.depth)] := rfl
    rw [perr_mem_emitBefore_iff hplain, perr_mem_complete_iff, hl, takeFromTop_zero, and_iff_right rfl]
  · simp only [List.mem_singleton, reduceCtorEq, hl, false_and, and_false]
  · have hplain : Plain (.hdr p.fam len (depthByte p.depth) :: Tlvp.finishScalar { p.takeFromTop len with acc := 0 }) :=
      plain_append (xs := [_]).2 ⟨rfl, finishScalar_plain _⟩
    rw [perr_mem_emitBefore_iff hplain, perr_mem_complete_iff, hl, takeFromTop_zero, and_iff_right rfl]
  · simp only [List.mem_singleton, reduceCtorEq, hl, false_and, and_false]

/-- What a complete header of family `f` and length `len` makes P.BYTE report, when `stack` is the stack after it: the
checks of R187 in order, and MAP_ODD of an empty record. -/
def HeaderReports (m : Byte) (f : Family) (len : Word32) (stack : List StackEntry) (c : PErr) : Prop :=
  match c with
  | .width => legalWidth f len = false
  | .container => legalWidth f len = true ∧ ¬ Room len.toNat stack
  | .depth => legalWidth f len = true ∧ Room len.toNat stack ∧
      (f.isContainer = true ∧ len ≠ 0 ∧ stack.length = m.toNat)
  | .mapOdd => len = 0 ∧ EndsAtKey stack
  | .utf8 | .trunc => False

theorem legalWidth_zero (f : Family) : legalWidth f 0 = true := by cases f <;> rfl

theorem perr_mem_headerDone_iff (c : PErr) (m : Byte) (len : Word32) (p : Tlvp) :
    .perr c ∈ (p.headerDone m len).2 ↔ HeaderReports m p.fam len p.stack c := by
  by_cases hw : legalWidth p.fam len = true
  · by_cases hr : Room len.toNat p.stack
    · by_cases hd : p.fam.isContainer = true ∧ len ≠ 0 ∧ p.stack.length = m.toNat
      · rw [headerDone_too_deep hw hr hd, perr_mem_perr_iff]
        cases c <;> simp only [HeaderReports, hw, hr, reduceCtorEq] <;> tauto
      · rw [headerDone_of_checked hw hr hd, perr_mem_acceptHeader_iff]
        cases c <;> simp only [HeaderReports, hw, hr, reduceCtorEq] <;> tauto
    · have hl : len ≠ 0 := by
        rintro rfl
        exact hr fun _ _ _ => Nat.zero_le _
      rw [headerDone_overruns hw hr, perr_mem_perr_iff]
      cases c <;> simp only [HeaderReports, hw, hr, reduceCtorEq] <;> tauto
  · have hl : len ≠ 0 := by
      rintro rfl
      exact hw (legalWidth_zero _)
    rw [Bool.not_eq_true] at hw
    rw [headerDone_bad_width hw, perr_mem_perr_iff]
    cases c <;> simp only [HeaderReports, hw, reduceCtorEq] <;> tauto

/-! ### UTF8 (R191) -/

theorem plain_delivered (fam : Family) (b : Byte) : Plain (delivered fam [b]) := by
  unfold delivered
  split <;> rfl

/-- A content byte reports UTF8 when it spoils its text, and else an error of the record it completes. -/
theorem perr_mem_contentByte_iff {p : Tlvp} (c : PErr) (b : Byte) (hm : p.mode = .content) :
    .perr c ∈ (p.contentByte b).2 ↔
      c = .utf8 ∧ SpoilsText p b ∨ c = .mapOdd ∧ p.cnt = 1 ∧ ¬ SpoilsText p b ∧ EndsAtKey p.stack := by
  by_cases hspoils : SpoilsText p b
  · rw [contentByte_of_spoils hspoils, perr_mem_perr_iff]
    tauto
  · obtain ⟨u, -, he⟩ := contentByte_of_not_spoils hm hspoils
    rw [he, perr_mem_emitBefore_iff (plain_delivered p.fam b)]
    by_cases hc : p.cnt = 1
    · rw [contentEnd_last ((word_pred_eq_zero_iff _).2 hc), perr_mem_emitBefore_iff (finishScalar_plain _),
        perr_mem_complete_iff]
      tauto
    · rw [contentEnd_more (mt (word_pred_eq_zero_iff _).1 hc), iff_false_left List.not_mem_nil]
      tauto

/-! ### P.BYTE, by mode -/

theorem Tlvp.inHeader_or (p : Tlvp) : p.InHeader ∨ p.mode = .content ∨ p.mode = .error := by
  unfold Tlvp.InHeader
  cases p.mode <;> simp

theorem Tlvp.InHeader.ne_content {p : Tlvp} (h : p.InHeader) : p.mode ≠ .content := by
  rintro hc
  obtain h | h | h := h <;> cases h.symm.trans hc

/-- TRUNC is P.END's (R194). -/
theorem trunc_notMem_byte (m b : Byte) (p : Tlvp) : .perr .trunc ∉ (p.byte m b).2 := by
  obtain hm | hm | hm := p.inHeader_or
  · rw [byte_of_inHeader m b hm]
    split
    · rw [perr_mem_headerDone_iff]; exact id
    · rw [perr_mem_splitCheck_iff]; rintro ⟨h, -⟩; cases h
  · rw [byte_of_content m b hm, perr_mem_contentByte_iff _ _ hm]
    simp
  · rw [byte_of_error m b hm]
    exact List.not_mem_nil

/-! ### The column of R252 -/

/-- A tag byte completes its header unless its size class is 31; an extension's last byte, by P_K. -/
theorem headerCompletedBy_of_inHeader {p : Tlvp} (b : Byte) (hm : p.InHeader) :
    headerCompletedBy p b =
      if (p.readHeader b).2 then some ((p.readHeader b).1.fam, (p.readHeader b).1.len.toNat) else none := by
  have hlen : (p.len.toNat * 256 + b.toNat) % 2 ^ 32 = (shiftInLen p.len b).toNat := by
    rw [shiftInLen_eq, BitVec.toNat_ofNat]
  obtain hm | hm | hm := hm <;> simp only [headerCompletedBy, Tlvp.readHeader, hm, hlen]
  · have hsize : (tagSize b).toNat = b.toNat % 32 := by
      rw [tagSize, field_value]; omega
    have hlast : b.toNat % 32 = 31 ↔ ¬ tagSize b ≤ 30 := by
      rw [BitVec.le_def, hsize]
      show _ ↔ ¬ b.toNat % 32 ≤ 30
      omega
    by_cases h : tagSize b ≤ 30
    · rw [if_neg (by rwa [hlast, not_not]), if_pos h, BitVec.toNat_setWidth_of_le (by decide), hsize]; rfl
    · rw [if_pos (hlast.2 h), if_neg h]; rfl
  · have hmarker : (shiftInLen p.len b).toNat = 0xFFFF ↔ shiftInLen p.len b = 0xFFFF := by
      rw [← BitVec.toNat_inj]; rfl
    by_cases hk : p.k = 0
    · rw [if_pos (.inl hk), if_pos hk]; rfl
    · by_cases hl : shiftInLen p.len b = 0xFFFF
      · rw [if_pos (.inr (hmarker.2 hl)), if_neg hk, if_neg (not_not_intro hl)]; rfl
      · rw [if_neg (not_or.2 ⟨hk, mt hmarker.1 hl⟩), if_neg hk, if_pos hl]; rfl
  · have hk : p.k = 3 ↔ ¬ p.k < 3 := by
      generalize p.k = k
      revert k; decide
    by_cases h : p.k < 3
    · rw [if_neg (not_not_intro h ∘ hk.1), if_pos h]; rfl
    · rw [if_pos (hk.2 h), if_neg h]; rfl

theorem exists_completed_iff {o : Option (Family × Nat)} {f : Family} {n : Nat} (h : o = some (f, n))
    {P : Family → Nat → Prop} : (∃ f n, o = some (f, n) ∧ P f n) ↔ P f n := by
  subst h
  constructor
  · rintro ⟨_, _, h, hP⟩
    cases h
    exact hP
  · exact fun hP => ⟨f, n, rfl, hP⟩

theorem raises_mapOdd_iff (m b : Byte) (p : Tlvp) :
    Raises m p b .mapOdd ↔ ∃ stack, CompletesRecord p b stack ∧ EndsAtKey stack := by
  constructor
  · rintro ⟨closed, e, below, hrec, hclosed, he⟩
    exact ⟨_, hrec, closed, e, below, rfl, hclosed, he⟩
  · rintro ⟨_, hrec, closed, e, below, rfl, hclosed, he⟩
    exact ⟨closed, e, below, hrec, hclosed, he⟩

/-- A byte that completes a header raises what `header_done` reports of it. -/
theorem raises_header_last_iff {p : Tlvp} {f : Family} {len : Word32} {b : Byte} (m : Byte) (c : PErr) (hm : p.InHeader)
    (hr : Room 1 p.stack) (h : headerCompletedBy p b = some (f, len.toNat)) :
    Raises m p b c ↔ HeaderReports m f len (taken 1 p.stack) c := by
  have hmode := hm.ne_content
  have hwidth : WidthAllowed f len.toNat ↔ legalWidth f len = true := by
    rw [← legalWidth_iff f len.isLt, BitVec.ofNat_toNat, BitVec.setWidth_eq]
  have hfits : FitsContainer len.toNat p.stack ↔ Room len.toNat (taken 1 p.stack) := (room_taken_iff hr).symm
  have hzero : len.toNat = 0 ↔ len = 0 := by rw [← BitVec.toNat_inj]; rfl
  have hdeep : NestsTooDeep m f len.toNat p.stack ↔
      (f.isContainer = true ∧ len ≠ 0 ∧ (taken 1 p.stack).length = m.toNat) := by
    rw [isContainer_iff, length_taken, ne_eq, ← hzero]; rfl
  have hdone : headerCompletedBy p b ≠ none := by simp [h]
  have hrec (st : List StackEntry) : CompletesRecord p b st ↔ len = 0 ∧ st = taken 1 p.stack := by
    simp [CompletesRecord, h, hmode, hzero]
  cases c with
  | width => simp only [Raises, exists_completed_iff h, HeaderReports, hwidth, Bool.not_eq_true]
  | container =>
    simp only [Raises, exists_completed_iff h, HeaderReports, hwidth, hfits, hdone, false_and, or_false]
  | depth => simp only [Raises, exists_completed_iff h, HeaderReports, hwidth, hfits, hdeep]
  | mapOdd => simp [raises_mapOdd_iff, HeaderReports, hrec, and_assoc]
  | utf8 => simp [Raises, HeaderReports, SpoilsText, hmode]
  | trunc => rfl

/-- A byte that leaves its header incomplete raises CONTAINER when it uses its container up. -/
theorem raises_header_more_iff {p : Tlvp} {b : Byte} (m : Byte) (c : PErr) (hm : p.InHeader) (hr : Room 1 p.stack)
    (h : headerCompletedBy p b = none) : Raises m p b c ↔ c = .container ∧ ¬ HasRoom (taken 1 p.stack) := by
  have hmode := hm.ne_content
  have hroom : (∃ top below, p.stack = top :: below ∧ top.rem = 1) ↔ ¬ HasRoom (taken 1 p.stack) := by
    rw [hasRoom_iff, room_taken_iff hr]
    cases hs : p.stack with
    | nil => simp
    | cons top below =>
      have hone : top.rem = 1 ↔ top.rem.toNat = 1 := by rw [← BitVec.toNat_inj]; rfl
      rw [hs, room_cons] at hr
      simp only [room_cons, List.cons.injEq, and_assoc, exists_and_left, exists_eq_left', hone]
      omega
  cases c with
  | container =>
    have hheader : p.mode = .tag ∨ p.mode = .len16 ∨ p.mode = .len32 := hm
    simp only [Raises, h, hroom, and_iff_right hheader, reduceCtorEq, false_and, exists_false, false_or, true_and]
  | mapOdd => simp [raises_mapOdd_iff, CompletesRecord, h, hmode]
  | width | depth => simp [Raises, h]
  | utf8 => simp [Raises, SpoilsText, hmode]
  | trunc => simp [Raises]

/-- A content byte raises what `content_byte` reports. -/
theorem raises_content_iff {p : Tlvp} (m b : Byte) (c : PErr) (hm : p.mode = .content) :
    Raises m p b c ↔
      c = .utf8 ∧ SpoilsText p b ∨ c = .mapOdd ∧ p.cnt = 1 ∧ ¬ SpoilsText p b ∧ EndsAtKey p.stack := by
  have hnone : headerCompletedBy p b = none := by simp [headerCompletedBy, hm]
  cases c with
  | mapOdd => simp [raises_mapOdd_iff, CompletesRecord, hnone, hm, and_assoc]
  | width | container | depth => simp [Raises, hnone, hm]
  | utf8 => simp [Raises]
  | trunc => simp [Raises]

/-- Where a header byte may come only with room for it, P.BYTE reports exactly what R252 says it raises. -/
theorem perr_mem_byte_iff {p : Tlvp} (m b : Byte) (c : PErr) (he : p.mode ≠ .error) (hr : p.InHeader → Room 1 p.stack) :
    .perr c ∈ (p.byte m b).2 ↔ Raises m p b c := by
  obtain hm | hm | hm := p.inHeader_or
  · have hdone := headerCompletedBy_of_inHeader b hm
    match hread : p.readHeader b with
    | (q, true) =>
      rw [hread] at hdone
      rw [raises_header_last_iff m c hm (hr hm) hdone, byte_header_last (st := p.stack) hm (hr hm) hread,
        perr_mem_headerDone_iff]
    | (q, false) =>
      rw [hread] at hdone
      rw [raises_header_more_iff m c hm (hr hm) hdone, byte_header_more (st := p.stack) hm (hr hm) hread,
        perr_mem_splitCheck_iff]
  · rw [byte_of_content m b hm, perr_mem_contentByte_iff c b hm, raises_content_iff m b c hm]
  · exact absurd hm he

/-! ### The parser after a report (R186, R194, R252) -/

/-- P.BYTE reports outside ERROR mode only, an error other than TRUNC, and enters it. -/
theorem enters_error_of_perr_mem_byte {p : Tlvp} {m b : Byte} {c : PErr} (h : .perr c ∈ (p.byte m b).2) :
    c ≠ .trunc ∧ p.mode ≠ .error ∧ (p.byte m b).1.mode = .error := by
  have he : p.mode ≠ .error := by
    intro he
    rw [byte_of_error m b he] at h
    cases h
  refine ⟨?_, he, ?_⟩
  · rintro rfl
    exact trunc_notMem_byte m b p h
  · obtain ⟨-, hp⟩ | ⟨hm, -⟩ := reportsOnce_byte m b he
    · exact absurd h (hp.perr_notMem c)
    · exact hm

/-- P.END reports TRUNC only, inside a record. -/
theorem trunc_of_perr_mem_endEvents {p : Tlvp} {c : PErr} (h : .perr c ∈ p.endEvents) :
    c = .trunc ∧ (p.mode ≠ .tag ∨ p.stack ≠ []) := by
  obtain ⟨-, he⟩ | ⟨-, -, he⟩ | ⟨-, hopen, he⟩ := endEvents_cases p <;> rw [he] at h
  · cases h
  · simp at h
  · exact ⟨by simpa using h, hopen⟩

/-- Settles O48: P.BYTE reports what R252 says it raises, P.END reports TRUNC, and no other command writes P_OUT. -/
theorem decodingErrorsFollowTheirTable : Obligations.DecodingErrorsFollowTheirTable := by
  refine ⟨rfl, rfl, rfl, rfl, rfl, rfl, ?codes, ?raised, ?trunc⟩
  case codes =>
    intro s t i evs c h hout hc
    cases i with
    | pByte b =>
      cases h
      rw [← List.append_cancel_left hout] at hc
      obtain ⟨htrunc, hm, hm'⟩ := enters_error_of_perr_mem_byte hc
      exact ⟨fun _ => ⟨⟨b, rfl⟩, hm, hm'⟩, fun h => absurd h htrunc⟩
    | pEnd =>
      cases h
      rw [← List.append_cancel_left hout] at hc
      obtain ⟨htrunc, hopen⟩ := trunc_of_perr_mem_endEvents hc
      exact ⟨fun h => absurd htrunc h, fun _ => ⟨rfl, rfl, hopen⟩⟩
    | pStart =>
      cases h
      cases List.append_cancel_left hout
      cases hc
    | nop | rdreg n | crcClr | crcUpd d | txSof | txData d | txEof | rxByte x | rxTmo =>
      rw [exec_pOut h nofun, List.self_eq_append_right] at hout
      rw [hout] at hc
      cases hc
  case raised =>
    intro s t b evs c hs hm h hout
    cases h
    rw [← List.append_cancel_left hout]
    exact perr_mem_byte_iff _ b c hm hs.room
  case trunc =>
    intro s t hm hopen h
    cases h
    obtain ⟨he, -⟩ | ⟨htag, hempty, -⟩ | ⟨-, -, hev⟩ := endEvents_cases s.tlv
    · exact absurd he hm
    · exact absurd ⟨htag, hempty⟩ (not_and_or.2 hopen)
    · exact congrArg (s.pOut ++ ·) hev

end Sys2Proof.Machine
end

section
/-! PROOFS. Reset and hazards (70_reset_and_hazards.md): the reset input, and each unit's independence of the other units'
commands -/

namespace Sys2Proof.Machine

/-! ### The reset input (R280) -/

/-- Settles O8: the step on a reset has one branch, and a second reset finds every register at its reset value. -/
theorem resetInputRestoresEveryRegister : Obligations.ResetInputRestoresEveryRegister := by
  refine ⟨fun _ _ hin => step_of_reset hin, fun s rest hin => ?_⟩
  rw [runSteps_succ 1 (step_of_reset hin), runSteps_succ 0 (step_of_reset rfl), step_of_reset rfl]
  rfl

/-! ### A unit's part of the state (R284) -/

/-- The parameters with one unit's registers and port, everything else as at power-on. Control has no part: R284 leaves
out ERR, which FTX sets too, and REG_OUT, which shows the other units' registers. -/
def State.part (u : BlockUnit) (s : State) : State :=
  match u with
  | .control => .powerOn s.cfg
  | .crc => { State.powerOn s.cfg with crcVal := s.crcVal }
  | .ftx => { State.powerOn s.cfg with tx := s.tx, lineTx := s.lineTx }
  | .frx => { State.powerOn s.cfg with rx := s.rx, rxOut := s.rxOut }
  | .tlvp => { State.powerOn s.cfg with tlv := s.tlv, pOut := s.pOut }

section Part

variable (u : BlockUnit) (s : State)

@[simp] theorem part_withInputs (xs : List HostInput) : State.part u { s with inputs := xs } = s.part u := by
  cases u <;> rfl

@[simp] theorem part_setErr (b : ErrBit) : (s.setErr b).part u = s.part u := by cases u <;> rfl

/-- The reset of a unit's part is a matter of that part. -/
theorem part_applyReset : s.applyReset.part u = (s.part u).applyReset := by cases u <;> rfl

end Part

/-! ### Commands on a unit's part -/

/-- A command leaves the other units' parts as they were. -/
theorem exec_part_other {u : BlockUnit} {i : Instr} {s t : State} (hu : i.unit ≠ u) (h : exec i s = .next t) :
    t.part u = s.part u := by
  cases exec_unitEffect h with
  | control hi | crc hi | ftx hi | frx hi | tlvp hi => cases u <;> simp [hi] at hu <;> rfl

/-- A command reads nothing but its unit's part: on that part alone it does to it what it does in the whole state. -/
theorem exec_part {i : Instr} {s t : State} (h : exec i s = .next t) :
    ∃ v, exec i (s.part i.unit) = .next v ∧ v.part i.unit = t.part i.unit := by
  cases i with
  | nop | rdreg n =>
    obtain ⟨v, hv⟩ := exec_goes_on _ (s.part .control)
    exact ⟨v, hv, congrArg State.powerOn ((exec_cfg hv).trans (exec_cfg h).symm)⟩
  | txSof =>
    cases hf : s.tx.inFrame
    · cases (exec_txSof_outside hf).symm.trans h
      exact ⟨_, exec_txSof_outside hf, rfl⟩
    · cases (exec_txSof_inFrame hf).symm.trans h
      exact ⟨_, exec_txSof_inFrame hf, rfl⟩
  | txData d =>
    cases hf : s.tx.inFrame
    · cases (exec_txData_outside d hf).symm.trans h
      exact ⟨_, exec_txData_outside d hf, rfl⟩
    · cases (exec_txData_inFrame d hf).symm.trans h
      exact ⟨_, exec_txData_inFrame d hf, rfl⟩
  | txEof =>
    cases hf : s.tx.inFrame
    · cases (exec_txEof_outside hf).symm.trans h
      exact ⟨_, exec_txEof_outside hf, rfl⟩
    · cases (exec_txEof_inFrame hf).symm.trans h
      exact ⟨_, exec_txEof_inFrame hf, rfl⟩
  | crcClr | crcUpd d | rxByte x | rxTmo | pStart | pByte b | pEnd => cases h; exact ⟨_, rfl, rfl⟩

/-- In two states with the same part of its unit, a command leaves the same part of its unit. -/
theorem exec_part_congr {i : Instr} {s s' t t' : State} (hp : s.part i.unit = s'.part i.unit)
    (h : exec i s = .next t) (h' : exec i s' = .next t') : t.part i.unit = t'.part i.unit := by
  obtain ⟨v, hv, hvt⟩ := exec_part h
  obtain ⟨v', hv', hvt'⟩ := exec_part h'
  rw [hp, hv'] at hv
  cases hv
  exact hvt.symm.trans hvt'

/-! ### Steps and runs on a unit's part -/

theorem concerns_of_decodes {w : Command} {i : Instr} (u : BlockUnit) (hd : decode w = .ok i) :
    HostInput.concerns u (.command w) = (i.unit == u) := by
  simp [HostInput.concerns, hd]

theorem concerns_of_rejected {w : Command} {e : DecodeReject} (u : BlockUnit) (hd : decode w = .error e) :
    HostInput.concerns u (.command w) = false := by
  simp [HostInput.concerns, hd]

section Step

variable {u : BlockUnit} {x : HostInput} {rest rest' : List HostInput} {s s' t t' : State}

/-- An input that does not concern a unit leaves its part as it was. -/
theorem step_part_other (hx : x.concerns u = false) (hin : s.inputs = x :: rest) (h : step s = .next t) :
    t.part u = s.part u := by
  cases x with
  | reset => cases hx
  | command w =>
    match hd : decode w with
    | .ok i =>
      have hu : i.unit ≠ u := by simpa [concerns_of_decodes u hd] using hx
      simpa using exec_part_other hu ((step_of_decodes hin hd).symm.trans h)
    | .error e => cases (step_of_rejected hin hd).symm.trans h; simp

/-- An input that concerns a unit takes two states with the same part of it to the same part of it. -/
theorem step_part_congr (hx : x.concerns u = true) (hin : s.inputs = x :: rest) (hin' : s'.inputs = x :: rest')
    (hp : s.part u = s'.part u) (h : step s = .next t) (h' : step s' = .next t') : t.part u = t'.part u := by
  cases x with
  | reset =>
    cases (step_of_reset hin).symm.trans h
    cases (step_of_reset hin').symm.trans h'
    simp [part_applyReset, hp]
  | command w =>
    match hd : decode w with
    | .ok i =>
      obtain rfl : i.unit = u := by simpa [concerns_of_decodes u hd] using hx
      exact exec_part_congr (by simpa using hp) ((step_of_decodes hin hd).symm.trans h)
        ((step_of_decodes hin' hd).symm.trans h')
    | .error e => simp [concerns_of_rejected u hd] at hx

end Step

/-- A run on all the inputs and a run on those that concern a unit keep that unit's parts equal, by induction on the
inputs: the second run stands still where an input concerns other units. -/
theorem runSteps_filter_part {u : BlockUnit} {xs : List HostInput} {s s' t t' : State} (hin : s.inputs = xs)
    (hin' : s'.inputs = xs.filter (HostInput.concerns u)) (hp : s.part u = s'.part u)
    (h : runSteps xs.length s = .next t)
    (h' : runSteps (xs.filter (HostInput.concerns u)).length s' = .next t') : t.part u = t'.part u := by
  induction xs generalizing s s' with
  | nil => cases h; cases h'; exact hp
  | cons x xs ih =>
    obtain ⟨v, hv, hvin⟩ := step_goes_on s
    rw [hin] at hvin
    rw [List.length_cons, runSteps_succ _ hv] at h
    cases hx : x.concerns u
    · rw [List.filter_cons_of_neg (by simp [hx])] at hin' h'
      exact ih hvin hin' ((step_part_other hx hin hv).trans hp) h h'
    · rw [List.filter_cons_of_pos hx] at hin' h'
      obtain ⟨v', hv', hvin'⟩ := step_goes_on s'
      rw [hin'] at hvin'
      rw [List.length_cons, runSteps_succ _ hv'] at h'
      exact ih hvin hvin' (step_part_congr hx hin hin' hp hv hv') h h'

/-- Settles O18: the two runs start with the same part of the unit, so they end with the same. -/
theorem unitsAreIndependent : Obligations.UnitsAreIndependent := by
  intro s t u unit xs h h'
  have hp : t.part unit = u.part unit := runSteps_filter_part (s := { s with inputs := xs })
    (s' := { s with inputs := xs.filter (HostInput.concerns unit) }) rfl rfl (by simp) h h'
  cases unit with
  | control => trivial
  | crc => exact (congrArg State.crcVal hp :)
  | ftx => exact ⟨(congrArg State.tx hp :), (congrArg State.lineTx hp :)⟩
  | frx => exact ⟨(congrArg State.rx hp :), (congrArg State.rxOut hp :)⟩
  | tlvp => exact ⟨(congrArg State.tlv hp :), (congrArg State.pOut hp :)⟩

end Sys2Proof.Machine
end
